-- ==== Sys2Proof/Word.lean ====
section
/-! DEFINITION. The widths the spec gives the HTB (00_scope.md R6, R7, R8): bytes, 32-bit words, bit and byte sequences. -/

namespace Sys2Proof

/-- A byte of the DMA space, or a symbol (R6: `SYM_W` = 8). -/
abbrev Byte := BitVec 8

/-- A register of the window, or a DMA address (R6: `REG_W` = `ADDR_W` = 32). -/
abbrev Word := BitVec 32

/-- A bit sequence, first bit first (R8). -/
abbrev Bits := List Bool

/-- A byte sequence, first byte first (R8). -/
abbrev Bytes := List Byte

/-- The number of byte addresses of the DMA space, 2^32 (R60). -/
abbrev dmaSize : Nat := 4294967296

end Sys2Proof
end

