-- ==== Sys2Proof/Machine/Types.lean ====
section
/-! DEFINITION. The parts of State: the engine's internal structures (10_state.md R38 to R47), the outcome an operation
computes, the platform's parameters (00_scope.md R6) and the host's accesses (70_reset_and_hazards.md R303). -/

namespace Sys2Proof.Machine

/-- The phase register, the analogue of a program counter (R21, R39). -/
inductive Phase where
  | idle
  | run
deriving DecidableEq, Repr, Inhabited

/-- The ten errors an operation can end in (60_exceptions.md R260). -/
inductive ErrKind where
  | inputUnavailable
  | frequencyOverflow
  | malformedContainer
  | unknownCodeAtEndOfStream
  | symbolCountOverflow
  | outputOverflow
  | outputUnavailable
  | illegalOp
  | badRegion
  | invalidBit
deriving DecidableEq, Repr, Inhabited

/-- `raise E(info)` of R10 and R262: the error and its information value, not yet reduced mod 2^32. -/
structure OpError where
  kind : ErrKind
  info : Nat
deriving DecidableEq, Repr, Inhabited

/-- `Ok(out, regs)` of R10: the output and the result registers of R140.  `pad = none` leaves PAD unchanged. -/
structure OpOk where
  out : Bytes
  pad : Option (BitVec 4) := none
  bitlen : Nat := 0
  nsym : Nat := 0
deriving DecidableEq, Repr, Inhabited

/-- What READ and COMPUTE give (R130): an error raised by a check, or the output still to be written. -/
inductive OpResult where
  | raised (e : OpError)
  | ok (r : OpOk)
deriving DecidableEq, Repr, Inhabited

/-- One entry of a table list: a symbol and its frequency (R42). -/
structure Entry where
  sym : Byte
  freq : Nat
deriving DecidableEq, Repr, Inhabited

/-- The ordered table list the tree builder consumes (R42, R161). -/
abbrev Table := List Entry

/-- A node of the arena (R43).  `freq` is a 16-bit field and `left`, `right` are 9-bit arena indices in the hardware;
that the numbers here fit those widths is stated of the builder, not assumed (R9). -/
inductive Node where
  | leaf (freq : Nat) (sym : Byte)
  | internal (freq : Nat) (left right : Nat)
deriving DecidableEq, Repr, Inhabited

/-- The node arena; a node's index is its position (R43). -/
abbrev Arena := List Node

/-- `CODE[0..255]` (R45): entry s is `some bits` when valid; its length is the length of `bits`. -/
abbrev CodeTable := List (Option Bits)

/-- The bit packer's registers (R46) and the bytes it has emitted. -/
structure Packer where
  acc : Byte
  fill : Nat
  len : Nat
  out : Bytes
deriving DecidableEq, Repr, Inhabited

/-- The variables of `walk_decode` (44_codec.md R214) and the symbols it has emitted.  `candLen` is the pseudocode's
candidate length, an unbounded integer by R9; the 32-bit register CLEN that holds it stands in `Engine`. -/
structure Walker where
  cur : Nat
  candLen : Nat
  dead : Bool
  out : Bytes
deriving DecidableEq, Repr, Inhabited

/-- The internal state the spec leaves unspecified after reset: the latches (R38) and the internal structures (R40 to
R47).  `result` holds what READ and COMPUTE gave until completion (R130); no register shows any of it. -/
structure Engine where
  /-- The latches of R38. -/
  op : BitVec 4
  src : Word
  slen : Word
  dst : Word
  cap : Word
  pin : BitVec 4
  /-- The source snapshot S (R40). -/
  snap : Bytes
  /-- The frequency counters FREQ[0..255] (R41). -/
  freq : List Nat
  /-- The table list TBL and its count K (R42). -/
  tbl : Table
  k : Byte
  /-- The node arena and ROOT (R43). -/
  arena : Arena
  root : Nat
  /-- The priority queue, as a duplicate-free list of arena indices (R44). -/
  pq : List Nat
  /-- The code table (R45). -/
  code : CodeTable
  /-- The packer's ACC, FILL and L (R46). -/
  acc : Byte
  fill : Nat
  len : Nat
  /-- The decoder walker's CUR, CLEN (32 bits) and DEAD (R47). -/
  cur : Nat
  clen : Word
  dead : Bool
  /-- The outcome of the operation in progress. -/
  result : OpResult
deriving DecidableEq, Repr, Inhabited

/-- A range of byte addresses, `lo` included and `hi` excluded. -/
structure AddrRange where
  lo : Nat
  hi : Nat
deriving DecidableEq, Repr, Inhabited

/-- The platform's OPEN parameters (R6), fixed for a run: the base of the register window, where `readable` and
`writable` are false, and which addresses have read or write side effects (R66).  That the base has 32 bits is DESIGN
CHOICE, log entry 22. -/
structure Platform where
  htbBase : Word
  unreadable : List AddrRange
  unwritable : List AddrRange
  sideEffect : List AddrRange
deriving DecidableEq, Repr, Inhabited

/-- One action of the host (R303; the host script of R96 and R97), or of the reset input (R290).  That a register-bus
address has 32 bits is DESIGN CHOICE, log entry 22. -/
inductive HostAction where
  /-- A read of `size` bytes at bus address `addr` (`rd`). -/
  | regRead (size : Nat) (addr : Word)
  /-- A write of `size` bytes at bus address `addr` (`wr`, `start`, `ack`, `srst`). -/
  | regWrite (size : Nat) (addr : Word) (v : Word)
  /-- `wait`: read STATUS again and again until DONE is 1 (R97). -/
  | waitDone
  /-- A host read of a byte of the DMA space. -/
  | memLoad (a : Word)
  /-- A host write of a byte of the DMA space (`mem`). -/
  | memStore (a : Word) (v : Byte)
  /-- The reset input is asserted (R290). -/
  | hardReset
deriving DecidableEq, Repr, Inhabited

end Sys2Proof.Machine
end

