-- ==== Sys2Proof/Config.lean ====
section
/-! DEFINITION. The free values: what the spec leaves unspecified or OPEN, as constants without a body that nothing can
evaluate.  Each is applied to a draw number, the counter `draws` of State, so that every occurrence is a draw of its own. -/

namespace Sys2Proof.Config

/-- Draw number n, address a: a byte that "holds any value" (20_memory.md R69, R75; 93 I-8, I-9, I-10).
DESIGN CHOICE, log entry 9. -/
opaque freeByte : Nat → Nat → Byte

/-- Draw number n: COMPLETION_TIME of one operation, finite and otherwise open (70_reset_and_hazards.md R301; 93 P-4),
counted in steps in which the host may act before the completion.  DESIGN CHOICE, log entry 8. -/
opaque completionTime : Nat → Nat

/-- Draw number n: the latches and internal structures after a reset, unspecified (10_state.md R49; 93 I-11).
DESIGN CHOICE, log entry 9. -/
opaque freeEngine : Nat → Machine.Engine

end Sys2Proof.Config
end

