-- ==== Sys2Proof/Syntax.lean ====
section
/-! DEFINITION. The commands of the HTB: one constructor per row of spec/opcode_table.json (30_encoding.md R90 to R93). -/

namespace Sys2Proof

/-- A command of the HTB.  Every command is one 32-bit register write (R90, R95): the `CTRL-W` rows are writes of
CTRL (offset 0x08), the `STATUS-W` rows are writes of STATUS (offset 0x0C).  A command carries no immediate (R94):
what a CTRL write carries is the interrupt enable `ie` = bit 8, which every CTRL write with SRST = 0 stores, and, for
`ieWrite`, the code `op` = bits [7:4] that it stores without starting anything.  The bits the spec says are ignored
(R90, R93) are no part of a command (DEDUCED, log entry 21). -/
inductive Instr where
  /-- OP 0x0, R137. -/
  | nop (ie : Bool)
  /-- OP 0x1, R152. -/
  | count (ie : Bool)
  /-- OP 0x2, R172. -/
  | build (ie : Bool)
  /-- OP 0x3, R194. -/
  | pack (ie : Bool)
  /-- OP 0x4, R195. -/
  | unpack (ie : Bool)
  /-- OP 0x5, R211. -/
  | compress (ie : Bool)
  /-- OP 0x6, R215. -/
  | decompress (ie : Bool)
  /-- OP 0x7, R138. -/
  | reservedOp7 (ie : Bool)
  /-- OP 0x8, R138. -/
  | reservedOp8 (ie : Bool)
  /-- OP 0x9, R138. -/
  | reservedOp9 (ie : Bool)
  /-- OP 0xA, R138. -/
  | reservedOpA (ie : Bool)
  /-- OP 0xB, R138. -/
  | reservedOpB (ie : Bool)
  /-- OP 0xC, R138. -/
  | reservedOpC (ie : Bool)
  /-- OP 0xD, R138. -/
  | reservedOpD (ie : Bool)
  /-- OP 0xE, R138. -/
  | reservedOpE (ie : Bool)
  /-- OP 0xF, R138. -/
  | reservedOpF (ie : Bool)
  /-- A CTRL write with START = 0 and SRST = 0: R242, R93. -/
  | ieWrite (op : Nat) (ie : Bool)
  /-- A CTRL write with SRST = 1: R240. -/
  | srst
  /-- A STATUS write with bit 1 = 1: R241. -/
  | ack
  /-- A STATUS write with bit 1 = 0: R241. -/
  | statusWriteNop
deriving DecidableEq, Repr

end Sys2Proof
end

