-- ==== Sys2Proof/WellFormed.lean ====
section
/-! DEFINITION. Which commands and which register-window accesses are well formed (30_encoding.md R90, 20_memory.md R61). -/

namespace Sys2Proof

/-- A command whose operands fit the fields of its encoding: the OP field has four bits (R90, bits [7:4]). -/
def Instr.wellFormed : Instr → Bool
  | .ieWrite op _ => decide (op < 16)
  | .nop _ | .count _ | .build _ | .pack _ | .unpack _ | .compress _ | .decompress _
  | .reservedOp7 _ | .reservedOp8 _ | .reservedOp9 _ | .reservedOpA _ | .reservedOpB _ | .reservedOpC _
  | .reservedOpD _ | .reservedOpE _ | .reservedOpF _ | .srst | .ack | .statusWriteNop => true

/-- The accesses R61 defines: 32 bits wide (four bytes), at an offset that is a multiple of 4, inside the 256-byte
window (R60).  `size` is in bytes, `off` is the byte offset from HTB_BASE. -/
def accessWellFormed (size off : Nat) : Bool :=
  decide (size = 4) && decide (off % 4 = 0) && decide (off < 256)

end Sys2Proof
end

