-- ==== Sys2Proof/Decode.lean ====
section
/-! DEFINITION. The command decoder (30_encoding.md R90 to R92), total on every register write and rejecting by name,
and the encoder, written from the same tables. -/

namespace Sys2Proof

/-- Why a register write is no command. -/
inductive DecodeError where
  /-- The write goes to a register other than CTRL and STATUS (R90: only those two carry commands). -/
  | notACommandRegister (off : Nat)
deriving DecidableEq, Repr

/-- Offset of CTRL (10_state.md R23). -/
def ctrlOffset : Nat := 0x08

/-- Offset of STATUS (10_state.md R23). -/
def statusOffset : Nat := 0x0C

/-- CTRL[0], START (R90). -/
def ctrlStart (w : Word) : Bool := w.getLsbD 0

/-- CTRL[7:4], OP (R90). -/
def ctrlOpField (w : Word) : BitVec 4 := w.extractLsb' 4 4

/-- CTRL[8], IE (R90). -/
def ctrlIeBit (w : Word) : Bool := w.getLsbD 8

/-- CTRL[31], SRST (R90). -/
def ctrlSrst (w : Word) : Bool := w.getLsbD 31

/-- STATUS[1], the only decoded bit of a STATUS write (R90). -/
def statusAckBit (w : Word) : Bool := w.getLsbD 1

/-- The operation that OP names (R92).  The code is below 16, so the last row is 0xF. -/
def startCommand (op : BitVec 4) (ie : Bool) : Instr :=
  match op.toNat with
  | 0x0 => .nop ie
  | 0x1 => .count ie
  | 0x2 => .build ie
  | 0x3 => .pack ie
  | 0x4 => .unpack ie
  | 0x5 => .compress ie
  | 0x6 => .decompress ie
  | 0x7 => .reservedOp7 ie
  | 0x8 => .reservedOp8 ie
  | 0x9 => .reservedOp9 ie
  | 0xA => .reservedOpA ie
  | 0xB => .reservedOpB ie
  | 0xC => .reservedOpC ie
  | 0xD => .reservedOpD ie
  | 0xE => .reservedOpE ie
  | _ => .reservedOpF ie

/-- The steps of R91, in order: SRST wins over everything else in the word, then START. -/
def decodeCtrl (w : Word) : Instr :=
  if ctrlSrst w then .srst
  else if ctrlStart w then startCommand (ctrlOpField w) (ctrlIeBit w)
  else .ieWrite (ctrlOpField w).toNat (ctrlIeBit w)

/-- A STATUS write: only bit 1 is decoded (R90, R241). -/
def decodeStatus (w : Word) : Instr :=
  if statusAckBit w then .ack else .statusWriteNop

/-- The command that a register write (offset from HTB_BASE, 32-bit word) is (R90). -/
def decode (off : Nat) (w : Word) : Except DecodeError Instr :=
  if off = ctrlOffset then .ok (decodeCtrl w)
  else if off = statusOffset then .ok (decodeStatus w)
  else .error (.notACommandRegister off)

/-- A CTRL word with SRST = 0 and every ignored bit 0 (R90). -/
def ctrlWord (start : Bool) (op : Nat) (ie : Bool) : Word :=
  BitVec.ofNat 32 (start.toNat + 16 * op + 256 * ie.toNat)

/-- The register write that a command is: the register's offset and the word, ignored bits 0 (R90, R92, R97). -/
def encode : Instr → Nat × Word
  | .nop ie => (ctrlOffset, ctrlWord true 0x0 ie)
  | .count ie => (ctrlOffset, ctrlWord true 0x1 ie)
  | .build ie => (ctrlOffset, ctrlWord true 0x2 ie)
  | .pack ie => (ctrlOffset, ctrlWord true 0x3 ie)
  | .unpack ie => (ctrlOffset, ctrlWord true 0x4 ie)
  | .compress ie => (ctrlOffset, ctrlWord true 0x5 ie)
  | .decompress ie => (ctrlOffset, ctrlWord true 0x6 ie)
  | .reservedOp7 ie => (ctrlOffset, ctrlWord true 0x7 ie)
  | .reservedOp8 ie => (ctrlOffset, ctrlWord true 0x8 ie)
  | .reservedOp9 ie => (ctrlOffset, ctrlWord true 0x9 ie)
  | .reservedOpA ie => (ctrlOffset, ctrlWord true 0xA ie)
  | .reservedOpB ie => (ctrlOffset, ctrlWord true 0xB ie)
  | .reservedOpC ie => (ctrlOffset, ctrlWord true 0xC ie)
  | .reservedOpD ie => (ctrlOffset, ctrlWord true 0xD ie)
  | .reservedOpE ie => (ctrlOffset, ctrlWord true 0xE ie)
  | .reservedOpF ie => (ctrlOffset, ctrlWord true 0xF ie)
  | .ieWrite op ie => (ctrlOffset, ctrlWord false op ie)
  | .srst => (ctrlOffset, 0x80000000#32)
  | .ack => (statusOffset, 0x00000002#32)
  | .statusWriteNop => (statusOffset, 0x00000000#32)

/-- `mask` and `match` of the command's row in spec/opcode_table.json, written from R90 and R91. -/
def tableRow : Instr → Word × Word
  | .nop _ => (0x800000F1#32, 0x00000001#32)
  | .count _ => (0x800000F1#32, 0x00000011#32)
  | .build _ => (0x800000F1#32, 0x00000021#32)
  | .pack _ => (0x800000F1#32, 0x00000031#32)
  | .unpack _ => (0x800000F1#32, 0x00000041#32)
  | .compress _ => (0x800000F1#32, 0x00000051#32)
  | .decompress _ => (0x800000F1#32, 0x00000061#32)
  | .reservedOp7 _ => (0x800000F1#32, 0x00000071#32)
  | .reservedOp8 _ => (0x800000F1#32, 0x00000081#32)
  | .reservedOp9 _ => (0x800000F1#32, 0x00000091#32)
  | .reservedOpA _ => (0x800000F1#32, 0x000000A1#32)
  | .reservedOpB _ => (0x800000F1#32, 0x000000B1#32)
  | .reservedOpC _ => (0x800000F1#32, 0x000000C1#32)
  | .reservedOpD _ => (0x800000F1#32, 0x000000D1#32)
  | .reservedOpE _ => (0x800000F1#32, 0x000000E1#32)
  | .reservedOpF _ => (0x800000F1#32, 0x000000F1#32)
  | .ieWrite _ _ => (0x80000001#32, 0x00000000#32)
  | .srst => (0x80000000#32, 0x80000000#32)
  | .ack => (0x00000002#32, 0x00000002#32)
  | .statusWriteNop => (0x00000002#32, 0x00000000#32)

/-- Which register a bare word of the opcode table is written to.  DESIGN CHOICE (log entry 1): the table gives a word
without its register, and the words 0x0 and 0x2 fit a CTRL-W row and a STATUS-W row; those two are the STATUS-W
words here, every other word is a CTRL-W word. -/
def tableRegister (w : Nat) : Nat :=
  if w = 0x0 ∨ w = 0x2 then statusOffset else ctrlOffset

/-- The command the decoder reads from a word of spec/opcode_table.json (bit 0 the least significant, bits above
`nbits` zero).  Every command is one 32-bit word (R95), so a wider number is refused. -/
def decodeTableWord (nbits w : Nat) : Option Instr :=
  if nbits ≤ 32 ∧ w < dmaSize then
    match decode (tableRegister w) (BitVec.ofNat 32 w) with
    | .ok i => some i
    | .error _ => none
  else none

end Sys2Proof
end

