-- ==== Sys2Proof/Machine/State.lean ====
section
/-! DEFINITION. The machine's state, all of it plain data, with the state after reset, the faults and the refusals
(10_state.md R20 to R50). -/

namespace Sys2Proof.Machine

/-- The DMA space's bytes (20_memory.md R60, R82): address and byte, in the canonical form of `Memory.wf`. -/
abbrev Memory := List Host.Cell

/-- The machine.  ID and VERSION are constants and stand in the register read (R22); STATUS.BUSY, STATUS.ERR and irq
are computed from the fields they are defined by (R21, R26, R37). -/
structure State where
  /-- CTRL[7:4], OP (R25). -/
  ctrlOp : BitVec 4
  /-- CTRL[8], IE (R25). -/
  ctrlIe : Bool
  /-- STATUS[1], DONE (R26). -/
  done : Bool
  /-- STATUS[15:8], ERRCODE (R26, R260). -/
  errcode : Byte
  /-- R27. -/
  srcAddr : Word
  /-- R28. -/
  srcLen : Word
  /-- R29. -/
  dstAddr : Word
  /-- R30. -/
  dstCap : Word
  /-- R31. -/
  outLen : Word
  /-- PAD[3:0] (R32). -/
  pad : BitVec 4
  /-- R33. -/
  bitlen : Word
  /-- NSYM[7:0] (R34). -/
  nsym : Byte
  /-- R35. -/
  errinfo : Word
  /-- R21, R39. -/
  phase : Phase
  /-- The latches and the internal structures (R38, R40 to R47). -/
  engine : Engine
  /-- The DMA space (R60, R82). -/
  mem : Memory
  /-- The platform's parameters (R6). -/
  platform : Platform
  /-- The model's own: steps left in which the host may act before the operation in progress completes. -/
  wait : Nat
  /-- The model's own: the number of free values drawn so far. -/
  draws : Nat
  /-- The host's accesses still to come, the next one first. -/
  script : List HostAction
  /-- The value of the host's last register read (`rd ... -> v` of R96). -/
  rdata : Word
  /-- The value of the host's last read of the DMA space. -/
  mdata : Byte
deriving DecidableEq, Repr

/-- Why the machine stops with a fault. -/
inductive Fault where
  /-- The engine would write past address 2^32 - 1, which no address names (R60, R63).  Raised by completion; R134
  excludes it for every operation that START began.  Safe: it stops where the spec has no behaviour. -/
  | outsideDmaSpace
deriving DecidableEq, Repr

/-- Why the model refuses a step. -/
inductive Refusal where
  /-- An instruction without a meaning yet; raised by `exec` only.  Safe. -/
  | notModelled (mnemonic : String)
  /-- A register access that is not 32 bits wide or not 4-byte aligned: UNSPECIFIED, "A model refuses such an access"
  (R61; 93 I-1, I-16).  Raised by the host's register accesses.  Safe. -/
  | undefinedRegisterAccess (size off : Nat)
  /-- A register access outside the 256-byte window, which the HTB does not decode (R23, R60).  Raised by the host's
  register accesses.  Safe. -/
  | outsideRegisterWindow (addr : Word)
  /-- The source or the destination region touches addresses with read or write side effects: UNSPECIFIED, "a model
  refuses it" (R66; 93 I-6).  Raised by an accepted START.  Safe. -/
  | sideEffectRegion
  /-- A host access to such an address, which belongs to a device the spec does not describe (R66).  Raised by the
  host's memory accesses.  Safe. -/
  | sideEffectAddress (a : Word)
  /-- A host write to the source or destination region while RUN: UNSPECIFIED, "a model refuses the run" (R75, R296;
  93 I-7).  Raised by the host's memory writes.  Safe. -/
  | ownedByEngine (a : Word)
deriving DecidableEq, Repr

/-- The internal state of `State.reset`.  The spec leaves all of it unspecified (R49): DESIGN CHOICE, log entry 2. -/
def Engine.reset : Engine where
  op := 0
  src := 0
  slen := 0
  dst := 0
  cap := 0
  pin := 0
  snap := []
  freq := List.replicate 256 0
  tbl := []
  k := 0
  arena := []
  root := 0
  pq := []
  code := List.replicate 256 none
  acc := 0
  fill := 0
  len := 0
  cur := 0
  clen := 0
  dead := false
  result := .ok { out := [] }

/-- The machine right after reset (R49, R290): every host-visible register 0, phase IDLE.  The engine, the platform's
parameters, the contents of memory, the host's side and the model's own counters are log entries 2, 3, 4 and 5. -/
def State.reset : State where
  ctrlOp := 0
  ctrlIe := false
  done := false
  errcode := 0
  srcAddr := 0
  srcLen := 0
  dstAddr := 0
  dstCap := 0
  outLen := 0
  pad := 0
  bitlen := 0
  nsym := 0
  errinfo := 0
  phase := .idle
  engine := Engine.reset
  mem := []
  platform := { htbBase := 0, unreadable := [], unwritable := [], sideEffect := [] }
  wait := 0
  draws := 0
  script := []
  rdata := 0
  mdata := 0

end Sys2Proof.Machine
end

