-- ==== Sys2Proof/Machine/Flags.lean ====
section
/-! DEFINITION. The status flags, the error codes and the interrupt output, each computed from the state it is defined
by (10_state.md R25, R26, R37, R50; 60_exceptions.md R260, R266). -/

namespace Sys2Proof.Machine

/-- The codes of R260. -/
def errCode : ErrKind → Byte
  | .inputUnavailable => 0x01
  | .frequencyOverflow => 0x02
  | .malformedContainer => 0x03
  | .unknownCodeAtEndOfStream => 0x04
  | .symbolCountOverflow => 0x05
  | .outputOverflow => 0x06
  | .outputUnavailable => 0x07
  | .illegalOp => 0x08
  | .badRegion => 0x09
  | .invalidBit => 0x0A

/-- STATUS.BUSY = (phase = RUN) (R21). -/
def statusBusy (s : State) : Bool := decide (s.phase = .run)

/-- STATUS.ERR "always reads (ERRCODE != 0)" (R26). -/
def statusErr (s : State) : Bool := decide (s.errcode ≠ 0)

/-- The word STATUS reads as; bits [7:3] and [31:16] read 0 (R26). -/
def statusWord (s : State) : Word :=
  BitVec.ofNat 32 ((statusBusy s).toNat + 2 * s.done.toNat + 4 * (statusErr s).toNat + 256 * s.errcode.toNat)

/-- The word CTRL reads as; START, SRST and the reserved bits read 0 (R25). -/
def ctrlReadWord (s : State) : Word :=
  BitVec.ofNat 32 (16 * s.ctrlOp.toNat + 256 * s.ctrlIe.toNat)

/-- irq = STATUS.DONE and CTRL.IE at every instant (R37, R266). -/
def irq (s : State) : Bool := s.done && s.ctrlIe

end Sys2Proof.Machine
end

