-- ==== Sys2Proof/Machine/Operands.lean ====
section
/-! DEFINITION. The operands of an operation: the latches of an accepted START (10_state.md R38, 30_encoding.md R94), the
two regions they name, and the platform's predicates over addresses (00_scope.md R6, 40_dispatch.md R133, R134). -/

namespace Sys2Proof.Machine

/-- Whether a range holds an address. -/
def AddrRange.covers (r : AddrRange) (a : Nat) : Bool := decide (r.lo ≤ a) && decide (a < r.hi)

/-- `readable(a)` (R64). -/
def readable (p : Platform) (a : Nat) : Bool := !(p.unreadable.any fun r => r.covers a)

/-- `writable(a)` (R65). -/
def writable (p : Platform) (a : Nat) : Bool := !(p.unwritable.any fun r => r.covers a)

/-- An address with read or write side effects (R66). -/
def hasSideEffect (p : Platform) (a : Nat) : Bool := p.sideEffect.any fun r => r.covers a

/-- Whether address a is one of the `n` bytes from `base`. -/
def inRegion (base n a : Nat) : Bool := decide (base ≤ a) && decide (a < base + n)

/-- The bytes of [base, base+n), in ascending order. -/
def regionAddrs (base n : Nat) : List Nat := (List.range n).map fun i => base + i

/-- The lowest address of [base, base+n) that a predicate picks (`min U` of R133, `min W` of R135). -/
def lowestAddr (p : Nat → Bool) (base n : Nat) : Option Nat := (regionAddrs base n).find? p

/-- The latches an accepted START copies from the parameter registers (R38, R131); `o` is OP in the START write. -/
def latchOperands (o : BitVec 4) (s : State) : Engine :=
  { s.engine with
    op := o, src := s.srcAddr, slen := s.srcLen, dst := s.dstAddr, cap := s.dstCap, pin := s.pad }

/-- `info` of the region check (R134), on sums that do not wrap. -/
def regionInfo (src slen dst cap : Nat) : Nat :=
  (if src + slen > dmaSize then 0x1 else 0) |||
  (if dst + cap > dmaSize then 0x2 else 0) |||
  (if slen > 0 ∧ cap > 0 ∧ src < dst + cap ∧ dst < src + slen then 0x4 else 0)

/-- Whether a range shares an address with [base, base+n). -/
def AddrRange.meets (r : AddrRange) (base n : Nat) : Bool :=
  decide (max r.lo base < min r.hi (base + n))

/-- Whether the source or the destination region lies on an address with side effects (R66).  DEDUCED, log entry 11. -/
def regionsTouchSideEffects (p : Platform) (e : Engine) : Bool :=
  p.sideEffect.any fun r => r.meets e.src.toNat e.slen.toNat || r.meets e.dst.toNat e.cap.toNat

/-- Whether address a lies in the source or the destination region of the operation in progress, whichever it is (R75).
DEDUCED, log entry 13. -/
def ownedAddr (e : Engine) (a : Nat) : Bool :=
  inRegion e.src.toNat e.slen.toNat a || inRegion e.dst.toNat e.cap.toNat a

end Sys2Proof.Machine
end

