-- ==== Sys2Proof/Machine/Ops.lean ====
section
/-! DEFINITION. The named operations over memory and registers, and the frame every operation shares: acceptance of
START, the region check and the snapshot, the writes, success completion, error completion and reset (20_memory.md,
40_dispatch.md, 45_control.md). -/

namespace Sys2Proof.Machine

/-! ### Memory -/

/-- What an unlisted address reads as.  The spec gives memory no reset contents: DESIGN CHOICE, log entry 4. -/
def unlistedByte : Byte := 0

/-- The canonical form: addresses strictly rising, all inside the DMA space, no byte equal to `unlistedByte`. -/
abbrev Memory.wf (m : Memory) : Prop :=
  m.Pairwise (fun x y => x.1 < y.1) ∧ ∀ c ∈ m, c.1 < dmaSize ∧ c.2 ≠ unlistedByte

/-- The byte at an address: `MemRead(a, 1)` where `readable(a)` holds (R64, R82). -/
def Memory.read : Memory → Nat → Byte
  | [], _ => unlistedByte
  | (b, v) :: rest, a => if a = b then v else Memory.read rest a

/-- A cell, unless it holds what an unlisted address reads as. -/
def Memory.cell (a : Nat) (v : Byte) (rest : Memory) : Memory :=
  if v = unlistedByte then rest else (a, v) :: rest

/-- Memory with the byte at one address replaced, in canonical form: `MemWrite(a, 1, v)` where `writable(a)` holds
(R65). -/
def Memory.write : Memory → Nat → Byte → Memory
  | [], a, v => Memory.cell a v []
  | (b, w) :: rest, a, v =>
    if a < b then Memory.cell a v ((b, w) :: rest)
    else if a = b then Memory.cell a v rest
    else (b, w) :: Memory.write rest a v

/-- Bytes stored at ascending addresses from a (R68, R135). -/
def Memory.writeBytes : Memory → Nat → Bytes → Memory
  | m, _, [] => m
  | m, a, v :: vs => Memory.writeBytes (Memory.write m a v) (a + 1) vs

/-- The bytes of [a, a+n) (R133). -/
def Memory.readBytes (m : Memory) (a n : Nat) : Bytes := (regionAddrs a n).map (Memory.read m)

/-- Each byte of [a, a+n) holding any value: draw number `d` (R69). -/
def Memory.scramble (m : Memory) (d a n : Nat) : Memory :=
  Memory.writeBytes m a ((regionAddrs a n).map (Config.freeByte d))

/-! ### The register window (10_state.md R22 to R36) -/

/-- The value a register read returns.  Reads have no side effect; a reserved offset reads 0 (R23, R24). -/
def readReg (s : State) (off : Nat) : Word :=
  match off with
  | 0x00 => 0x48554646#32
  | 0x04 => 0x00000001#32
  | 0x08 => ctrlReadWord s
  | 0x0C => statusWord s
  | 0x10 => s.srcAddr
  | 0x14 => s.srcLen
  | 0x18 => s.dstAddr
  | 0x1C => s.dstCap
  | 0x20 => s.outLen
  | 0x24 => s.pad.setWidth 32
  | 0x28 => s.bitlen
  | 0x2C => s.nsym.setWidth 32
  | 0x30 => s.errinfo
  | _ => 0

/-- A write of a parameter register while IDLE; any other offset is read-only, reserved or a command register, and
this write changes nothing there (R22, R24, R27 to R30, R32). -/
def writeParam (off : Nat) (v : Word) (s : State) : State :=
  match off with
  | 0x10 => { s with srcAddr := v }
  | 0x14 => { s with srcLen := v }
  | 0x18 => { s with dstAddr := v }
  | 0x1C => { s with dstCap := v }
  | 0x24 => { s with pad := v.setWidth 4 }
  | _ => s

/-- A register write that is no command: the parameter registers take it while IDLE and ignore it while RUN (R36,
R295). -/
def writeReg (off : Nat) (v : Word) (s : State) : State :=
  match s.phase with
  | .idle => writeParam off v s
  | .run => s

/-- `R.CTRL.IE <- w[8]` (R242). -/
def setIe (ie : Bool) (s : State) : State := { s with ctrlIe := ie }

/-- A CTRL write with START = 0 and SRST = 0 while IDLE: OP and IE (R91). -/
def setOpIe (o : BitVec 4) (ie : Bool) (s : State) : State := { s with ctrlOp := o, ctrlIe := ie }

/-- `R.STATUS.DONE <- 0` (R241). -/
def clearDone (s : State) : State := { s with done := false }

/-! ### Reset -/

/-- Hardware reset and SRST (R240, R290, R292): every register at its value in R49; the latches and the internal
structures hold any value (93 I-11), and so does each byte of [dst, dst+cap) when an operation is abandoned (R69).
Addresses from 2^32 on do not exist, so a region that would wrap is cut there (DEDUCED, log entry 10). -/
def resetDevice (s : State) : State :=
  { State.reset with
    engine := Config.freeEngine s.draws
    mem := match s.phase with
      | .idle => s.mem
      | .run => Memory.scramble s.mem s.draws s.engine.dst.toNat (min s.engine.cap.toNat (dmaSize - s.engine.dst.toNat))
    platform := s.platform
    draws := s.draws + 1
    script := s.script
    rdata := s.rdata
    mdata := s.mdata }

/-! ### Acceptance, READ and COMPUTE -/

/-- START acceptance, one atomic step (R131).  The completion time is a free value (R301). -/
def acceptStart (o : BitVec 4) (ie : Bool) (s : State) : State :=
  { s with
    ctrlOp := o
    ctrlIe := ie
    engine := latchOperands o s
    phase := .run
    done := false
    errcode := 0
    outLen := 0
    bitlen := 0
    nsym := 0
    errinfo := 0
    wait := Config.completionTime s.draws
    draws := s.draws + 1 }

/-- The operation in progress will complete with this outcome. -/
def setResult (r : OpResult) (s : State) : State := { s with engine := { s.engine with result := r } }

/-- The region check, before any memory access (R134). -/
def regionCheck (e : Engine) : Option OpError :=
  match regionInfo e.src.toNat e.slen.toNat e.dst.toNat e.cap.toNat with
  | 0 => none
  | info => some ⟨.badRegion, info⟩

/-- The snapshot of the whole source region (R133). -/
def snapshot (p : Platform) (m : Memory) (e : Engine) : Except OpError Bytes :=
  match lowestAddr (fun a => !readable p a) e.src.toNat e.slen.toNat with
  | some a => .error ⟨.inputUnavailable, a⟩
  | none => .ok (Memory.readBytes m e.src.toNat e.slen.toNat)

/-- An operation's own function, on the snapshot and `pin` (R132). -/
abbrev Compute := Bytes → BitVec 4 → Except OpError OpOk

/-- What an operation's units leave in the internal structures (R41 to R47), from the snapshot and `pin`.  The values
after an operation are DESIGN CHOICE, log entry 14. -/
abbrev Units := Bytes → BitVec 4 → Engine → Engine

/-- The outcome of COMPUTE as State holds it. -/
def toResult : Except OpError OpOk → OpResult
  | .error e => .raised e
  | .ok r => .ok r

/-- READ and COMPUTE of an accepted operation that touches memory (R130, R132), on the state after acceptance.  The
snapshot is the memory at the accepted START (R73), and what is computed waits for completion (R76; DEDUCED, log entry
7). -/
def readAndCompute (compute : Compute) (units : Units) (s : State) : Host.Outcome State Fault Refusal :=
  match regionCheck s.engine with
  | some e => .next (setResult (.raised e) s)
  | none =>
    if regionsTouchSideEffects s.platform s.engine then .refused .sideEffectRegion
    else match snapshot s.platform s.mem s.engine with
      | .error e => .next (setResult (.raised e) s)
      | .ok S =>
        .next (setResult (toResult (compute S s.engine.pin))
          { s with engine := units S s.engine.pin { s.engine with snap := S } })

/-- A START write whose operation reads and writes memory: accepted while IDLE (R131), dropped but for IE while RUN
(R243). -/
def startOperation (o : BitVec 4) (compute : Compute) (units : Units) (ie : Bool) (s : State) :
    Host.Outcome State Fault Refusal :=
  match s.phase with
  | .run => .next (setIe ie s)
  | .idle => readAndCompute compute units (acceptStart o ie s)

/-- A START write whose operation skips READ, COMPUTE and WRITE: NOP and the reserved OP values (R130, R137, R138). -/
def startWithoutMemory (o : BitVec 4) (r : OpResult) (ie : Bool) (s : State) : Host.Outcome State Fault Refusal :=
  match s.phase with
  | .run => .next (setIe ie s)
  | .idle => .next (setResult r (acceptStart o ie s))

/-! ### WRITE and completion -/

/-- Error completion, one atomic step (R136, R139, R264): the HTB's way of taking an exception.  PAD keeps its value. -/
def completeError (e : OpError) (s : State) : State :=
  { s with
    errcode := errCode e.kind
    errinfo := BitVec.ofNat 32 e.info
    outLen := 0
    bitlen := 0
    nsym := 0
    phase := .idle
    done := true }

/-- Success completion, one atomic step (R135, R139, R140).  ERRCODE and ERRINFO stay as START left them. -/
def completeSuccess (r : OpOk) (s : State) : State :=
  { s with
    outLen := BitVec.ofNat 32 r.out.length
    pad := r.pad.getD s.pad
    bitlen := BitVec.ofNat 32 r.bitlen
    nsym := BitVec.ofNat 8 r.nsym
    phase := .idle
    done := true }

/-- `write_out` and completion (R135): the capacity check, the bus check, then the writes.  After OUTPUT_UNAVAILABLE
each byte of [dst, dst+T) holds any value (R69).  The fault is DESIGN CHOICE, log entry 17. -/
def writeOut (r : OpOk) (s : State) : Host.Outcome State Fault Refusal :=
  let dst := s.engine.dst.toNat
  let T := r.out.length
  if T > s.engine.cap.toNat then .next (completeError ⟨.outputOverflow, T⟩ s)
  else if dst + T > dmaSize then .fault .outsideDmaSpace
  else match lowestAddr (fun a => !writable s.platform a) dst T with
    | some a =>
      .next (completeError ⟨.outputUnavailable, a⟩
        { s with mem := Memory.scramble s.mem s.draws dst T, draws := s.draws + 1 })
    | none => .next (completeSuccess r { s with mem := Memory.writeBytes s.mem dst r.out })

/-- The completion of the operation in progress (R130 steps 4 and 5, R139). -/
def completeOperation (s : State) : Host.Outcome State Fault Refusal :=
  match s.engine.result with
  | .raised e => .next (completeError e s)
  | .ok r => writeOut r s

end Sys2Proof.Machine
end

