-- ==== Sys2Proof/Machine/BitPack.lean ====
section
/-! DEFINITION. The bit packer and unpacker, PACK and UNPACK (43_bitpack.md). -/

namespace Sys2Proof.Machine

/-- P = (8 - L mod 8) mod 8 (R191). -/
def padCount (L : Nat) : Nat := (8 - L % 8) % 8

/-- `repeat(0, P)` appended after the real bits (R190). -/
def padded (b : Bits) : Bits := b ++ List.replicate (padCount b.length) false

/-- The byte whose bit 7 - k is bit k of a group of eight (R190). -/
def byteOfBits (g : Bits) : Byte := BitVec.ofNat 8 (g.foldl (fun n b => 2 * n + b.toNat) 0)

/-- The bytes of a bit sequence whose length is a multiple of eight, eight bits to a byte (R190). -/
def packBytes : Bits → Bytes
  | b0 :: b1 :: b2 :: b3 :: b4 :: b5 :: b6 :: b7 :: rest =>
    byteOfBits [b0, b1, b2, b3, b4, b5, b6, b7] :: packBytes rest
  | _ => []

/-- `pack(b)`: the bytes and the padding count (R190). -/
def pack (b : Bits) : Bytes × Nat := (packBytes (padded b), padCount b.length)

/-- `[B[j][7-k] for k in 0..7]`, most significant bit first (R192). -/
def bitsOfByte (x : Byte) : Bits := (List.range 8).map fun k => x.getLsbD (7 - k)

/-- `unpack(B, P)`: all bits but the last P (R192). -/
def unpack (B : Bytes) (P : Nat) : Bits := (B.flatMap bitsOfByte).take (8 * B.length - P)

/-- The bits of a bit vector, one byte each (30_encoding.md R104). -/
def bitsOfVector (S : Bytes) : Bits := S.map fun x => decide (x = 1)

/-- The bit vector of a bit sequence, 0x00 or 0x01 a bit (30_encoding.md R104). -/
def vectorOfBits (b : Bits) : Bytes := b.map fun x => if x then 1 else 0

/-- `pack_op(S)` (R194): INVALID_BIT at the first offending offset, or the packed bytes. -/
def packOp (S : Bytes) (_pin : BitVec 4) : Except OpError OpOk :=
  match S.findIdx? (fun x => decide (x.toNat > 1)) with
  | some i => .error ⟨.invalidBit, i⟩
  | none =>
    .ok { out := (pack (bitsOfVector S)).1,
          pad := some (BitVec.ofNat 4 (pack (bitsOfVector S)).2), bitlen := S.length }

/-- `unpack_op(S, pin)` (R195). -/
def unpackOp (S : Bytes) (pin : BitVec 4) : Except OpError OpOk :=
  if pin.toNat > 7 then .error ⟨.malformedContainer, pin.toNat⟩
  else if S.length = 0 ∧ pin ≠ 0 then .error ⟨.malformedContainer, pin.toNat⟩
  else .ok { out := vectorOfBits (unpack S pin.toNat), bitlen := (unpack S pin.toNat).length }

/-! ### The packer as a machine (10_state.md R46) -/

/-- The cleared packer (R48). -/
def packerInit : Packer := { acc := 0, fill := 0, len := 0, out := [] }

/-- One bit shifted into ACC; the eighth bit of a byte empties it. -/
def packerPush (p : Packer) (b : Bool) : Packer :=
  let acc := (p.acc <<< 1) ||| (if b then 1#8 else 0#8)
  if p.fill = 7 then { acc := 0, fill := 0, len := p.len + 1, out := p.out ++ [acc] }
  else { p with acc := acc, fill := p.fill + 1, len := p.len + 1 }

/-- The packer after a bit sequence. -/
def packerRun (b : Bits) : Packer := b.foldl packerPush packerInit

/-- The bytes emitted once the last byte is filled with zero bits (R190). -/
def packerFlush (p : Packer) : Bytes :=
  if p.fill = 0 then p.out else p.out ++ [p.acc <<< (8 - p.fill)]

/-- ACC, FILL and L after a bit sequence went through the packer (R46). -/
def loadPacker (b : Bits) (e : Engine) : Engine :=
  { e with acc := (packerRun b).acc, fill := (packerRun b).fill, len := (packerRun b).len }

/-- ACC and FILL cleared and L the number of bits unpacked (R46, R48). -/
def loadUnpacker (b : Bits) (e : Engine) : Engine := { e with acc := 0, fill := 0, len := b.length }

/-- What PACK leaves in the packer's registers: the bits before the first invalid one went through it (R46). -/
def packUnits (S : Bytes) (_pin : BitVec 4) (e : Engine) : Engine :=
  loadPacker (bitsOfVector (S.takeWhile fun x => decide (x.toNat ≤ 1))) e

/-- What UNPACK leaves in the packer's registers (R46). -/
def unpackUnits (S : Bytes) (pin : BitVec 4) (e : Engine) : Engine :=
  match unpackOp S pin with
  | .error _ => loadUnpacker [] e
  | .ok _ => loadUnpacker (unpack S pin.toNat) e

/-- PACK (R194). -/
def execPack (ie : Bool) (s : State) : Host.Outcome State Fault Refusal :=
  startOperation 0x3 packOp packUnits ie s

/-- UNPACK (R195). -/
def execUnpack (ie : Bool) (s : State) : Host.Outcome State Fault Refusal :=
  startOperation 0x4 unpackOp unpackUnits ie s

end Sys2Proof.Machine
end

