-- ==== Sys2Proof/Machine/Counter.lean ====
section
/-! DEFINITION. The frequency counter and COUNT (41_count.md). -/

namespace Sys2Proof.Machine

/-- `FREQ[s]`, the occurrences of symbol s in S (R41, R150), not saturated (DEDUCED, log entry 20). -/
def symbolFreq (S : Bytes) (s : Nat) : Nat := S.count (BitVec.ofNat 8 s)

/-- `FREQ[0..255]` (R41). -/
def freqCounters (S : Bytes) : List Nat := (List.range 256).map (symbolFreq S)

/-- The entries of the symbols that occur, in ascending symbol order (R150). -/
def presentEntries (S : Bytes) : Table :=
  (List.range 256).filterMap fun s =>
    if symbolFreq S s ≥ 1 then some ⟨BitVec.ofNat 8 s, symbolFreq S s⟩ else none

/-- `count_table(S)` (R150, R151): the frequency check first, at the lowest such symbol, then the count of symbols. -/
def countTable (S : Bytes) : Except OpError Table :=
  match (List.range 256).find? (fun s => decide (symbolFreq S s > 255)) with
  | some s => .error ⟨.frequencyOverflow, s⟩
  | none =>
    if (presentEntries S).length = 256 then .error ⟨.symbolCountOverflow, 256⟩
    else .ok (presentEntries S)

/-- The entries' bytes, symbol then frequency, in list order (30_encoding.md R105). -/
def entryBytes (T : Table) : Bytes := T.flatMap fun e => [e.sym, BitVec.ofNat 8 e.freq]

/-- The table list's bytes: K, then the entries (30_encoding.md R105). -/
def tableBytes (T : Table) : Bytes := BitVec.ofNat 8 T.length :: entryBytes T

/-- `count_op(S)` (R152). -/
def countOp (S : Bytes) (_pin : BitVec 4) : Except OpError OpOk :=
  match countTable S with
  | .error e => .error e
  | .ok T => .ok { out := tableBytes T, nsym := T.length }

/-- TBL and its count K loaded (R42). -/
def loadTable (T : Table) (e : Engine) : Engine := { e with tbl := T, k := BitVec.ofNat 8 T.length }

/-- FREQ counted, and TBL filled from it where `count_table` succeeds (R41, R42, R48). -/
def countUnits (S : Bytes) (_pin : BitVec 4) (e : Engine) : Engine :=
  match countTable S with
  | .error _ => loadTable [] { e with freq := freqCounters S }
  | .ok T => loadTable T { e with freq := freqCounters S }

/-- COUNT (R152). -/
def execCount (ie : Bool) (s : State) : Host.Outcome State Fault Refusal :=
  startOperation 0x1 countOp countUnits ie s

end Sys2Proof.Machine
end

