-- ==== Sys2Proof/Machine/Tree.lean ====
section
/-! DEFINITION. The table parser, the priority-queue merge, the code-derivation walker, and BUILD (42_tree.md). -/

namespace Sys2Proof.Machine

/-! ### The table list (R160) -/

/-- Entries i, i+1, ... of a table list: `n` of them stand at the head of the bytes, and `seen` holds the symbols
before them (R160).  The last case is excluded by the length check of `parseTable`. -/
def parseEntries (i n : Nat) (bytes seen : Bytes) : Except OpError Table :=
  match n, bytes with
  | 0, _ => .ok []
  | n + 1, s :: f :: rest =>
    if s ∈ seen then .error ⟨.malformedContainer, 1 + 2 * i⟩
    else if f = 0 then .error ⟨.malformedContainer, 2 + 2 * i⟩
    else match parseEntries (i + 1) n rest (s :: seen) with
      | .error e => .error e
      | .ok T => .ok (⟨s, f.toNat⟩ :: T)
  | _ + 1, _ => .error ⟨.malformedContainer, 1 + 2 * i + bytes.length⟩

/-- `parse_table(S)` (R160). -/
def parseTable (S : Bytes) : Except OpError Table :=
  match S with
  | [] => .error ⟨.malformedContainer, 0⟩
  | k :: rest =>
    if k = 0 then .error ⟨.malformedContainer, 0⟩
    else if S.length < 1 + 2 * k.toNat then .error ⟨.malformedContainer, S.length⟩
    else parseEntries 0 k.toNat rest []

/-! ### The merge (R162 to R167) -/

/-- A node's frequency. -/
def nodeFreq : Node → Nat
  | .leaf f _ => f
  | .internal f _ _ => f

/-- `ARENA[i].freq`; 0 where there is no node i, a case the builder never meets (log entry 19). -/
def arenaFreq (A : Arena) (i : Nat) : Nat := ((A[i]?).map nodeFreq).getD 0

/-- The key (ARENA[x].freq, x) of x is below that of y (R164). -/
def keyLess (A : Arena) (x y : Nat) : Bool :=
  decide (arenaFreq A x < arenaFreq A y) || (decide (arenaFreq A x = arenaFreq A y) && decide (x < y))

/-- The index with the smallest key among `best` and a list. -/
def argmin (A : Arena) (best : Nat) : List Nat → Nat
  | [] => best
  | x :: xs => argmin A (if keyLess A x best then x else best) xs

/-- Extraction from the queue: the index with the smallest key, and the queue without it (R164, R165). -/
def extractMin (A : Arena) : List Nat → Option (Nat × List Nat)
  | [] => none
  | x :: xs => some (argmin A x xs, (x :: xs).erase (argmin A x xs))

/-- The merge loop (R165), which stops by itself when fewer than two nodes are queued; `fuel` bounds its turns.  The
first extracted node is the left child (R166), and the new node's index is the arena's length (R162). -/
def mergeLoop (fuel : Nat) (A : Arena) (pq : List Nat) : Arena × List Nat :=
  match fuel with
  | 0 => (A, pq)
  | fuel + 1 =>
    match extractMin A pq with
    | none => (A, pq)
    | some (a, pq1) =>
      match extractMin A pq1 with
      | none => (A, pq)
      | some (b, pq2) =>
        mergeLoop fuel (A ++ [.internal (arenaFreq A a + arenaFreq A b) a b]) (A.length :: pq2)

/-- Leaf i is arena node i (R162). -/
def leaves (T : Table) : Arena := T.map fun e => .leaf e.freq e.sym

/-- The arena and the queue that `build_tree(T)` ends with (R165). -/
def buildRun (T : Table) : Arena × List Nat := mergeLoop T.length (leaves T) (List.range T.length)

/-- `build_tree(T)`: the arena and ROOT, the single element of the queue (R165). -/
def buildTree (T : Table) : Arena × Nat := ((buildRun T).1, (buildRun T).2.headD 0)

/-! ### The walker (R168, R169) -/

/-- `walk(n, path)`, left before right: the leaves reached, each with its path (R168).  A child's index is below its
parent's, so the arena's length bounds the depth. -/
def walk (A : Arena) (fuel n : Nat) (path : Bits) : List (Byte × Bits) :=
  match fuel with
  | 0 => []
  | fuel + 1 =>
    match A[n]? with
    | none => []
    | some (.leaf _ s) => [(s, path)]
    | some (.internal _ l r) => walk A fuel l (path ++ [false]) ++ walk A fuel r (path ++ [true])

/-- CODE with every entry invalid (R168). -/
def noCodes : CodeTable := List.replicate 256 none

/-- The codes recorded in CODE, in order (R168). -/
def recordCodes (L : List (Byte × Bits)) : CodeTable :=
  L.foldl (fun C c => C.set c.1.toNat (some c.2)) noCodes

/-- The symbol of ARENA[i], if that node is a leaf. -/
def leafSym (A : Arena) (i : Nat) : Option Byte :=
  match A[i]? with
  | some (.leaf _ s) => some s
  | _ => none

/-- The leaves with the paths the walker records: for K = 1 the one-bit code "0" (R168, R169). -/
def codeList (A : Arena) (root K : Nat) : List (Byte × Bits) :=
  if K = 1 then (leafSym A 0).toList.map fun s => (s, [false])
  else walk A A.length root []

/-- `derive_codes(ARENA, ROOT, K)` (R168). -/
def deriveCodes (A : Arena) (root K : Nat) : CodeTable := recordCodes (codeList A root K)

/-- `CODE[s].bits` when `CODE[s].valid` (R45). -/
def codeOf (C : CodeTable) (s : Byte) : Option Bits := C.getD s.toNat none

/-- The code table of a table list: a function of the list alone (R170). -/
def codesOf (T : Table) : CodeTable := deriveCodes (buildTree T).1 (buildTree T).2 T.length

/-! ### BUILD (R171, R172) -/

/-- One entry of the code dump: s, len(c), and the packed code (R107, R171). -/
def dumpEntry (C : CodeTable) (s : Byte) : Bytes :=
  let c := (codeOf C s).getD []
  s :: BitVec.ofNat 8 c.length :: (pack c).1

/-- `dump(T, CODE)`, in list order (R171). -/
def dump (T : Table) (C : CodeTable) : Bytes := T.flatMap fun e => dumpEntry C e.sym

/-- `build_op(S)` (R172). -/
def buildOp (S : Bytes) (_pin : BitVec 4) : Except OpError OpOk :=
  match parseTable S with
  | .error e => .error e
  | .ok T => .ok { out := dump T (codesOf T), nsym := T.length }

/-- TBL, ARENA, ROOT, PQ and CODE after the tree of a table list is built and walked (R42 to R45). -/
def loadTree (T : Table) (e : Engine) : Engine :=
  { loadTable T e with
    arena := (buildTree T).1
    root := (buildTree T).2
    pq := (buildRun T).2
    code := codesOf T }

/-- TBL, ARENA, ROOT and PQ emptied and CODE invalidated (R48). -/
def clearTree (e : Engine) : Engine :=
  { loadTable [] e with arena := [], root := 0, pq := [], code := noCodes }

/-- What BUILD leaves in the internal structures (R42 to R45, R48). -/
def buildUnits (S : Bytes) (_pin : BitVec 4) (e : Engine) : Engine :=
  match parseTable S with
  | .error _ => clearTree e
  | .ok T => loadTree T e

/-- BUILD (R172). -/
def execBuild (ie : Bool) (s : State) : Host.Outcome State Fault Refusal :=
  startOperation 0x2 buildOp buildUnits ie s

end Sys2Proof.Machine
end

