-- ==== Sys2Proof/Machine/Codec.lean ====
section
/-! DEFINITION. The codec sequencer, COMPRESS and DECOMPRESS (44_codec.md). -/

namespace Sys2Proof.Machine

/-! ### Compress (R210, R211) -/

/-- The concatenation of the input bytes' codes, in input order (R210). -/
def bitstream (C : CodeTable) (S : Bytes) : Bits := S.flatMap fun x => (codeOf C x).getD []

/-- The bitstream of an input with the table list T (R210). -/
def streamOf (T : Table) (S : Bytes) : Bits := bitstream (codesOf T) S

/-- The container's bytes: the table list, P, the body (30_encoding.md R110). -/
def containerBytes (T : Table) (P : Nat) (body : Bytes) : Bytes := tableBytes T ++ BitVec.ofNat 8 P :: body

/-- The container of an input with the table list T (R210). -/
def containerOf (T : Table) (S : Bytes) : Bytes :=
  containerBytes T (pack (streamOf T S)).2 (pack (streamOf T S)).1

/-- `compress(S)` and `compress_op(S)` (R210, R211); the empty input gives the empty container (R218). -/
def compressOp (S : Bytes) (_pin : BitVec 4) : Except OpError OpOk :=
  if S.length = 0 then .ok { out := [], pad := some 0, bitlen := 0, nsym := 0 }
  else match countTable S with
    | .error e => .error e
    | .ok T =>
      .ok { out := containerOf T S,
            pad := some (BitVec.ofNat 4 (pack (streamOf T S)).2),
            bitlen := (streamOf T S).length,
            nsym := T.length }

/-- What COMPRESS leaves in the internal structures (R41 to R46, R48). -/
def compressUnits (S : Bytes) (pin : BitVec 4) (e : Engine) : Engine :=
  let e1 := countUnits S pin e
  if S.length = 0 then loadPacker [] (clearTree e1)
  else match countTable S with
    | .error _ => loadPacker [] (clearTree e1)
    | .ok T => loadPacker (streamOf T S) (loadTree T e1)

/-- COMPRESS (R211). -/
def execCompress (ie : Bool) (s : State) : Host.Outcome State Fault Refusal :=
  startOperation 0x5 compressOp compressUnits ie s

/-! ### Decompress (R212 to R215) -/

/-- What a container holds: the table list, the padding count, the body (R212). -/
structure Container where
  tbl : Table
  pad : Nat
  body : Bytes
deriving DecidableEq, Repr, Inhabited

/-- `parse_container(S)` (R212). -/
def parseContainer (S : Bytes) : Except OpError Container :=
  match parseTable S with
  | .error e => .error e
  | .ok T =>
    let K := T.length
    match S[1 + 2 * K]? with
    | none => .error ⟨.malformedContainer, S.length⟩
    | some P =>
      let body := S.drop (2 + 2 * K)
      if P.toNat > 7 then .error ⟨.malformedContainer, 1 + 2 * K⟩
      else if body.length = 0 ∧ P ≠ 0 then .error ⟨.malformedContainer, 1 + 2 * K⟩
      else .ok ⟨T, P.toNat, body⟩

/-- The symbol whose valid code is the candidate (R213); the lowest, of which R170 leaves only one. -/
def matchSymbol (C : CodeTable) (cand : Bits) : Option Byte :=
  (C.findIdx? fun c => c == some cand).map (BitVec.ofNat 8)

/-- One turn of the loop of R213, on the output and the candidate. -/
def decodeBit (C : CodeTable) (st : Bytes × Bits) (b : Bool) : Bytes × Bits :=
  match matchSymbol C (st.2 ++ [b]) with
  | some s => (st.1 ++ [s], [])
  | none => (st.1, st.2 ++ [b])

/-- `decode(CODE, bits)` (R213). -/
def decodeBits (C : CodeTable) (bits : Bits) : Except OpError Bytes :=
  let st := bits.foldl (decodeBit C) ([], [])
  if st.2 = [] then .ok st.1 else .error ⟨.unknownCodeAtEndOfStream, st.2.length⟩

/-- The walker before the first bit (R214). -/
def walkerInit (root : Nat) : Walker := { cur := root, candLen := 0, dead := false, out := [] }

/-- The left or the right child of ARENA[cur] (R214); a leaf, which the walk leaves at once, has none. -/
def childOf (A : Arena) (cur : Nat) (b : Bool) : Nat :=
  match A[cur]? with
  | some (.internal _ l r) => if b then r else l
  | _ => cur

/-- One turn of the loop of R214. -/
def walkerStep (A : Arena) (root K : Nat) (w : Walker) (b : Bool) : Walker :=
  if K = 1 then
    if w.dead = false ∧ b = false then { w with candLen := 0, out := w.out ++ (leafSym A 0).toList }
    else { w with candLen := w.candLen + 1, dead := true }
  else
    match leafSym A (childOf A w.cur b) with
    | some s => { w with cur := root, candLen := 0, out := w.out ++ [s] }
    | none => { w with cur := childOf A w.cur b, candLen := w.candLen + 1 }

/-- The walker after a bit sequence (R214). -/
def walkerRun (A : Arena) (root K : Nat) (bits : Bits) : Walker :=
  bits.foldl (walkerStep A root K) (walkerInit root)

/-- `walk_decode(ARENA, ROOT, K, bits)` (R214).  The error is decided on the candidate length itself, as R213 has it, so
its leftover bits may number 2^32 or more; R261 reduces ERRINFO. -/
def walkDecode (A : Arena) (root K : Nat) (bits : Bits) : Except OpError Bytes :=
  let w := walkerRun A root K bits
  if w.candLen = 0 then .ok w.out else .error ⟨.unknownCodeAtEndOfStream, w.candLen⟩

/-- `decompress_op(S)` (R215); the empty container gives the empty output (R218). -/
def decompressOp (S : Bytes) (_pin : BitVec 4) : Except OpError OpOk :=
  if S.length = 0 then .ok { out := [], pad := some 0, bitlen := 0, nsym := 0 }
  else match parseContainer S with
    | .error e => .error e
    | .ok c =>
      match decodeBits (codesOf c.tbl) (unpack c.body c.pad) with
      | .error e => .error e
      | .ok out =>
        .ok { out := out, pad := some (BitVec.ofNat 4 c.pad),
              bitlen := (unpack c.body c.pad).length, nsym := c.tbl.length }

/-- CUR, CLEN and DEAD after a bit sequence was walked (R47, R214).  CLEN has 32 bits and holds the candidate length
mod 2^32: DEDUCED, log entry 23. -/
def loadWalker (w : Walker) (e : Engine) : Engine :=
  { e with cur := w.cur, clen := BitVec.ofNat 32 w.candLen, dead := w.dead }

/-- What DECOMPRESS leaves in the internal structures (R42 to R48). -/
def decompressUnits (S : Bytes) (_pin : BitVec 4) (e : Engine) : Engine :=
  match parseContainer S with
  | .error _ => loadWalker (walkerInit 0) (loadUnpacker [] (clearTree e))
  | .ok c =>
    loadWalker (walkerRun (buildTree c.tbl).1 (buildTree c.tbl).2 c.tbl.length (unpack c.body c.pad))
      (loadUnpacker (unpack c.body c.pad) (loadTree c.tbl e))

/-- DECOMPRESS (R215). -/
def execDecompress (ie : Bool) (s : State) : Host.Outcome State Fault Refusal :=
  startOperation 0x6 decompressOp decompressUnits ie s

end Sys2Proof.Machine
end

