-- ==== Sys2Proof/Machine/Control.lean ====
section
/-! DEFINITION. NOP and the reserved operation codes (40_dispatch.md R137, R138) and the control commands
(45_control.md R240 to R243). -/

namespace Sys2Proof.Machine

/-- `return Ok([], {})` (R137). -/
def nopResult : OpResult := .ok { out := [] }

/-- `raise ILLEGAL_OP(op)` (R138). -/
def illegalOp (o : BitVec 4) : OpResult := .raised ⟨.illegalOp, o.toNat⟩

/-- NOP (R137). -/
def execNop (ie : Bool) (s : State) : Host.Outcome State Fault Refusal :=
  startWithoutMemory 0x0 nopResult ie s

/-- OP 0x7 (R138). -/
def execReservedOp7 (ie : Bool) (s : State) : Host.Outcome State Fault Refusal :=
  startWithoutMemory 0x7 (illegalOp 0x7) ie s

/-- OP 0x8 (R138). -/
def execReservedOp8 (ie : Bool) (s : State) : Host.Outcome State Fault Refusal :=
  startWithoutMemory 0x8 (illegalOp 0x8) ie s

/-- OP 0x9 (R138). -/
def execReservedOp9 (ie : Bool) (s : State) : Host.Outcome State Fault Refusal :=
  startWithoutMemory 0x9 (illegalOp 0x9) ie s

/-- OP 0xA (R138). -/
def execReservedOpA (ie : Bool) (s : State) : Host.Outcome State Fault Refusal :=
  startWithoutMemory 0xA (illegalOp 0xA) ie s

/-- OP 0xB (R138). -/
def execReservedOpB (ie : Bool) (s : State) : Host.Outcome State Fault Refusal :=
  startWithoutMemory 0xB (illegalOp 0xB) ie s

/-- OP 0xC (R138). -/
def execReservedOpC (ie : Bool) (s : State) : Host.Outcome State Fault Refusal :=
  startWithoutMemory 0xC (illegalOp 0xC) ie s

/-- OP 0xD (R138). -/
def execReservedOpD (ie : Bool) (s : State) : Host.Outcome State Fault Refusal :=
  startWithoutMemory 0xD (illegalOp 0xD) ie s

/-- OP 0xE (R138). -/
def execReservedOpE (ie : Bool) (s : State) : Host.Outcome State Fault Refusal :=
  startWithoutMemory 0xE (illegalOp 0xE) ie s

/-- OP 0xF (R138). -/
def execReservedOpF (ie : Bool) (s : State) : Host.Outcome State Fault Refusal :=
  startWithoutMemory 0xF (illegalOp 0xF) ie s

/-- A CTRL write with START = 0 and SRST = 0: OP and IE while IDLE, IE alone while RUN (R91, R242, R243). -/
def execIeWrite (op : Nat) (ie : Bool) (s : State) : Host.Outcome State Fault Refusal :=
  match s.phase with
  | .idle => .next (setOpIe (BitVec.ofNat 4 op) ie s)
  | .run => .next (setIe ie s)

/-- SRST (R240), in RUN as well as IDLE. -/
def execSrst (s : State) : Host.Outcome State Fault Refusal := .next (resetDevice s)

/-- ACK (R241). -/
def execAck (s : State) : Host.Outcome State Fault Refusal := .next (clearDone s)

/-- "A STATUS write with bit 1 = 0 changes nothing" (R241). -/
def execStatusWriteNop (s : State) : Host.Outcome State Fault Refusal := .next s

end Sys2Proof.Machine
end

