-- ==== Sys2Proof/Machine/Dispatch.lean ====
section
/-! DEFINITION. The dispatch: one arm per command (30_encoding.md R92, 40_dispatch.md R132). -/

namespace Sys2Proof.Machine

def exec (i : Instr) (s : State) : Host.Outcome State Fault Refusal :=
  match i with
  | .nop ie => Sys2Proof.Machine.execNop ie s
  | .count ie => Sys2Proof.Machine.execCount ie s
  | .build ie => Sys2Proof.Machine.execBuild ie s
  | .pack ie => Sys2Proof.Machine.execPack ie s
  | .unpack ie => Sys2Proof.Machine.execUnpack ie s
  | .compress ie => Sys2Proof.Machine.execCompress ie s
  | .decompress ie => Sys2Proof.Machine.execDecompress ie s
  | .reservedOp7 ie => Sys2Proof.Machine.execReservedOp7 ie s
  | .reservedOp8 ie => Sys2Proof.Machine.execReservedOp8 ie s
  | .reservedOp9 ie => Sys2Proof.Machine.execReservedOp9 ie s
  | .reservedOpA ie => Sys2Proof.Machine.execReservedOpA ie s
  | .reservedOpB ie => Sys2Proof.Machine.execReservedOpB ie s
  | .reservedOpC ie => Sys2Proof.Machine.execReservedOpC ie s
  | .reservedOpD ie => Sys2Proof.Machine.execReservedOpD ie s
  | .reservedOpE ie => Sys2Proof.Machine.execReservedOpE ie s
  | .reservedOpF ie => Sys2Proof.Machine.execReservedOpF ie s
  | .ieWrite op ie => Sys2Proof.Machine.execIeWrite op ie s
  | .srst => Sys2Proof.Machine.execSrst s
  | .ack => Sys2Proof.Machine.execAck s
  | .statusWriteNop => Sys2Proof.Machine.execStatusWriteNop s

end Sys2Proof.Machine
end

