-- ==== Sys2Proof/Machine/Bus.lean ====
section
/-! DEFINITION. What each action of the host does (70_reset_and_hazards.md R303, 20_memory.md R61, R62, R75), and the
fetch of the host's next action. -/

namespace Sys2Proof.Machine

/-- The offset of a bus address from HTB_BASE (R23, R96).  The spec gives HTB_BASE and the register bus no width and does
not say what a window that passes 2^32 does: 32-bit addresses and a difference mod 2^32, so that such a window goes on at
address 0, are DESIGN CHOICE, log entry 22. -/
def windowOffset (p : Platform) (addr : Word) : Nat := (addr - p.htbBase).toNat

/-- Why a register access is refused, if it is (R60, R61).  The refusal outside the window is DESIGN CHOICE, log entry
12. -/
def accessRefusal (p : Platform) (size : Nat) (addr : Word) : Option Refusal :=
  if accessWellFormed size (windowOffset p addr) then none
  else if windowOffset p addr < 256 then some (.undefinedRegisterAccess size (windowOffset p addr))
  else some (.outsideRegisterWindow addr)

/-- A register read: the value of one register as of one instant, and no other effect (R24, R62). -/
def hostRegRead (size : Nat) (addr : Word) (s : State) : Host.Outcome State Fault Refusal :=
  match accessRefusal s.platform size addr with
  | some r => .refused r
  | none => .next { s with rdata := readReg s (windowOffset s.platform addr) }

/-- A register write: a command is executed (R90), any other write goes to the register it addresses. -/
def hostRegWrite (size : Nat) (addr v : Word) (s : State) : Host.Outcome State Fault Refusal :=
  match accessRefusal s.platform size addr with
  | some r => .refused r
  | none =>
    match decode (windowOffset s.platform addr) v with
    | .ok i => exec i s
    | .error _ => .next (writeReg (windowOffset s.platform addr) v s)

/-- One turn of `wait`: read STATUS; the action stays the host's next one until DONE is 1 (R97).  DEDUCED, log
entry 18. -/
def hostWaitDone (s : State) : Host.Outcome State Fault Refusal :=
  if s.done then .next { s with rdata := statusWord s }
  else .next { s with rdata := statusWord s, script := .waitDone :: s.script }

/-- A host read of a byte of the DMA space: any value inside the destination region while RUN (R75, R297). -/
def hostMemLoad (a : Word) (s : State) : Host.Outcome State Fault Refusal :=
  if hasSideEffect s.platform a.toNat then .refused (.sideEffectAddress a)
  else if s.phase = .run ∧ inRegion s.engine.dst.toNat s.engine.cap.toNat a.toNat = true then
    .next { s with mdata := Config.freeByte s.draws a.toNat, draws := s.draws + 1 }
  else .next { s with mdata := Memory.read s.mem a.toNat }

/-- A host write of a byte of the DMA space: refused inside either region while RUN (R75, R296). -/
def hostMemStore (a : Word) (v : Byte) (s : State) : Host.Outcome State Fault Refusal :=
  if hasSideEffect s.platform a.toNat then .refused (.sideEffectAddress a)
  else if s.phase = .run ∧ ownedAddr s.engine a.toNat = true then .refused (.ownedByEngine a)
  else .next { s with mem := Memory.write s.mem a.toNat v }

/-- What an action of the host does (R303).  The reset input among them: DEDUCED, log entry 16. -/
def hostAct (act : HostAction) (s : State) : Host.Outcome State Fault Refusal :=
  match act with
  | .regRead size addr => hostRegRead size addr s
  | .regWrite size addr v => hostRegWrite size addr v s
  | .waitDone => hostWaitDone s
  | .memLoad a => hostMemLoad a s
  | .memStore a v => hostMemStore a v s
  | .hardReset => .next (resetDevice s)

/-- The host's turn: its next action, taken from the script, or nothing when the script is empty. -/
def hostTurn (s : State) : Host.Outcome State Fault Refusal :=
  match s.script with
  | [] => .next s
  | act :: rest => hostAct act { s with script := rest }

/-- One step of the two agents (R72): while IDLE the host acts; while RUN the host acts as long as the completion time
lasts (R301), and then the engine completes the operation (R139), so every access falls wholly before or wholly after
the completion (R62). -/
def stepOnce (s : State) : Host.Outcome State Fault Refusal :=
  match s.phase with
  | .idle => hostTurn s
  | .run =>
    match s.wait with
    | 0 => completeOperation s
    | n + 1 => hostTurn { s with wait := n }

/-- The register write of a bare word of the opcode table, as the host's access, at HTB_BASE + offset mod 2^32 (DESIGN
CHOICE, log entry 22). -/
def tableAccess (p : Platform) (w : Nat) : HostAction :=
  .regWrite 4 (p.htbBase + BitVec.ofNat 32 (tableRegister w)) (BitVec.ofNat 32 w)

/-- An access put before the host's script, and the host given one turn more before a completion. -/
def placeNext (act : HostAction) (s : State) : State :=
  { s with
    script := act :: s.script
    wait := match s.phase with
      | .idle => s.wait
      | .run => s.wait + 1 }

end Sys2Proof.Machine
end

