-- ==== Sys2Proof/Machine/Step.lean ====
section
/-! DEFINITION. One step of the machine, and the placing of a command where the step takes its next one from. -/

namespace Sys2Proof.Machine

/-- One step: an action of the host, a tick of the completion time, or a completion. -/
def step (s : State) : Host.Outcome State Fault Refusal := stepOnce s

/-- The state with a word of the opcode table as the host's next register write, so that the very next step runs it
(log entries 1 and 6).  Bits above `nbits` are zero, so the number is the word. -/
def State.withFetchWord (s : State) (_nbits w : Nat) : State := placeNext (tableAccess s.platform w) s

end Sys2Proof.Machine
end

