-- ==== Sys2Proof/Safety.lean ====
section
/-! DEFINITION. What counts as a good state, and the terms in which claims speak of an operation: its operands, when it
may run, how it completes, what it leaves alone. -/

namespace Sys2Proof.Safety

open Sys2Proof.Machine

/-! ### The invariant -/

/-- The outcome waiting for completion fits what the registers and the DMA space can hold: the destination region lies
inside the DMA space when there is output (R134), and K fits NSYM (R34). -/
def ResultFits (e : Engine) : Prop :=
  match e.result with
  | .raised _ => True
  | .ok r => (r.out = [] ∨ e.dst.toNat + e.cap.toNat ≤ dmaSize) ∧ r.nsym ≤ 255

/-- While RUN: no flag or result register holds anything (R26, R299), the parameter registers hold what START latched
(R36, R38, R264), and the outcome fits. -/
structure RunState (s : State) : Prop where
  done : s.done = false
  errcode : s.errcode = 0
  outLen : s.outLen = 0
  bitlen : s.bitlen = 0
  nsym : s.nsym = 0
  errinfo : s.errinfo = 0
  op : s.engine.op = s.ctrlOp
  src : s.engine.src = s.srcAddr
  slen : s.engine.slen = s.srcLen
  dst : s.engine.dst = s.dstAddr
  cap : s.engine.cap = s.dstCap
  pin : s.engine.pin = s.pad
  result : ResultFits s.engine

/-- The invariant of every step: memory is in its canonical form; ERRCODE holds a code of R260; ERRINFO is 0 without an
error (R35) and the result registers are 0 with one (R136); while RUN the state is as `RunState` says. -/
structure Inv (s : State) : Prop where
  mem : Memory.wf s.mem
  errcode : s.errcode.toNat ≤ 0x0A
  noError : s.errcode = 0 → s.errinfo = 0
  onError : s.errcode ≠ 0 → s.outLen = 0 ∧ s.bitlen = 0 ∧ s.nsym = 0
  run : s.phase = .run → RunState s

/-! ### Operands -/

/-- OP and IE of a START command (R92); none for the commands that start nothing. -/
def startRow : Instr → Option (BitVec 4 × Bool)
  | .nop ie => some (0x0, ie)
  | .count ie => some (0x1, ie)
  | .build ie => some (0x2, ie)
  | .pack ie => some (0x3, ie)
  | .unpack ie => some (0x4, ie)
  | .compress ie => some (0x5, ie)
  | .decompress ie => some (0x6, ie)
  | .reservedOp7 ie => some (0x7, ie)
  | .reservedOp8 ie => some (0x8, ie)
  | .reservedOp9 ie => some (0x9, ie)
  | .reservedOpA ie => some (0xA, ie)
  | .reservedOpB ie => some (0xB, ie)
  | .reservedOpC ie => some (0xC, ie)
  | .reservedOpD ie => some (0xD, ie)
  | .reservedOpE ie => some (0xE, ie)
  | .reservedOpF ie => some (0xF, ie)
  | .ieWrite _ _ | .srst | .ack | .statusWriteNop => none

/-- The function an operation that touches memory computes (R132). -/
def computeOf : Instr → Option Compute
  | .count _ => some countOp
  | .build _ => some buildOp
  | .pack _ => some packOp
  | .unpack _ => some unpackOp
  | .compress _ => some compressOp
  | .decompress _ => some decompressOp
  | .nop _ | .reservedOp7 _ | .reservedOp8 _ | .reservedOp9 _ | .reservedOpA _ | .reservedOpB _ | .reservedOpC _
  | .reservedOpD _ | .reservedOpE _ | .reservedOpF _ | .ieWrite _ _ | .srst | .ack | .statusWriteNop => none

/-- Address a lies in the source region the parameter registers name. -/
def InSource (s : State) (a : Nat) : Prop := s.srcAddr.toNat ≤ a ∧ a < s.srcAddr.toNat + s.srcLen.toNat

/-- Address a lies in the destination region the parameter registers name. -/
def InDestination (s : State) (a : Nat) : Prop := s.dstAddr.toNat ≤ a ∧ a < s.dstAddr.toNat + s.dstCap.toNat

/-- The bytes of the source region (R133). -/
def sourceBytes (s : State) : Bytes :=
  (List.range s.srcLen.toNat).map fun i => Memory.read s.mem (s.srcAddr.toNat + i)

/-- Neither region wraps and they do not overlap (R134). -/
def RegionsLegal (s : State) : Prop :=
  s.srcAddr.toNat + s.srcLen.toNat ≤ dmaSize ∧ s.dstAddr.toNat + s.dstCap.toNat ≤ dmaSize ∧
  ∀ a, ¬ (InSource s a ∧ InDestination s a)

/-- Neither region lies on addresses with read or write side effects (R66). -/
def OrdinaryRegions (s : State) : Prop :=
  ∀ a, InSource s a ∨ InDestination s a → hasSideEffect s.platform a = false

/-- An operation on these registers reads its whole source: IDLE, both regions legal and ordinary, the source readable. -/
structure Executable (s : State) : Prop where
  idle : s.phase = .idle
  legal : RegionsLegal s
  ordinary : OrdinaryRegions s
  readable : ∀ a, InSource s a → readable s.platform a = true
  mem : Memory.wf s.mem

/-- An output of n bytes fits and can be written (R135). -/
def OutputFits (s : State) (n : Nat) : Prop :=
  n ≤ s.dstCap.toNat ∧ ∀ a, s.dstAddr.toNat ≤ a → a < s.dstAddr.toNat + n → writable s.platform a = true

/-! ### Completion and frames -/

/-- What no operation changes: the parameter registers other than PAD, the platform, the host's side. -/
def ParamsKept (s u : State) : Prop :=
  u.srcAddr = s.srcAddr ∧ u.srcLen = s.srcLen ∧ u.dstAddr = s.dstAddr ∧ u.dstCap = s.dstCap ∧
  u.platform = s.platform ∧ u.script = s.script ∧ u.rdata = s.rdata ∧ u.mdata = s.mdata

/-- Every byte of the DMA space reads as before. -/
def MemoryKept (s u : State) : Prop := ∀ a, Memory.read u.mem a = Memory.read s.mem a

/-- The bytes `out` stand from dst on and every other byte reads as before (R68). -/
def MemoryUpdated (s u : State) (dst : Nat) (out : Bytes) : Prop :=
  ∀ a, Memory.read u.mem a =
    if dst ≤ a ∧ a < dst + out.length then out.getD (a - dst) 0 else Memory.read s.mem a

/-- The state after completion: IDLE, DONE = 1, irq = CTRL.IE, CTRL as the START write left it (R139). -/
def Completed (u : State) (op : BitVec 4) (ie : Bool) : Prop :=
  u.phase = .idle ∧ u.done = true ∧ u.ctrlOp = op ∧ u.ctrlIe = ie ∧ irq u = ie

/-- The command is accepted, the operation runs, and whenever its time is over it completes with success: `out` is
written to the destination region and the result registers are as given (R135, R139). -/
def SucceedsWith (i : Instr) (s : State) (out : Bytes) (pad : BitVec 4) (bitlen nsym : Nat) : Prop :=
  ∃ op ie t u, startRow i = some (op, ie) ∧ exec i s = .next t ∧ t.phase = .run ∧ MemoryKept s t ∧ t.pad = s.pad ∧
    ParamsKept s t ∧ step { t with wait := 0 } = .next u ∧ Completed u op ie ∧ u.errcode = 0 ∧ u.errinfo = 0 ∧
    u.outLen = BitVec.ofNat 32 out.length ∧ u.pad = pad ∧ u.bitlen = BitVec.ofNat 32 bitlen ∧
    u.nsym = BitVec.ofNat 8 nsym ∧ ParamsKept s u ∧ MemoryUpdated s u s.dstAddr.toNat out

/-- The command is accepted, the operation runs, and whenever its time is over it completes with the error (R136), the
next state u of the completion being related to s by `mem`. -/
def FailsWith (i : Instr) (s : State) (kind : ErrKind) (info : Nat) (mem : State → Prop) : Prop :=
  ∃ op ie t u, startRow i = some (op, ie) ∧ exec i s = .next t ∧ t.phase = .run ∧ MemoryKept s t ∧ t.pad = s.pad ∧
    ParamsKept s t ∧ step { t with wait := 0 } = .next u ∧ Completed u op ie ∧ u.errcode = errCode kind ∧
    u.errinfo = BitVec.ofNat 32 info ∧ u.outLen = 0 ∧ u.bitlen = 0 ∧ u.nsym = 0 ∧ u.pad = s.pad ∧
    ParamsKept s u ∧ mem u

/-! ### Tables and codes -/

/-- The bytes begin with the table list T (R105, R110): byte 0 is K, byte 1 + 2i the symbol and byte 2 + 2i the frequency
of entry i. -/
def StartsWithTable (out : Bytes) (T : Table) : Prop :=
  1 + 2 * T.length ≤ out.length ∧ (out.getD 0 0).toNat = T.length ∧
  ∀ (i : Nat) (e : Entry), T[i]? = some e →
    out.getD (1 + 2 * i) 0 = e.sym ∧ (out.getD (2 + 2 * i) 0).toNat = e.freq

/-- A table list the tree builder accepts (R105, R160): not empty, at most 255 entries, distinct symbols, frequencies
1 to 255. -/
structure LegalTable (T : Table) : Prop where
  nonempty : T ≠ []
  short : T.length ≤ 255
  distinct : (T.map Entry.sym).Nodup
  freq : ∀ e ∈ T, 1 ≤ e.freq ∧ e.freq ≤ 255

/-- A bit sequence is the codes of the symbols `out`, in order, and then `rest`, at whose head no code stands (R213). -/
def SplitsInto (C : CodeTable) (bits : Bits) (out : Bytes) (rest : Bits) : Prop :=
  (∀ x ∈ out, (codeOf C x).isSome = true) ∧ bits = (out.flatMap fun x => (codeOf C x).getD []) ++ rest ∧
  ∀ x c, codeOf C x = some c → ¬ c <+: rest

/-- The six conditions of R117 on a container that is not empty. -/
def WellFormedContainer (C : Bytes) : Prop :=
  let K := (C.getD 0 0).toNat
  let n := C.length - (2 + 2 * K)
  1 ≤ K ∧ 2 + 2 * K ≤ C.length ∧
  (∀ i j, i < K → j < K → C.getD (1 + 2 * i) 0 = C.getD (1 + 2 * j) 0 → i = j) ∧
  (∀ i, i < K → 1 ≤ (C.getD (2 + 2 * i) 0).toNat) ∧
  (C.getD (1 + 2 * K) 0).toNat ≤ 7 ∧ (1 ≤ n ∨ C.getD (1 + 2 * K) 0 = 0)

end Sys2Proof.Safety
end

