-- ==== Sys2Proof/Certificates/Slice0/Obligations.lean ====
section
/-! DEFINITION. The statements for the provers.  Each docstring names the rule of the spec it formalises; the terms they
speak in (an executable state, success, failure, frames) are those of Sys2Proof/Safety.lean. -/

open Sys2Proof Sys2Proof.Machine Sys2Proof.Safety

/-! ### Encoding -/

/-- The words that 30_encoding.md R90 to R97 write out decode to the commands they stand for, and a write of another
register is no command. -/
def Obligations.SpecWordsDecodeToTheirCommands : Prop :=
  decode 0x08 0x00000001#32 = .ok (.nop false) ∧ decode 0x08 0x00000101#32 = .ok (.nop true) ∧
  decode 0x08 0x00000011#32 = .ok (.count false) ∧ decode 0x08 0x00000021#32 = .ok (.build false) ∧
  decode 0x08 0x00000031#32 = .ok (.pack false) ∧ decode 0x08 0x00000041#32 = .ok (.unpack false) ∧
  decode 0x08 0x00000051#32 = .ok (.compress false) ∧ decode 0x08 0x00000161#32 = .ok (.decompress true) ∧
  decode 0x08 0x000000F1#32 = .ok (.reservedOpF false) ∧ decode 0x08 0x00000050#32 = .ok (.ieWrite 5 false) ∧
  decode 0x08 0x80000051#32 = .ok .srst ∧ decode 0x0C 0x00000002#32 = .ok .ack ∧
  decode 0x0C 0x00000000#32 = .ok .statusWriteNop ∧ decode 0x10 0x00000051#32 = .error (.notACommandRegister 0x10)

/-- Decoding the encoding of a well-formed command gives the command back, with every operand (R90, R92). -/
def Obligations.DecodingAnEncodedCommandGivesItBack : Prop :=
  ∀ i : Instr, i.wellFormed = true → decode (encode i).1 (encode i).2 = .ok i

/-- A START word selects operation o exactly when it matches (o << 4) | 0x1 under the mask 0x8000_00F1, and it carries IE
in bit 8; the rows without START are selected by their own mask and match; every other bit is ignored (R91). -/
def Obligations.CommandSelectionIsByMaskAndMatch : Prop :=
  ∀ w : Word,
    (∀ o : BitVec 4, (w &&& 0x800000F1#32 = (o.setWidth 32 <<< 4) ||| 0x1#32) ↔
      decode ctrlOffset w = .ok (startCommand o (w.getLsbD 8))) ∧
    ((w &&& 0x80000001#32 = 0) ↔ decode ctrlOffset w = .ok (.ieWrite (w.extractLsb' 4 4).toNat (w.getLsbD 8))) ∧
    ((w &&& 0x80000000#32 = 0x80000000#32) ↔ decode ctrlOffset w = .ok .srst) ∧
    ((w &&& 0x2#32 = 0x2#32) ↔ decode statusOffset w = .ok .ack) ∧
    ((w &&& 0x2#32 = 0) ↔ decode statusOffset w = .ok .statusWriteNop)

/-- Every register write that is a command is a well-formed one, goes to the register of its encoding, and fits its row
of the opcode table. -/
def Obligations.DecodedCommandsFitTheirTableRow : Prop :=
  ∀ (off : Nat) (w : Word) (i : Instr), decode off w = .ok i →
    i.wellFormed = true ∧ off = (encode i).1 ∧ w &&& (tableRow i).1 = (tableRow i).2

/-! ### The step -/

/-- When the host's next access is a defined write whose word decodes to a command, the step is `exec` of that command
on the state with the access taken from the script, and, while RUN, one unit less of the completion time.  When that
time is over the step is the completion.  That the host's accesses are a script and that the completion time is counted
in its turns, with the completion exactly when `wait` is 0, are the model's choices (log entries 6 and 8). -/
def Obligations.StepRunsTheDecodedCommand : Prop :=
  ∀ (s : State) (addr v : Word) (rest : List HostAction) (i : Instr),
    s.script = .regWrite 4 addr v :: rest →
    accessWellFormed 4 (windowOffset s.platform addr) = true →
    decode (windowOffset s.platform addr) v = .ok i →
    (s.phase = .idle → step s = exec i { s with script := rest }) ∧
    (∀ n, s.phase = .run → s.wait = n + 1 → step s = exec i { s with script := rest, wait := n }) ∧
    (s.phase = .run → s.wait = 0 → step s = completeOperation s)

/-- A word of the opcode table placed where the step fetches runs as the command it decodes to (model's own placing: log
entries 1 and 6). -/
def Obligations.StepRunsAPlacedTableWord : Prop :=
  ∀ (s : State) (nbits w : Nat) (i : Instr), decodeTableWord nbits w = some i →
    step (s.withFetchWord nbits w) = exec i s

/-! ### Reset and the control commands -/

/-- After reset every register reads as the table of 10_state.md section 4 says, irq is 0 and the phase is IDLE. -/
def Obligations.ResetRegistersReadAsSpecified : Prop :=
  (∀ off, readReg State.reset off = if off = 0x00 then 0x48554646#32 else if off = 0x04 then 0x1#32 else 0) ∧
  irq State.reset = false ∧ State.reset.phase = .idle

/-- SRST (R240): any CTRL word with bit 31 set, in IDLE and in RUN, gives every register its reset value.  The reset input
does the same (R290, R292; an access of the script by log entry 16).  Memory keeps every byte, but for the destination
region of an operation it abandons (R69, R290; log entry 10).  That the host's script and the data it last read stay is
the model's choice (log entry 5), and so is the platform as data that no reset changes (log entry 3). -/
def Obligations.SoftResetRestoresResetValues : Prop :=
  (∀ w : Word, w.getLsbD 31 = true → decode ctrlOffset w = .ok .srst) ∧
  ∀ s : State, ∃ t, exec .srst s = .next t ∧ hostAct .hardReset s = .next t ∧
    (∀ off, readReg t off = readReg State.reset off) ∧ irq t = false ∧ t.phase = .idle ∧
    t.platform = s.platform ∧ t.script = s.script ∧ t.rdata = s.rdata ∧ t.mdata = s.mdata ∧
    (s.phase = .idle → t.mem = s.mem) ∧
    (s.phase = .run → ∀ a, (a < s.engine.dst.toNat ∨ s.engine.dst.toNat + s.engine.cap.toNat ≤ a) →
      Memory.read t.mem a = Memory.read s.mem a)

/-- ACK (R241): a STATUS write with bit 1 set clears DONE and nothing else, so irq drops; without it nothing changes. -/
def Obligations.AcknowledgeClearsDoneOnly : Prop :=
  (∀ w : Word, decode statusOffset w = .ok (if w.getLsbD 1 then .ack else .statusWriteNop)) ∧
  ∀ s : State, (∃ t, exec .ack s = .next t ∧ t = { s with done := false } ∧ irq t = false) ∧
    (s.done = false → exec .ack s = .next s) ∧ exec .statusWriteNop s = .next s

/-- A CTRL write with START = 0 and SRST = 0 (R242, R93): IE in both phases, OP while IDLE only, nothing else, and irq
is DONE and the new IE at once. -/
def Obligations.InterruptEnableWriteTakesEffectAtOnce : Prop :=
  ∀ (s : State) (w : Word), w.getLsbD 31 = false → w.getLsbD 0 = false →
    ∃ i t, decode ctrlOffset w = .ok i ∧ exec i s = .next t ∧ irq t = (s.done && w.getLsbD 8) ∧
      (s.phase = .idle → t = { s with ctrlOp := w.extractLsb' 4 4, ctrlIe := w.getLsbD 8 }) ∧
      (s.phase = .run → t = { s with ctrlIe := w.getLsbD 8 })

/-- Every IE_WRITE command, with any operand, answers the next state its rule gives (R242, R91). -/
def Obligations.EveryIeWriteCommandCompletes : Prop :=
  ∀ (s : State) (op : Nat) (ie : Bool), op < 16 →
    (s.phase = .idle → exec (.ieWrite op ie) s = .next { s with ctrlOp := BitVec.ofNat 4 op, ctrlIe := ie }) ∧
    (s.phase = .run → exec (.ieWrite op ie) s = .next { s with ctrlIe := ie })

/-- A CTRL write with bit 31 = 0 while RUN writes IE and has no other effect (R243). -/
def Obligations.CtrlWriteWhileRunWritesIeOnly : Prop :=
  ∀ (s : State) (w : Word) (i : Instr), s.phase = .run → w.getLsbD 31 = false → decode ctrlOffset w = .ok i →
    exec i s = .next { s with ctrlIe := w.getLsbD 8 }

/-! ### Acceptance -/

/-- An accepted START (R131): CTRL, the six latches, RUN with BUSY = 1, DONE, ERRCODE and the result registers cleared,
PAD and memory kept; while RUN a START is not accepted.  (An operation that would access a region with side effects is
refused instead, R66: that case has a statement of its own.) -/
def Obligations.AcceptedStartLatchesOperandsAndClearsResults : Prop :=
  ∀ (i : Instr) (o : BitVec 4) (ie : Bool) (s : State), startRow i = some (o, ie) →
    (s.phase = .idle → (computeOf i = none ∨ OrdinaryRegions s ∨ ¬ RegionsLegal s) → ∃ t, exec i s = .next t ∧
      t.ctrlOp = o ∧ t.ctrlIe = ie ∧
      t.engine.op = o ∧ t.engine.src = s.srcAddr ∧ t.engine.slen = s.srcLen ∧ t.engine.dst = s.dstAddr ∧
      t.engine.cap = s.dstCap ∧ t.engine.pin = s.pad ∧
      t.phase = .run ∧ statusBusy t = true ∧ t.done = false ∧ t.errcode = 0 ∧
      t.outLen = 0 ∧ t.bitlen = 0 ∧ t.nsym = 0 ∧ t.errinfo = 0 ∧ t.pad = s.pad ∧ t.mem = s.mem ∧ ParamsKept s t) ∧
    (s.phase = .run → exec i s = .next { s with ctrlIe := ie })

/-- The operand registers whose regions touch addresses with side effects stop the six operations by name (R66). -/
def Obligations.RegionsWithSideEffectsAreRefused : Prop :=
  ∀ (i : Instr) (c : Compute) (s : State) (a : Nat), computeOf i = some c → s.phase = .idle → RegionsLegal s →
    (InSource s a ∨ InDestination s a) → hasSideEffect s.platform a = true → exec i s = .refused .sideEffectRegion

/-! ### Operations that succeed -/

/-- NOP (R137): from every IDLE state, whatever the regions, it completes with success and touches no memory. -/
def Obligations.NopSucceedsWithoutTouchingMemory : Prop :=
  ∀ (s : State) (ie : Bool), s.phase = .idle → SucceedsWith (.nop ie) s [] s.pad 0 0

/-- COUNT (R152) writes the table list of `count_table` and nothing else: byte 0 is K, byte 1 + 2i the symbol and byte
2 + 2i the frequency of entry i (R105), 1 + 2K bytes; NSYM = K, BITLEN = 0, PAD unchanged. -/
def Obligations.CountWritesTheTableList : Prop :=
  ∀ (s : State) (ie : Bool) (T : Table), Executable s → countTable (sourceBytes s) = .ok T →
    OutputFits s (1 + 2 * T.length) →
    ∃ out : Bytes, out.length = 1 + 2 * T.length ∧ StartsWithTable out T ∧
      SucceedsWith (.count ie) s out s.pad 0 T.length

/-- BUILD (R172) writes the code dump of the table list, each entry's symbol, code length and packed code in list order:
NSYM = K, BITLEN = 0, PAD unchanged. -/
def Obligations.BuildWritesTheCodeDump : Prop :=
  ∀ (s : State) (ie : Bool) (T : Table) (out : Bytes), Executable s → parseTable (sourceBytes s) = .ok T →
    out = (T.flatMap fun e =>
      let c := (codeOf (codesOf T) e.sym).getD []
      e.sym :: BitVec.ofNat 8 c.length :: (pack c).1) →
    OutputFits s out.length → SucceedsWith (.build ie) s out s.pad 0 T.length

/-- PACK (R194) packs a bit vector of bytes 0x00 and 0x01: ceil(L/8) bytes, PAD = P, BITLEN = L, NSYM = 0. -/
def Obligations.PackWritesThePackedBits : Prop :=
  ∀ (s : State) (ie : Bool), Executable s → (∀ x ∈ sourceBytes s, x = 0 ∨ x = 1) →
    OutputFits s ((s.srcLen.toNat + 7) / 8) →
    (pack ((sourceBytes s).map fun x => decide (x = 1))).1.length = (s.srcLen.toNat + 7) / 8 ∧
    SucceedsWith (.pack ie) s (pack ((sourceBytes s).map fun x => decide (x = 1))).1
      (BitVec.ofNat 4 ((8 - s.srcLen.toNat % 8) % 8)) s.srcLen.toNat 0

/-- UNPACK (R195) with `pin` = PAD at START, at most 7 and 0 when the source is empty: L = 8n - pin bytes 0x00 or 0x01,
BITLEN = L, NSYM = 0, PAD unchanged. -/
def Obligations.UnpackWritesTheBitVector : Prop :=
  ∀ (s : State) (ie : Bool) (L : Nat), Executable s → s.pad.toNat ≤ 7 → (s.srcLen.toNat ≠ 0 ∨ s.pad = 0) →
    L = 8 * s.srcLen.toNat - s.pad.toNat → OutputFits s L →
    (unpack (sourceBytes s) s.pad.toNat).length = L ∧
    SucceedsWith (.unpack ie) s ((unpack (sourceBytes s) s.pad.toNat).map fun b => if b then 1 else 0) s.pad L 0

/-- COMPRESS (R210, R211) of a non-empty input writes the container (R110): byte 0 is K, byte 1 + 2i the symbol and byte
2 + 2i the frequency of entry i, byte 1 + 2K is P = (8 - L mod 8) mod 8, and from byte 2 + 2K on stands the packed
concatenation of the input bytes' codes in input order, 2 + 2K + ceil(L/8) bytes in all: PAD = P, BITLEN = L, NSYM = K. -/
def Obligations.CompressWritesTheContainer : Prop :=
  ∀ (s : State) (ie : Bool) (T : Table) (bits : Bits), Executable s → s.srcLen.toNat ≠ 0 →
    countTable (sourceBytes s) = .ok T →
    bits = ((sourceBytes s).flatMap fun x => (codeOf (codesOf T) x).getD []) →
    OutputFits s (2 + 2 * T.length + (bits.length + 7) / 8) →
    ∃ out : Bytes, out.length = 2 + 2 * T.length + (bits.length + 7) / 8 ∧ StartsWithTable out T ∧
      (out.getD (1 + 2 * T.length) 0).toNat = (8 - bits.length % 8) % 8 ∧
      out.drop (2 + 2 * T.length) = (pack bits).1 ∧
      SucceedsWith (.compress ie) s out (BitVec.ofNat 4 ((8 - bits.length % 8) % 8)) bits.length T.length

/-- DECOMPRESS (R215) of a non-empty container writes the decoded symbols: PAD = P, BITLEN = 8n - P, NSYM = K. -/
def Obligations.DecompressWritesTheDecodedSymbols : Prop :=
  ∀ (s : State) (ie : Bool) (c : Container) (out : Bytes), Executable s → s.srcLen.toNat ≠ 0 →
    parseContainer (sourceBytes s) = .ok c → decodeBits (codesOf c.tbl) (unpack c.body c.pad) = .ok out →
    OutputFits s out.length →
    SucceedsWith (.decompress ie) s out (BitVec.ofNat 4 c.pad) (8 * c.body.length - c.pad) c.tbl.length

/-- COMPRESS of the empty input and DECOMPRESS of the empty container write nothing and succeed (R218), with any
capacity. -/
def Obligations.EmptyInputAndEmptyContainerSucceed : Prop :=
  ∀ (s : State) (ie : Bool), Executable s → s.srcLen = 0 →
    SucceedsWith (.compress ie) s [] 0 0 0 ∧ SucceedsWith (.decompress ie) s [] 0 0 0

/-! ### Operations that end in an error -/

/-- A reserved OP (R138) always ends in ILLEGAL_OP with ERRINFO = OP and STATUS = 0x0000_0806, and touches no memory. -/
def Obligations.ReservedOpsEndInIllegalOp : Prop :=
  ∀ (i : Instr) (o : BitVec 4) (ie : Bool) (s : State), startRow i = some (o, ie) → 7 ≤ o.toNat → s.phase = .idle →
    FailsWith i s .illegalOp o.toNat fun u => MemoryKept s u ∧ statusWord u = 0x00000806#32 ∧ u.ctrlOp = o

/-- The region check (R134) comes before any access: bit 0 for a wrapping source, bit 1 for a wrapping destination,
bit 2 for an overlap, all that apply. -/
def Obligations.IllegalRegionsEndInBadRegion : Prop :=
  ∀ (i : Instr) (c : Compute) (s : State) (w1 w2 w4 : Bool), computeOf i = some c → s.phase = .idle →
    (w1 = true ↔ s.srcAddr.toNat + s.srcLen.toNat > dmaSize) →
    (w2 = true ↔ s.dstAddr.toNat + s.dstCap.toNat > dmaSize) →
    (w4 = true ↔ ∃ a, InSource s a ∧ InDestination s a) →
    (w1 || w2 || w4) = true →
    FailsWith i s .badRegion (w1.toNat + 2 * w2.toNat + 4 * w4.toNat) (MemoryKept s)

/-- The snapshot (R133): an unreadable byte of the source ends the operation in INPUT_UNAVAILABLE with the lowest such
address, whatever the source holds. -/
def Obligations.UnreadableSourceEndsInInputUnavailable : Prop :=
  ∀ (i : Instr) (c : Compute) (s : State) (a : Nat), computeOf i = some c → s.phase = .idle → RegionsLegal s →
    OrdinaryRegions s → InSource s a → readable s.platform a = false →
    (∀ b, InSource s b → b < a → readable s.platform b = true) →
    FailsWith i s .inputUnavailable a (MemoryKept s)

/-- An error that the operation's own function raises is the one reported, before any check of the output (R136,
R263). -/
def Obligations.ContentErrorsAreReportedBeforeOutputErrors : Prop :=
  ∀ (i : Instr) (c : Compute) (s : State) (e : OpError), computeOf i = some c → Executable s →
    c (sourceBytes s) s.pad = .error e → FailsWith i s e.kind e.info (MemoryKept s)

/-- The capacity check (R135): an output longer than DST_CAP ends in OUTPUT_OVERFLOW with the length needed. -/
def Obligations.LongOutputEndsInOutputOverflow : Prop :=
  ∀ (i : Instr) (c : Compute) (s : State) (r : OpOk), computeOf i = some c → Executable s →
    c (sourceBytes s) s.pad = .ok r → s.dstCap.toNat < r.out.length →
    FailsWith i s .outputOverflow r.out.length (MemoryKept s)

/-- The bus check (R135, R69): an unwritable byte of the output's destination ends in OUTPUT_UNAVAILABLE with the lowest
such address; the bytes [dst, dst+T) hold any value and every other byte keeps its value. -/
def Obligations.UnwritableOutputEndsInOutputUnavailable : Prop :=
  ∀ (i : Instr) (c : Compute) (s : State) (r : OpOk) (a : Nat), computeOf i = some c → Executable s →
    c (sourceBytes s) s.pad = .ok r → r.out.length ≤ s.dstCap.toNat →
    s.dstAddr.toNat ≤ a → a < s.dstAddr.toNat + r.out.length → writable s.platform a = false →
    (∀ b, s.dstAddr.toNat ≤ b → b < a → writable s.platform b = true) →
    FailsWith i s .outputUnavailable a fun u =>
      ∀ b, (b < s.dstAddr.toNat ∨ s.dstAddr.toNat + r.out.length ≤ b) → Memory.read u.mem b = Memory.read s.mem b

/-- PACK's and UNPACK's own errors (R194, R195): INVALID_BIT at the first byte other than 0x00 and 0x01;
MALFORMED_CONTAINER with `pin` when pin > 7, or when the source is empty and pin is not 0. -/
def Obligations.PackAndUnpackRejectWhatTheirRulesReject : Prop :=
  ∀ (S : Bytes) (pin : BitVec 4) (e : OpError),
    (packOp S pin = .error e ↔ e.kind = .invalidBit ∧ e.info < S.length ∧ 1 < (S.getD e.info 0).toNat ∧
      ∀ j, j < e.info → (S.getD j 0).toNat ≤ 1) ∧
    (unpackOp S pin = .error e ↔ e = ⟨.malformedContainer, pin.toNat⟩ ∧ (7 < pin.toNat ∨ (S = [] ∧ pin ≠ 0)))

/-! ### The whole machine -/

/-- The reset state meets the invariant. -/
def Obligations.ResetMeetsTheInvariant : Prop := Inv State.reset

/-- Every step from a state that meets the invariant leads to one that meets it: canonical memory, the error codes of
R260 only, no result beside an error, and while RUN cleared registers and parameters equal to the latches. -/
def Obligations.EveryStepKeepsTheInvariant : Prop := ∀ s t : State, Inv s → step s = .next t → Inv t

/-- From a state that meets the invariant no step faults: the region check keeps every write inside the DMA space
(R63, R134). -/
def Obligations.NoStepFromTheInvariantFaults : Prop := ∀ (s : State) (f : Fault), Inv s → step s ≠ .fault f

/-- An operation never writes outside its destination region (R30, R68, R69): a byte of the DMA space that a step
changes was stored by the host in that step, or lies in the destination region of the operation that was running. -/
def Obligations.StepsChangeOnlyTheDestinationOrTheHostsByte : Prop :=
  ∀ (s t : State) (a : Nat), step s = .next t → Memory.read t.mem a ≠ Memory.read s.mem a →
    (∃ (x : Word) (v : Byte) (rest : List HostAction), s.script = .memStore x v :: rest ∧ x.toNat = a) ∨
    (s.phase = .run ∧ s.engine.dst.toNat ≤ a ∧ a < s.engine.dst.toNat + s.engine.cap.toNat)

/-- DONE is set by a completion only, which ends RUN (R26, R139, R268); RUN is entered by an accepted START only
(R21). -/
def Obligations.OnlyCompletionSetsDoneAndOnlyStartEntersRun : Prop :=
  ∀ s t : State, step s = .next t →
    (s.done = false → t.done = true → s.phase = .run ∧ s.wait = 0 ∧ t.phase = .idle) ∧
    (s.phase = .idle → t.phase = .run → ∃ (addr v : Word) (rest : List HostAction) (i : Instr) (o : BitVec 4)
      (ie : Bool), s.script = .regWrite 4 addr v :: rest ∧ decode (windowOffset s.platform addr) v = .ok i ∧
        startRow i = some (o, ie))

/-- BUSY = 1 and DONE = 1 never hold together (R26), and from START to completion OUT_LEN, BITLEN, NSYM and ERRINFO read
0, ERRCODE reads 0, and PAD reads the value latched into pin (R299). -/
def Obligations.ResultRegistersReadZeroWhileRunning : Prop :=
  ∀ s : State, Inv s → s.phase = .run →
    readReg s 0x20 = 0 ∧ readReg s 0x28 = 0 ∧ readReg s 0x2C = 0 ∧ readReg s 0x30 = 0 ∧
    readReg s 0x24 = s.engine.pin.setWidth 32 ∧ readReg s 0x0C = 0x00000001#32

/-- An operation that is left to run completes after finitely many steps (R301): with the host idle, DONE becomes 1
exactly when the completion time is over.  R301 gives the finiteness; that DONE comes after `wait` + 1 steps and not
before is the model's counting of COMPLETION_TIME (log entry 8). -/
def Obligations.OperationsCompleteAfterFinitelyManySteps : Prop :=
  ∀ s : State, Inv s → s.phase = .run → s.script = [] →
    (∀ k, k ≤ s.wait → ∃ t, Host.Core.run Sys2Proof.core k s = .next t ∧ t.phase = .run ∧ t.done = false) ∧
    ∃ u, Host.Core.run Sys2Proof.core (s.wait + 1) s = .next u ∧ u.phase = .idle ∧ u.done = true

/-- No step changes the platform: `readable` and `writable` are fixed for a run (R64, R65). -/
def Obligations.StepsNeverChangeThePlatform : Prop :=
  ∀ s t : State, step s = .next t → t.platform = s.platform

/-- Every operation result is a function of the source snapshot, the latched operands and the platform alone: two
machines that agree on these compute the same outcome and, when they complete, show the same STATUS and the same result
registers, and after a success the same bytes in [dst, dst + OUT_LEN), whatever earlier operations left behind (R11).
Memory in its canonical form is a premise of the last clause only; the invariant holds it. -/
def Obligations.ResultsDependOnOperandsAlone : Prop :=
  ∀ (i : Instr) (o : BitVec 4) (ie : Bool) (s1 s2 t1 : State), startRow i = some (o, ie) →
    s1.phase = .idle → s2.phase = .idle → s1.srcAddr = s2.srcAddr → s1.srcLen = s2.srcLen →
    s1.dstAddr = s2.dstAddr → s1.dstCap = s2.dstCap → s1.pad = s2.pad → s1.platform = s2.platform →
    sourceBytes s1 = sourceBytes s2 → exec i s1 = .next t1 →
    ∃ t2, exec i s2 = .next t2 ∧ t2.engine.result = t1.engine.result ∧
      ∀ u1, step { t1 with wait := 0 } = .next u1 → ∃ u2, step { t2 with wait := 0 } = .next u2 ∧
        (∀ r ∈ [0x0C, 0x20, 0x24, 0x28, 0x2C, 0x30], readReg u2 r = readReg u1 r) ∧
        (Memory.wf s1.mem → Memory.wf s2.mem → u1.errcode = 0 →
          ∀ a, s1.dstAddr.toNat ≤ a → a < s1.dstAddr.toNat + u1.outLen.toNat →
            Memory.read u2.mem a = Memory.read u1.mem a)

/-! ### Registers and the host's accesses -/

/-- ID and VERSION are constants in every state, and writes to them are ignored (R22). -/
def Obligations.IdentityRegistersAreConstant : Prop :=
  ∀ (s : State) (v : Word), readReg s 0x00 = 0x48554646#32 ∧ readReg s 0x04 = 0x00000001#32 ∧
    writeReg 0x00 v s = s ∧ writeReg 0x04 v s = s

/-- The fields of STATUS and CTRL (R25, R26): each bit reads as its field, and the reserved and action bits read 0.  Every
other register of the map (R23, R27 to R35) reads its own field, the upper bits of PAD and NSYM as 0, and the reserved
offsets 0x34 to 0xFC read 0 (R24).  (ID and VERSION have a statement of their own.) -/
def Obligations.StatusAndCtrlReadTheirFields : Prop :=
  ∀ s : State,
    (readReg s 0x0C).getLsbD 0 = decide (s.phase = .run) ∧ (readReg s 0x0C).getLsbD 1 = s.done ∧
    (readReg s 0x0C).getLsbD 2 = decide (s.errcode ≠ 0) ∧ (readReg s 0x0C).extractLsb' 8 8 = s.errcode ∧
    readReg s 0x0C &&& 0xFFFF00F8#32 = 0 ∧
    (readReg s 0x08).extractLsb' 4 4 = s.ctrlOp ∧ (readReg s 0x08).getLsbD 8 = s.ctrlIe ∧
    readReg s 0x08 &&& 0xFFFFFE0F#32 = 0 ∧
    readReg s 0x10 = s.srcAddr ∧ readReg s 0x14 = s.srcLen ∧ readReg s 0x18 = s.dstAddr ∧ readReg s 0x1C = s.dstCap ∧
    readReg s 0x20 = s.outLen ∧ readReg s 0x24 = s.pad.setWidth 32 ∧ readReg s 0x28 = s.bitlen ∧
    readReg s 0x2C = s.nsym.setWidth 32 ∧ readReg s 0x30 = s.errinfo ∧
    ∀ off, 0x34 ≤ off → off ≤ 0xFC → readReg s off = 0

/-- A defined register read returns the register's value and changes nothing but the host's read data (R24, R62). -/
def Obligations.RegisterReadsHaveNoSideEffect : Prop :=
  ∀ (s : State) (addr : Word) (rest : List HostAction), s.script = .regRead 4 addr :: rest →
    accessWellFormed 4 (windowOffset s.platform addr) = true →
    (s.phase = .idle →
      step s = .next { s with script := rest, rdata := readReg s (windowOffset s.platform addr) }) ∧
    (∀ n, s.phase = .run → s.wait = n + 1 →
      step s = .next { s with script := rest, wait := n, rdata := readReg s (windowOffset s.platform addr) })

/-- A write of a register other than CTRL and STATUS (R24, R27 to R30, R32, R36): while IDLE a parameter register takes
the word, PAD its low four bits, and nothing else changes; while RUN nothing changes. -/
def Obligations.ParameterWritesTakeEffectWhileIdleOnly : Prop :=
  ∀ (s : State) (addr v : Word) (rest : List HostAction) (off : Nat), s.script = .regWrite 4 addr v :: rest →
    off = windowOffset s.platform addr → accessWellFormed 4 off = true → off ≠ 0x08 → off ≠ 0x0C →
    (s.phase = .idle → ∃ t, step s = .next t ∧ t.phase = .idle ∧ t.mem = s.mem ∧ t.engine = s.engine ∧
      t.platform = s.platform ∧ t.script = rest ∧ t.rdata = s.rdata ∧ t.mdata = s.mdata ∧
      ∀ r, readReg t r =
        if r = off ∧ (off = 0x10 ∨ off = 0x14 ∨ off = 0x18 ∨ off = 0x1C) then v
        else if r = off ∧ off = 0x24 then v &&& 0xF#32
        else readReg s r) ∧
    (∀ n, s.phase = .run → s.wait = n + 1 → step s = .next { s with script := rest, wait := n })

/-- A register access that is not 32 bits wide or not 4-byte aligned is refused by name (R61). -/
def Obligations.UndefinedRegisterAccessesAreRefused : Prop :=
  ∀ (s : State) (size : Nat) (addr v : Word) (rest : List HostAction),
    (s.script = .regRead size addr :: rest ∨ s.script = .regWrite size addr v :: rest) →
    windowOffset s.platform addr < 256 → (size ≠ 4 ∨ windowOffset s.platform addr % 4 ≠ 0) →
    (s.phase = .idle ∨ s.wait ≠ 0) →
    step s = .refused (.undefinedRegisterAccess size (windowOffset s.platform addr))

/-- While RUN a host write to the source or the destination region is refused (R75, R296); any other host write stores
its byte and changes no other byte and no register. -/
def Obligations.HostStoresRespectTheEnginesOwnership : Prop :=
  ∀ (s : State) (a : Word) (v : Byte), hasSideEffect s.platform a.toNat = false → Memory.wf s.mem →
    (s.phase = .run ∧ ((s.engine.src.toNat ≤ a.toNat ∧ a.toNat < s.engine.src.toNat + s.engine.slen.toNat) ∨
        (s.engine.dst.toNat ≤ a.toNat ∧ a.toNat < s.engine.dst.toNat + s.engine.cap.toNat)) →
      hostAct (.memStore a v) s = .refused (.ownedByEngine a)) ∧
    (¬ (s.phase = .run ∧ ((s.engine.src.toNat ≤ a.toNat ∧ a.toNat < s.engine.src.toNat + s.engine.slen.toNat) ∨
        (s.engine.dst.toNat ≤ a.toNat ∧ a.toNat < s.engine.dst.toNat + s.engine.cap.toNat))) →
      ∃ t, hostAct (.memStore a v) s = .next t ∧ t = { s with mem := t.mem } ∧ Memory.wf t.mem ∧
        ∀ b, Memory.read t.mem b = if b = a.toNat then v else Memory.read s.mem b)

/-- A host read of a byte of the destination region while RUN returns some value that nothing constrains, and changes
nothing else; any other host read returns memory's byte (R75, R297). -/
def Obligations.HostLoadsReturnMemoryOutsideTheBusyDestination : Prop :=
  ∀ (s : State) (a : Word), hasSideEffect s.platform a.toNat = false →
    (∃ t, hostAct (.memLoad a) s = .next t ∧ t = { s with mdata := t.mdata, draws := t.draws }) ∧
    (¬ (s.phase = .run ∧ s.engine.dst.toNat ≤ a.toNat ∧ a.toNat < s.engine.dst.toNat + s.engine.cap.toNat) →
      hostAct (.memLoad a) s = .next { s with mdata := Memory.read s.mem a.toNat })

/-! ### The frequency counter and the table parser -/

/-- `count_table` (R150, R151): the table holds exactly the bytes of the input, in ascending order, with their exact
counts; it fails exactly on a count above 255, reported for the lowest such symbol, or else on all 256 symbols. -/
def Obligations.CountTableIsExactOrReportsTheOverflow : Prop :=
  ∀ S : Bytes,
    (∀ T, countTable S = .ok T →
      (T.map fun e => e.sym.toNat).Pairwise (· < ·) ∧ (∀ x, x ∈ S ↔ ∃ e ∈ T, e.sym = x) ∧
      (∀ e ∈ T, e.freq = S.count e.sym ∧ 1 ≤ e.freq ∧ e.freq ≤ 255) ∧ T.length ≤ 255 ∧
      (T.map Entry.freq).sum = S.length ∧ S.length ≤ 255 * 255) ∧
    (∀ s, countTable S = .error ⟨.frequencyOverflow, s⟩ ↔
      s < 256 ∧ 255 < S.count (BitVec.ofNat 8 s) ∧ ∀ r, r < s → S.count (BitVec.ofNat 8 r) ≤ 255) ∧
    (countTable S = .error ⟨.symbolCountOverflow, 256⟩ ↔ ∀ x : Byte, 1 ≤ S.count x ∧ S.count x ≤ 255) ∧
    (∀ e, countTable S = .error e → e = ⟨.symbolCountOverflow, 256⟩ ∨ e.kind = .frequencyOverflow)

/-- `parse_table` (R160): the table list is the K entries after the first byte, when K is not 0, none is missing, the
symbols are distinct and the frequencies are not 0; else MALFORMED_CONTAINER at the first check that fails. -/
def Obligations.ParseTableChecksInOrder : Prop :=
  ∀ S : Bytes,
    let K := (S.getD 0 0).toNat
    let sym := fun i => S.getD (1 + 2 * i) 0
    let freq := fun i => (S.getD (2 + 2 * i) 0).toNat
    (∀ T, parseTable S = .ok T ↔
      S ≠ [] ∧ K ≠ 0 ∧ 1 + 2 * K ≤ S.length ∧ (∀ i j, i < K → j < K → sym i = sym j → i = j) ∧
      (∀ i, i < K → freq i ≠ 0) ∧ T = (List.range K).map fun i => ⟨sym i, freq i⟩) ∧
    (∀ e, parseTable S = .error e → e.kind = .malformedContainer ∧
      ((S = [] ∨ K = 0) → e.info = 0) ∧
      (S ≠ [] → K ≠ 0 → S.length < 1 + 2 * K → e.info = S.length) ∧
      (S ≠ [] → K ≠ 0 → 1 + 2 * K ≤ S.length → ∃ i, i < K ∧
        (∀ j k, j < k → k < i → sym j ≠ sym k) ∧ (∀ j, j < i → freq j ≠ 0) ∧
        ((e.info = 1 + 2 * i ∧ ∃ j, j < i ∧ sym j = sym i) ∨
         (e.info = 2 + 2 * i ∧ (∀ j, j < i → sym j ≠ sym i) ∧ freq i = 0))))

/-! ### The tree and the codes -/

/-- The queue extracts the node with the smallest key (frequency, index) (R164). -/
def Obligations.ExtractionTakesTheSmallestKey : Prop :=
  ∀ (A : Arena) (pq rest : List Nat) (a : Nat), pq.Nodup → extractMin A pq = some (a, rest) →
    a ∈ pq ∧ rest = pq.erase a ∧
    ∀ x ∈ rest, arenaFreq A a < arenaFreq A x ∨ (arenaFreq A a = arenaFreq A x ∧ a < x)

/-- The arena (R162, R163, R166, R167): leaf i is node i, nodes K to 2K - 2 are internal, the root is node 2K - 2; an
internal node's frequency is the sum of its children's and fits 16 bits, its children come before it, and the left
child's key is below the right child's.  The merge takes the two smallest keys of the queue (R164, R165): when node i is
made of l and r, every other node that is then queued, one below i that is no child of an internal node below i, has a
key above r's. -/
def Obligations.BuiltTreeHasTheSpecifiedShape : Prop :=
  ∀ T : Table, LegalTable T →
    let A := (buildTree T).1
    let K := T.length
    A.length = 2 * K - 1 ∧ (buildTree T).2 = 2 * K - 2 ∧ (buildRun T).2 = [2 * K - 2] ∧
    (∀ (i : Nat) (e : Entry), T[i]? = some e → A[i]? = some (Node.leaf e.freq e.sym)) ∧
    (∀ i, K ≤ i → i < 2 * K - 1 → ∃ l r, A[i]? = some (Node.internal (arenaFreq A l + arenaFreq A r) l r) ∧
      l < i ∧ r < i ∧ keyLess A l r = true ∧
      (∀ y ∈ [l, r], ∀ p f a b, p < i → A[p]? = some (Node.internal f a b) → y ≠ a ∧ y ≠ b) ∧
      ∀ x, x < i → x ≠ l → x ≠ r →
        (∀ p f a b, p < i → A[p]? = some (Node.internal f a b) → x ≠ a ∧ x ≠ b) → keyLess A r x = true) ∧
    ∀ i, arenaFreq A i < 2 ^ 16

/-- Each node has exactly one parent except the root, which has none (R43). -/
def Obligations.EveryNodeButTheRootHasOneParent : Prop :=
  ∀ T : Table, LegalTable T →
    let A := (buildTree T).1
    ∀ n : Nat, n < A.length →
      if n = (buildTree T).2 then ∀ p f l r : Nat, A[p]? = some (Node.internal f l r) → n ≠ l ∧ n ≠ r
      else ∃ p : Nat, (∃ f l r : Nat, A[p]? = some (Node.internal f l r) ∧ (n = l ∨ n = r)) ∧
        ∀ q f l r : Nat, A[q]? = some (Node.internal f l r) → (n = l ∨ n = r) → q = p

/-- A code is the path from the root to its symbol's leaf, left = 0 and right = 1, for K of at least 2: it leads to that
leaf and reaches no leaf before its end; for K = 1 the one symbol's code is "0" (R168, R169). -/
def Obligations.CodesAreThePathsOfTheLeaves : Prop :=
  ∀ T : Table, LegalTable T →
    (2 ≤ T.length → ∀ x c, codeOf (codesOf T) x = some c →
      leafSym (buildTree T).1 (c.foldl (childOf (buildTree T).1) (buildTree T).2) = some x ∧
      ∀ p, p <+: c → p ≠ c → leafSym (buildTree T).1 (p.foldl (childOf (buildTree T).1) (buildTree T).2) = none) ∧
    (∀ e, T = [e] → codeOf (codesOf T) e.sym = some [false])

/-- Exactly the symbols of the table list have a code, each of 1 to max(1, K - 1) bits, and no code is a prefix of another
(R168, R170). -/
def Obligations.CodesAreNonEmptyAndPrefixFree : Prop :=
  ∀ T : Table, LegalTable T →
    (∀ x, (codeOf (codesOf T) x).isSome = true ↔ x ∈ T.map Entry.sym) ∧
    (∀ x c, codeOf (codesOf T) x = some c → 1 ≤ c.length ∧ c.length ≤ max 1 (T.length - 1)) ∧
    (∀ x y c d, codeOf (codesOf T) x = some c → codeOf (codesOf T) y = some d → c <+: d → x = y)

/-- For K of at least 2 every bit sequence has a code as a prefix or is a proper prefix of a code (R170). -/
def Obligations.CodesAreComplete : Prop :=
  ∀ T : Table, LegalTable T → 2 ≤ T.length → ∀ b : Bits,
    ∃ x c, codeOf (codesOf T) x = some c ∧ (c <+: b ∨ (b <+: c ∧ b ≠ c))

/-! ### Packing and the codec -/

/-- `pack` (R190, R191): ceil(L/8) bytes and P = (8 - L mod 8) mod 8; bit 8j + k of the sequence is bit 7 - k of byte j,
and the bits after the sequence are 0. -/
def Obligations.PackPlacesEveryBit : Prop :=
  ∀ b : Bits, (pack b).2 = (8 - b.length % 8) % 8 ∧ (pack b).1.length = (b.length + 7) / 8 ∧
    ∀ j k, j < (pack b).1.length → k < 8 → ((pack b).1.getD j 0).getLsbD (7 - k) = b.getD (8 * j + k) false

/-- The packer's round trip (R193), in both directions: pack after unpack gives the bytes back exactly when the padding
bits are zero. -/
def Obligations.UnpackInvertsPack : Prop :=
  (∀ b : Bits, unpack (pack b).1 (pack b).2 = b) ∧
  ∀ (B : Bytes) (P : Nat), P ≤ 7 → (B ≠ [] ∨ P = 0) →
    (pack (unpack B P) = (B, P) ↔ ∀ k, k < P → (B.getLastD 0).getLsbD k = false)

/-- The packer's accumulator machine of R46 emits exactly the bytes of `pack`. -/
def Obligations.PackerMachineEmitsThePackedBytes : Prop :=
  ∀ b : Bits, packerFlush (packerRun b) = (pack b).1 ∧ (packerRun b).len = b.length ∧
    (packerRun b).fill = b.length % 8

/-- The decoder walker always gives the result of the candidate-matching decoder, the error and its ERRINFO included
(R214). -/
def Obligations.TreeWalkingDecoderEqualsCandidateDecoder : Prop :=
  ∀ (T : Table) (bits : Bits), LegalTable T →
    walkDecode (buildTree T).1 (buildTree T).2 T.length bits = decodeBits (codesOf T) bits

/-- `parse_container` accepts exactly the well-formed containers (R117) and answers the K entries at their offsets, the
byte 1 + 2K as the padding count and the bytes from 2 + 2K on as the body (R212); otherwise it raises the table list's
error, or MALFORMED_CONTAINER with M when the byte P is missing, with 1 + 2K when P > 7 or when P is not 0 and the body
is empty.  `decode` (R213) answers the symbols whose codes the bits are, or raises UNKNOWN_CODE_AT_END_OF_STREAM with the
number of bits left over after them.  COMPRESS's own errors are `count_table`'s (R211), DECOMPRESS's those of
`parse_container` and then of `decode` (R215), and none on an empty source (R218).  Every container COMPRESS writes is
well formed and decodes exactly. -/
def Obligations.WellFormedContainersAreTheAcceptedOnes : Prop :=
  (∀ C : Bytes, C ≠ [] →
    let K := (C.getD 0 0).toNat
    let P := (C.getD (1 + 2 * K) 0).toNat
    (∀ c, parseContainer C = .ok c ↔ WellFormedContainer C ∧
      c = ⟨(List.range K).map fun i => ⟨C.getD (1 + 2 * i) 0, (C.getD (2 + 2 * i) 0).toNat⟩, P, C.drop (2 + 2 * K)⟩) ∧
    (∀ e, parseContainer C = .error e ↔ parseTable C = .error e ∨ ((∃ T, parseTable C = .ok T) ∧
      ((C.length < 2 + 2 * K ∧ e = ⟨.malformedContainer, C.length⟩) ∨
       (2 + 2 * K ≤ C.length ∧ (7 < P ∨ (C.length = 2 + 2 * K ∧ P ≠ 0)) ∧ e = ⟨.malformedContainer, 1 + 2 * K⟩))))) ∧
  (∀ (T : Table) (bits : Bits), LegalTable T →
    (∀ out, decodeBits (codesOf T) bits = .ok out ↔ SplitsInto (codesOf T) bits out []) ∧
    (∀ e, decodeBits (codesOf T) bits = .error e ↔ ∃ out rest, SplitsInto (codesOf T) bits out rest ∧ rest ≠ [] ∧
      e = ⟨.unknownCodeAtEndOfStream, rest.length⟩)) ∧
  (∀ (S : Bytes) (pin : BitVec 4) (e : OpError),
    (compressOp S pin = .error e ↔ S ≠ [] ∧ countTable S = .error e) ∧
    (decompressOp S pin = .error e ↔ S ≠ [] ∧ (parseContainer S = .error e ∨
      ∃ c, parseContainer S = .ok c ∧ decodeBits (codesOf c.tbl) (unpack c.body c.pad) = .error e))) ∧
  (∀ (S : Bytes) (pin : BitVec 4) (r : OpOk), S ≠ [] → compressOp S pin = .ok r →
    WellFormedContainer r.out ∧ ∃ c, parseContainer r.out = .ok c ∧
      decodeBits (codesOf c.tbl) (unpack c.body c.pad) = .ok S)

/-- The size of a container (R116): 2 + 2K + ceil(L/8) bytes, L the sum of f_i * len(code of s_i), below 2^24. -/
def Obligations.ContainerSizeIsAsStated : Prop :=
  ∀ (S : Bytes) (pin : BitVec 4) (r : OpOk) (T : Table), S ≠ [] → countTable S = .ok T → compressOp S pin = .ok r →
    r.bitlen = (T.map fun e => e.freq * ((codeOf (codesOf T) e.sym).getD []).length).sum ∧
    r.out.length = 2 + 2 * T.length + (r.bitlen + 7) / 8 ∧ r.bitlen < 2 ^ 24

/-- The round-trip law (R217): COMPRESS succeeds exactly on inputs with no byte value more than 255 times and fewer than
256 byte values, and DECOMPRESS of the container gives the input back, with the same PAD, BITLEN and NSYM. -/
def Obligations.DecompressInvertsCompress : Prop :=
  ∀ (B : Bytes) (pin pin' : BitVec 4),
    ((∃ r, compressOp B pin = .ok r) ↔ (∀ x : Byte, B.count x ≤ 255) ∧ ∃ x : Byte, x ∉ B) ∧
    ∀ r, compressOp B pin = .ok r →
      decompressOp r.out pin' = .ok { out := B, pad := r.pad, bitlen := r.bitlen, nsym := r.nsym }
end

