-- ==== Sys2Proof/Laws/Memory.lean ====
section
/-! SUPPORT. The laws of memory: read after write, other addresses alone, the canonical form kept, for one byte and for
a run of bytes; and the laws of address regions. -/

namespace Sys2Proof.Laws

open Sys2Proof.Machine

/-- The size of the DMA space as a numeral, for `omega`. -/
theorem dmaSize_eq : dmaSize = 4294967296 := rfl

/-! ### One byte -/

theorem read_of_lt_all {m : Memory} {a : Nat} (h : ∀ c ∈ m, a < c.1) : Memory.read m a = unlistedByte := by
  induction m with
  | nil => rfl
  | cons c rest ih =>
    obtain ⟨b, v⟩ := c
    have hb : a < b := h (b, v) (by simp)
    rw [Memory.read, if_neg (by omega)]
    exact ih fun c hc => h c (by simp [hc])

theorem read_cell_same {m : Memory} {a : Nat} {v : Byte} (h : ∀ c ∈ m, a < c.1) :
    Memory.read (Memory.cell a v m) a = v := by
  unfold Memory.cell
  split
  · next hv => rw [read_of_lt_all h, hv]
  · simp [Memory.read]

theorem read_cell_other {m : Memory} {a b : Nat} {v : Byte} (h : b ≠ a) :
    Memory.read (Memory.cell a v m) b = Memory.read m b := by
  unfold Memory.cell
  split
  · rfl
  · simp [Memory.read, h]

/-- A read after a write to the same address gives the value written. -/
theorem read_write_same {m : Memory} (h : m.Pairwise (fun x y => x.1 < y.1)) (a : Nat) (v : Byte) :
    Memory.read (Memory.write m a v) a = v := by
  induction m with
  | nil => exact read_cell_same (by simp)
  | cons c rest ih =>
    obtain ⟨b, w⟩ := c
    obtain ⟨hb, hr⟩ := List.pairwise_cons.mp h
    unfold Memory.write
    split
    · next hab =>
      refine read_cell_same fun c hc => ?_
      rcases List.mem_cons.mp hc with rfl | hc
      · exact hab
      · exact Nat.lt_trans hab (hb c hc)
    · split
      · next hab => subst hab; exact read_cell_same hb
      · next hab => simp [Memory.read, hab, ih hr]

/-- A write leaves every other address alone. -/
theorem read_write_other (m : Memory) {a b : Nat} (v : Byte) (h : b ≠ a) :
    Memory.read (Memory.write m a v) b = Memory.read m b := by
  induction m with
  | nil => exact read_cell_other h
  | cons c rest ih =>
    obtain ⟨k, w⟩ := c
    unfold Memory.write
    split
    · exact read_cell_other h
    · split
      · next hk => subst hk; rw [read_cell_other h]; simp [Memory.read, h]
      · simp [Memory.read, ih]

theorem mem_write {m : Memory} {a : Nat} {v : Byte} {c : Host.Cell} (h : c ∈ Memory.write m a v) :
    c ∈ m ∨ (c = (a, v) ∧ v ≠ unlistedByte) := by
  induction m with
  | nil =>
    unfold Memory.write Memory.cell at h
    split at h
    · simp at h
    · next hv => exact .inr ⟨by simpa using h, hv⟩
  | cons d rest ih =>
    obtain ⟨k, w⟩ := d
    unfold Memory.write Memory.cell at h
    split at h
    · split at h
      · exact .inl h
      · next hv =>
        rcases List.mem_cons.mp h with rfl | h
        · exact .inr ⟨rfl, hv⟩
        · exact .inl h
    · split at h
      · split at h
        · exact .inl (List.mem_cons_of_mem _ h)
        · next hv =>
          rcases List.mem_cons.mp h with rfl | h
          · exact .inr ⟨rfl, hv⟩
          · exact .inl (List.mem_cons_of_mem _ h)
      · rcases List.mem_cons.mp h with rfl | h
        · exact .inl (by simp)
        · rcases ih h with h | h
          · exact .inl (List.mem_cons_of_mem _ h)
          · exact .inr h

theorem write_sorted {m : Memory} (h : m.Pairwise (fun x y => x.1 < y.1)) (a : Nat) (v : Byte) :
    (Memory.write m a v).Pairwise (fun x y => x.1 < y.1) := by
  induction m with
  | nil => unfold Memory.write Memory.cell; split <;> simp
  | cons d rest ih =>
    obtain ⟨k, w⟩ := d
    obtain ⟨hk, hr⟩ := List.pairwise_cons.mp h
    unfold Memory.write Memory.cell
    split
    · next hak =>
      split
      · exact h
      · refine List.pairwise_cons.mpr ⟨fun c hc => ?_, h⟩
        rcases List.mem_cons.mp hc with rfl | hc
        · exact hak
        · exact Nat.lt_trans hak (hk c hc)
    · next hak =>
      split
      · next heq =>
        subst heq
        split
        · exact hr
        · exact List.pairwise_cons.mpr ⟨hk, hr⟩
      · next hne =>
        refine List.pairwise_cons.mpr ⟨fun c hc => ?_, ih hr⟩
        rcases mem_write hc with hc | ⟨rfl, -⟩
        · exact hk c hc
        · show k < a
          omega

/-- A write keeps the canonical form. -/
theorem write_wf {m : Memory} (h : Memory.wf m) {a : Nat} (ha : a < dmaSize) (v : Byte) :
    Memory.wf (Memory.write m a v) := by
  refine ⟨write_sorted h.1 a v, fun c hc => ?_⟩
  rcases mem_write hc with hc | ⟨rfl, hv⟩
  · exact h.2 c hc
  · exact ⟨ha, hv⟩

/-! ### A run of bytes -/

theorem writeBytes_sorted {m : Memory} (h : m.Pairwise (fun x y => x.1 < y.1)) (a : Nat) (vs : Bytes) :
    (Memory.writeBytes m a vs).Pairwise (fun x y => x.1 < y.1) := by
  induction vs generalizing m a with
  | nil => exact h
  | cons v vs ih => exact ih (write_sorted h a v) (a + 1)

/-- A run of writes inside the DMA space keeps the canonical form. -/
theorem writeBytes_wf {m : Memory} (h : Memory.wf m) {a : Nat} {vs : Bytes} (ha : a + vs.length ≤ dmaSize) :
    Memory.wf (Memory.writeBytes m a vs) := by
  induction vs generalizing m a with
  | nil => exact h
  | cons v vs ih =>
    simp only [List.length_cons] at ha
    exact ih (write_wf h (by omega) v) (by omega)

/-- A run of writes leaves every address outside it alone. -/
theorem read_writeBytes_outside (m : Memory) {a b : Nat} {vs : Bytes} (h : b < a ∨ a + vs.length ≤ b) :
    Memory.read (Memory.writeBytes m a vs) b = Memory.read m b := by
  induction vs generalizing m a with
  | nil => rfl
  | cons v vs ih =>
    simp only [List.length_cons] at h
    rw [Memory.writeBytes, ih _ (by omega), read_write_other _ _ (by omega)]

/-- A run of writes puts byte i of the run at address a + i. -/
theorem read_writeBytes_inside {m : Memory} (h : m.Pairwise (fun x y => x.1 < y.1)) {a i : Nat} {vs : Bytes}
    (hi : i < vs.length) : Memory.read (Memory.writeBytes m a vs) (a + i) = vs.getD i 0 := by
  induction vs generalizing m a i with
  | nil => simp at hi
  | cons v vs ih =>
    rw [Memory.writeBytes]
    cases i with
    | zero => simpa [read_write_same h] using
        read_writeBytes_outside (Memory.write m a v) (a := a + 1) (b := a) (vs := vs) (by omega)
    | succ i =>
      simp only [List.length_cons] at hi
      have := ih (write_sorted h a v) (a := a + 1) (i := i) (by omega)
      simpa [Nat.add_assoc, Nat.add_comm 1 i] using this

theorem scramble_wf {m : Memory} (h : Memory.wf m) {d a n : Nat} (ha : a + n ≤ dmaSize) :
    Memory.wf (Memory.scramble m d a n) :=
  writeBytes_wf h (by simpa [regionAddrs] using ha)

/-- Free bytes over [a, a+n) leave every other address alone. -/
theorem read_scramble_outside (m : Memory) {d a n b : Nat} (h : b < a ∨ a + n ≤ b) :
    Memory.read (Memory.scramble m d a n) b = Memory.read m b :=
  read_writeBytes_outside m (by simpa [regionAddrs] using h)

theorem readBytes_length (m : Memory) (a n : Nat) : (Memory.readBytes m a n).length = n := by
  simp [Memory.readBytes, regionAddrs]

/-! ### Regions -/

theorem mem_regionAddrs {base n a : Nat} : a ∈ regionAddrs base n ↔ base ≤ a ∧ a < base + n := by
  simp only [regionAddrs, List.mem_map, List.mem_range]
  constructor
  · rintro ⟨i, hi, rfl⟩; omega
  · intro h; exact ⟨a - base, by omega, by omega⟩

theorem inRegion_iff {base n a : Nat} : inRegion base n a = true ↔ base ≤ a ∧ a < base + n := by
  simp [inRegion]

/-- No address of a region is picked. -/
theorem lowestAddr_eq_none {p : Nat → Bool} {base n : Nat} :
    lowestAddr p base n = none ↔ ∀ a, base ≤ a → a < base + n → p a = false := by
  simp only [lowestAddr, List.find?_eq_none, mem_regionAddrs, Bool.not_eq_true]
  exact ⟨fun h a h1 h2 => h a ⟨h1, h2⟩, fun h a ha => h a ha.1 ha.2⟩

/-- The address found is in the region, is picked, and is the lowest such address. -/
theorem lowestAddr_eq_some {p : Nat → Bool} {base n a : Nat} (h : lowestAddr p base n = some a) :
    base ≤ a ∧ a < base + n ∧ p a = true ∧ ∀ b, base ≤ b → b < a → p b = false := by
  unfold lowestAddr regionAddrs at h
  rw [List.find?_map] at h
  obtain ⟨i, hi, rfl⟩ := Option.map_eq_some_iff.mp h
  obtain ⟨hp, as, bs, hl, hb⟩ := List.find?_eq_some_iff_append.mp hi
  have hmem : i ∈ List.range n := by rw [hl]; simp
  have hlen : ∀ j < i, j ∈ as := by
    intro j hj
    have hj' : j ∈ as ++ i :: bs := by
      rw [← hl]; exact List.mem_range.mpr (Nat.lt_trans hj (List.mem_range.mp hmem))
    have hs : (as ++ i :: bs).Pairwise (· < ·) := hl ▸ List.pairwise_lt_range
    rcases List.mem_append.mp hj' with h1 | h1
    · exact h1
    · rcases List.mem_cons.mp h1 with rfl | h1
      · omega
      · have := (List.pairwise_cons.mp (List.pairwise_append.mp hs).2.1).1 j h1
        omega
  refine ⟨Nat.le_add_right _ _, by have := List.mem_range.mp hmem; omega, by simpa using hp, fun b h1 h2 => ?_⟩
  have := hb (b - base) (hlen _ (by omega))
  have hb' : base + (b - base) = b := by omega
  simpa [hb'] using this

end Sys2Proof.Laws
end

