-- ==== Sys2Proof/Laws/State.lean ====
section
/-! SUPPORT. What each named update of State leaves in each field, so that no proof unfolds a record update. -/

namespace Sys2Proof.Laws

open Sys2Proof.Machine

/-! ### setIe -/

@[simp] theorem setIe_ctrlOp (ie : Bool) (s : State) :
    (setIe ie s).ctrlOp = s.ctrlOp := rfl

@[simp] theorem setIe_ctrlIe (ie : Bool) (s : State) :
    (setIe ie s).ctrlIe = ie := rfl

@[simp] theorem setIe_done (ie : Bool) (s : State) :
    (setIe ie s).done = s.done := rfl

@[simp] theorem setIe_errcode (ie : Bool) (s : State) :
    (setIe ie s).errcode = s.errcode := rfl

@[simp] theorem setIe_srcAddr (ie : Bool) (s : State) :
    (setIe ie s).srcAddr = s.srcAddr := rfl

@[simp] theorem setIe_srcLen (ie : Bool) (s : State) :
    (setIe ie s).srcLen = s.srcLen := rfl

@[simp] theorem setIe_dstAddr (ie : Bool) (s : State) :
    (setIe ie s).dstAddr = s.dstAddr := rfl

@[simp] theorem setIe_dstCap (ie : Bool) (s : State) :
    (setIe ie s).dstCap = s.dstCap := rfl

@[simp] theorem setIe_outLen (ie : Bool) (s : State) :
    (setIe ie s).outLen = s.outLen := rfl

@[simp] theorem setIe_pad (ie : Bool) (s : State) :
    (setIe ie s).pad = s.pad := rfl

@[simp] theorem setIe_bitlen (ie : Bool) (s : State) :
    (setIe ie s).bitlen = s.bitlen := rfl

@[simp] theorem setIe_nsym (ie : Bool) (s : State) :
    (setIe ie s).nsym = s.nsym := rfl

@[simp] theorem setIe_errinfo (ie : Bool) (s : State) :
    (setIe ie s).errinfo = s.errinfo := rfl

@[simp] theorem setIe_phase (ie : Bool) (s : State) :
    (setIe ie s).phase = s.phase := rfl

@[simp] theorem setIe_engine (ie : Bool) (s : State) :
    (setIe ie s).engine = s.engine := rfl

@[simp] theorem setIe_mem (ie : Bool) (s : State) :
    (setIe ie s).mem = s.mem := rfl

@[simp] theorem setIe_platform (ie : Bool) (s : State) :
    (setIe ie s).platform = s.platform := rfl

@[simp] theorem setIe_wait (ie : Bool) (s : State) :
    (setIe ie s).wait = s.wait := rfl

@[simp] theorem setIe_draws (ie : Bool) (s : State) :
    (setIe ie s).draws = s.draws := rfl

@[simp] theorem setIe_script (ie : Bool) (s : State) :
    (setIe ie s).script = s.script := rfl

@[simp] theorem setIe_rdata (ie : Bool) (s : State) :
    (setIe ie s).rdata = s.rdata := rfl

@[simp] theorem setIe_mdata (ie : Bool) (s : State) :
    (setIe ie s).mdata = s.mdata := rfl

/-! ### setOpIe -/

@[simp] theorem setOpIe_ctrlOp (o : BitVec 4) (ie : Bool) (s : State) :
    (setOpIe o ie s).ctrlOp = o := rfl

@[simp] theorem setOpIe_ctrlIe (o : BitVec 4) (ie : Bool) (s : State) :
    (setOpIe o ie s).ctrlIe = ie := rfl

@[simp] theorem setOpIe_done (o : BitVec 4) (ie : Bool) (s : State) :
    (setOpIe o ie s).done = s.done := rfl

@[simp] theorem setOpIe_errcode (o : BitVec 4) (ie : Bool) (s : State) :
    (setOpIe o ie s).errcode = s.errcode := rfl

@[simp] theorem setOpIe_srcAddr (o : BitVec 4) (ie : Bool) (s : State) :
    (setOpIe o ie s).srcAddr = s.srcAddr := rfl

@[simp] theorem setOpIe_srcLen (o : BitVec 4) (ie : Bool) (s : State) :
    (setOpIe o ie s).srcLen = s.srcLen := rfl

@[simp] theorem setOpIe_dstAddr (o : BitVec 4) (ie : Bool) (s : State) :
    (setOpIe o ie s).dstAddr = s.dstAddr := rfl

@[simp] theorem setOpIe_dstCap (o : BitVec 4) (ie : Bool) (s : State) :
    (setOpIe o ie s).dstCap = s.dstCap := rfl

@[simp] theorem setOpIe_outLen (o : BitVec 4) (ie : Bool) (s : State) :
    (setOpIe o ie s).outLen = s.outLen := rfl

@[simp] theorem setOpIe_pad (o : BitVec 4) (ie : Bool) (s : State) :
    (setOpIe o ie s).pad = s.pad := rfl

@[simp] theorem setOpIe_bitlen (o : BitVec 4) (ie : Bool) (s : State) :
    (setOpIe o ie s).bitlen = s.bitlen := rfl

@[simp] theorem setOpIe_nsym (o : BitVec 4) (ie : Bool) (s : State) :
    (setOpIe o ie s).nsym = s.nsym := rfl

@[simp] theorem setOpIe_errinfo (o : BitVec 4) (ie : Bool) (s : State) :
    (setOpIe o ie s).errinfo = s.errinfo := rfl

@[simp] theorem setOpIe_phase (o : BitVec 4) (ie : Bool) (s : State) :
    (setOpIe o ie s).phase = s.phase := rfl

@[simp] theorem setOpIe_engine (o : BitVec 4) (ie : Bool) (s : State) :
    (setOpIe o ie s).engine = s.engine := rfl

@[simp] theorem setOpIe_mem (o : BitVec 4) (ie : Bool) (s : State) :
    (setOpIe o ie s).mem = s.mem := rfl

@[simp] theorem setOpIe_platform (o : BitVec 4) (ie : Bool) (s : State) :
    (setOpIe o ie s).platform = s.platform := rfl

@[simp] theorem setOpIe_wait (o : BitVec 4) (ie : Bool) (s : State) :
    (setOpIe o ie s).wait = s.wait := rfl

@[simp] theorem setOpIe_draws (o : BitVec 4) (ie : Bool) (s : State) :
    (setOpIe o ie s).draws = s.draws := rfl

@[simp] theorem setOpIe_script (o : BitVec 4) (ie : Bool) (s : State) :
    (setOpIe o ie s).script = s.script := rfl

@[simp] theorem setOpIe_rdata (o : BitVec 4) (ie : Bool) (s : State) :
    (setOpIe o ie s).rdata = s.rdata := rfl

@[simp] theorem setOpIe_mdata (o : BitVec 4) (ie : Bool) (s : State) :
    (setOpIe o ie s).mdata = s.mdata := rfl

/-! ### clearDone -/

@[simp] theorem clearDone_ctrlOp (s : State) :
    (clearDone s).ctrlOp = s.ctrlOp := rfl

@[simp] theorem clearDone_ctrlIe (s : State) :
    (clearDone s).ctrlIe = s.ctrlIe := rfl

@[simp] theorem clearDone_done (s : State) :
    (clearDone s).done = false := rfl

@[simp] theorem clearDone_errcode (s : State) :
    (clearDone s).errcode = s.errcode := rfl

@[simp] theorem clearDone_srcAddr (s : State) :
    (clearDone s).srcAddr = s.srcAddr := rfl

@[simp] theorem clearDone_srcLen (s : State) :
    (clearDone s).srcLen = s.srcLen := rfl

@[simp] theorem clearDone_dstAddr (s : State) :
    (clearDone s).dstAddr = s.dstAddr := rfl

@[simp] theorem clearDone_dstCap (s : State) :
    (clearDone s).dstCap = s.dstCap := rfl

@[simp] theorem clearDone_outLen (s : State) :
    (clearDone s).outLen = s.outLen := rfl

@[simp] theorem clearDone_pad (s : State) :
    (clearDone s).pad = s.pad := rfl

@[simp] theorem clearDone_bitlen (s : State) :
    (clearDone s).bitlen = s.bitlen := rfl

@[simp] theorem clearDone_nsym (s : State) :
    (clearDone s).nsym = s.nsym := rfl

@[simp] theorem clearDone_errinfo (s : State) :
    (clearDone s).errinfo = s.errinfo := rfl

@[simp] theorem clearDone_phase (s : State) :
    (clearDone s).phase = s.phase := rfl

@[simp] theorem clearDone_engine (s : State) :
    (clearDone s).engine = s.engine := rfl

@[simp] theorem clearDone_mem (s : State) :
    (clearDone s).mem = s.mem := rfl

@[simp] theorem clearDone_platform (s : State) :
    (clearDone s).platform = s.platform := rfl

@[simp] theorem clearDone_wait (s : State) :
    (clearDone s).wait = s.wait := rfl

@[simp] theorem clearDone_draws (s : State) :
    (clearDone s).draws = s.draws := rfl

@[simp] theorem clearDone_script (s : State) :
    (clearDone s).script = s.script := rfl

@[simp] theorem clearDone_rdata (s : State) :
    (clearDone s).rdata = s.rdata := rfl

@[simp] theorem clearDone_mdata (s : State) :
    (clearDone s).mdata = s.mdata := rfl

/-! ### acceptStart -/

@[simp] theorem acceptStart_ctrlOp (o : BitVec 4) (ie : Bool) (s : State) :
    (acceptStart o ie s).ctrlOp = o := rfl

@[simp] theorem acceptStart_ctrlIe (o : BitVec 4) (ie : Bool) (s : State) :
    (acceptStart o ie s).ctrlIe = ie := rfl

@[simp] theorem acceptStart_done (o : BitVec 4) (ie : Bool) (s : State) :
    (acceptStart o ie s).done = false := rfl

@[simp] theorem acceptStart_errcode (o : BitVec 4) (ie : Bool) (s : State) :
    (acceptStart o ie s).errcode = 0 := rfl

@[simp] theorem acceptStart_srcAddr (o : BitVec 4) (ie : Bool) (s : State) :
    (acceptStart o ie s).srcAddr = s.srcAddr := rfl

@[simp] theorem acceptStart_srcLen (o : BitVec 4) (ie : Bool) (s : State) :
    (acceptStart o ie s).srcLen = s.srcLen := rfl

@[simp] theorem acceptStart_dstAddr (o : BitVec 4) (ie : Bool) (s : State) :
    (acceptStart o ie s).dstAddr = s.dstAddr := rfl

@[simp] theorem acceptStart_dstCap (o : BitVec 4) (ie : Bool) (s : State) :
    (acceptStart o ie s).dstCap = s.dstCap := rfl

@[simp] theorem acceptStart_outLen (o : BitVec 4) (ie : Bool) (s : State) :
    (acceptStart o ie s).outLen = 0 := rfl

@[simp] theorem acceptStart_pad (o : BitVec 4) (ie : Bool) (s : State) :
    (acceptStart o ie s).pad = s.pad := rfl

@[simp] theorem acceptStart_bitlen (o : BitVec 4) (ie : Bool) (s : State) :
    (acceptStart o ie s).bitlen = 0 := rfl

@[simp] theorem acceptStart_nsym (o : BitVec 4) (ie : Bool) (s : State) :
    (acceptStart o ie s).nsym = 0 := rfl

@[simp] theorem acceptStart_errinfo (o : BitVec 4) (ie : Bool) (s : State) :
    (acceptStart o ie s).errinfo = 0 := rfl

@[simp] theorem acceptStart_phase (o : BitVec 4) (ie : Bool) (s : State) :
    (acceptStart o ie s).phase = .run := rfl

@[simp] theorem acceptStart_engine (o : BitVec 4) (ie : Bool) (s : State) :
    (acceptStart o ie s).engine = latchOperands o s := rfl

@[simp] theorem acceptStart_mem (o : BitVec 4) (ie : Bool) (s : State) :
    (acceptStart o ie s).mem = s.mem := rfl

@[simp] theorem acceptStart_platform (o : BitVec 4) (ie : Bool) (s : State) :
    (acceptStart o ie s).platform = s.platform := rfl

@[simp] theorem acceptStart_wait (o : BitVec 4) (ie : Bool) (s : State) :
    (acceptStart o ie s).wait = Config.completionTime s.draws := rfl

@[simp] theorem acceptStart_draws (o : BitVec 4) (ie : Bool) (s : State) :
    (acceptStart o ie s).draws = s.draws + 1 := rfl

@[simp] theorem acceptStart_script (o : BitVec 4) (ie : Bool) (s : State) :
    (acceptStart o ie s).script = s.script := rfl

@[simp] theorem acceptStart_rdata (o : BitVec 4) (ie : Bool) (s : State) :
    (acceptStart o ie s).rdata = s.rdata := rfl

@[simp] theorem acceptStart_mdata (o : BitVec 4) (ie : Bool) (s : State) :
    (acceptStart o ie s).mdata = s.mdata := rfl

/-! ### setResult -/

@[simp] theorem setResult_ctrlOp (r : OpResult) (s : State) :
    (setResult r s).ctrlOp = s.ctrlOp := rfl

@[simp] theorem setResult_ctrlIe (r : OpResult) (s : State) :
    (setResult r s).ctrlIe = s.ctrlIe := rfl

@[simp] theorem setResult_done (r : OpResult) (s : State) :
    (setResult r s).done = s.done := rfl

@[simp] theorem setResult_errcode (r : OpResult) (s : State) :
    (setResult r s).errcode = s.errcode := rfl

@[simp] theorem setResult_srcAddr (r : OpResult) (s : State) :
    (setResult r s).srcAddr = s.srcAddr := rfl

@[simp] theorem setResult_srcLen (r : OpResult) (s : State) :
    (setResult r s).srcLen = s.srcLen := rfl

@[simp] theorem setResult_dstAddr (r : OpResult) (s : State) :
    (setResult r s).dstAddr = s.dstAddr := rfl

@[simp] theorem setResult_dstCap (r : OpResult) (s : State) :
    (setResult r s).dstCap = s.dstCap := rfl

@[simp] theorem setResult_outLen (r : OpResult) (s : State) :
    (setResult r s).outLen = s.outLen := rfl

@[simp] theorem setResult_pad (r : OpResult) (s : State) :
    (setResult r s).pad = s.pad := rfl

@[simp] theorem setResult_bitlen (r : OpResult) (s : State) :
    (setResult r s).bitlen = s.bitlen := rfl

@[simp] theorem setResult_nsym (r : OpResult) (s : State) :
    (setResult r s).nsym = s.nsym := rfl

@[simp] theorem setResult_errinfo (r : OpResult) (s : State) :
    (setResult r s).errinfo = s.errinfo := rfl

@[simp] theorem setResult_phase (r : OpResult) (s : State) :
    (setResult r s).phase = s.phase := rfl

@[simp] theorem setResult_engine (r : OpResult) (s : State) :
    (setResult r s).engine = { s.engine with result := r } := rfl

@[simp] theorem setResult_mem (r : OpResult) (s : State) :
    (setResult r s).mem = s.mem := rfl

@[simp] theorem setResult_platform (r : OpResult) (s : State) :
    (setResult r s).platform = s.platform := rfl

@[simp] theorem setResult_wait (r : OpResult) (s : State) :
    (setResult r s).wait = s.wait := rfl

@[simp] theorem setResult_draws (r : OpResult) (s : State) :
    (setResult r s).draws = s.draws := rfl

@[simp] theorem setResult_script (r : OpResult) (s : State) :
    (setResult r s).script = s.script := rfl

@[simp] theorem setResult_rdata (r : OpResult) (s : State) :
    (setResult r s).rdata = s.rdata := rfl

@[simp] theorem setResult_mdata (r : OpResult) (s : State) :
    (setResult r s).mdata = s.mdata := rfl

/-! ### completeError -/

@[simp] theorem completeError_ctrlOp (e : OpError) (s : State) :
    (completeError e s).ctrlOp = s.ctrlOp := rfl

@[simp] theorem completeError_ctrlIe (e : OpError) (s : State) :
    (completeError e s).ctrlIe = s.ctrlIe := rfl

@[simp] theorem completeError_done (e : OpError) (s : State) :
    (completeError e s).done = true := rfl

@[simp] theorem completeError_errcode (e : OpError) (s : State) :
    (completeError e s).errcode = errCode e.kind := rfl

@[simp] theorem completeError_srcAddr (e : OpError) (s : State) :
    (completeError e s).srcAddr = s.srcAddr := rfl

@[simp] theorem completeError_srcLen (e : OpError) (s : State) :
    (completeError e s).srcLen = s.srcLen := rfl

@[simp] theorem completeError_dstAddr (e : OpError) (s : State) :
    (completeError e s).dstAddr = s.dstAddr := rfl

@[simp] theorem completeError_dstCap (e : OpError) (s : State) :
    (completeError e s).dstCap = s.dstCap := rfl

@[simp] theorem completeError_outLen (e : OpError) (s : State) :
    (completeError e s).outLen = 0 := rfl

@[simp] theorem completeError_pad (e : OpError) (s : State) :
    (completeError e s).pad = s.pad := rfl

@[simp] theorem completeError_bitlen (e : OpError) (s : State) :
    (completeError e s).bitlen = 0 := rfl

@[simp] theorem completeError_nsym (e : OpError) (s : State) :
    (completeError e s).nsym = 0 := rfl

@[simp] theorem completeError_errinfo (e : OpError) (s : State) :
    (completeError e s).errinfo = BitVec.ofNat 32 e.info := rfl

@[simp] theorem completeError_phase (e : OpError) (s : State) :
    (completeError e s).phase = .idle := rfl

@[simp] theorem completeError_engine (e : OpError) (s : State) :
    (completeError e s).engine = s.engine := rfl

@[simp] theorem completeError_mem (e : OpError) (s : State) :
    (completeError e s).mem = s.mem := rfl

@[simp] theorem completeError_platform (e : OpError) (s : State) :
    (completeError e s).platform = s.platform := rfl

@[simp] theorem completeError_wait (e : OpError) (s : State) :
    (completeError e s).wait = s.wait := rfl

@[simp] theorem completeError_draws (e : OpError) (s : State) :
    (completeError e s).draws = s.draws := rfl

@[simp] theorem completeError_script (e : OpError) (s : State) :
    (completeError e s).script = s.script := rfl

@[simp] theorem completeError_rdata (e : OpError) (s : State) :
    (completeError e s).rdata = s.rdata := rfl

@[simp] theorem completeError_mdata (e : OpError) (s : State) :
    (completeError e s).mdata = s.mdata := rfl

/-! ### completeSuccess -/

@[simp] theorem completeSuccess_ctrlOp (r : OpOk) (s : State) :
    (completeSuccess r s).ctrlOp = s.ctrlOp := rfl

@[simp] theorem completeSuccess_ctrlIe (r : OpOk) (s : State) :
    (completeSuccess r s).ctrlIe = s.ctrlIe := rfl

@[simp] theorem completeSuccess_done (r : OpOk) (s : State) :
    (completeSuccess r s).done = true := rfl

@[simp] theorem completeSuccess_errcode (r : OpOk) (s : State) :
    (completeSuccess r s).errcode = s.errcode := rfl

@[simp] theorem completeSuccess_srcAddr (r : OpOk) (s : State) :
    (completeSuccess r s).srcAddr = s.srcAddr := rfl

@[simp] theorem completeSuccess_srcLen (r : OpOk) (s : State) :
    (completeSuccess r s).srcLen = s.srcLen := rfl

@[simp] theorem completeSuccess_dstAddr (r : OpOk) (s : State) :
    (completeSuccess r s).dstAddr = s.dstAddr := rfl

@[simp] theorem completeSuccess_dstCap (r : OpOk) (s : State) :
    (completeSuccess r s).dstCap = s.dstCap := rfl

@[simp] theorem completeSuccess_outLen (r : OpOk) (s : State) :
    (completeSuccess r s).outLen = BitVec.ofNat 32 r.out.length := rfl

@[simp] theorem completeSuccess_pad (r : OpOk) (s : State) :
    (completeSuccess r s).pad = r.pad.getD s.pad := rfl

@[simp] theorem completeSuccess_bitlen (r : OpOk) (s : State) :
    (completeSuccess r s).bitlen = BitVec.ofNat 32 r.bitlen := rfl

@[simp] theorem completeSuccess_nsym (r : OpOk) (s : State) :
    (completeSuccess r s).nsym = BitVec.ofNat 8 r.nsym := rfl

@[simp] theorem completeSuccess_errinfo (r : OpOk) (s : State) :
    (completeSuccess r s).errinfo = s.errinfo := rfl

@[simp] theorem completeSuccess_phase (r : OpOk) (s : State) :
    (completeSuccess r s).phase = .idle := rfl

@[simp] theorem completeSuccess_engine (r : OpOk) (s : State) :
    (completeSuccess r s).engine = s.engine := rfl

@[simp] theorem completeSuccess_mem (r : OpOk) (s : State) :
    (completeSuccess r s).mem = s.mem := rfl

@[simp] theorem completeSuccess_platform (r : OpOk) (s : State) :
    (completeSuccess r s).platform = s.platform := rfl

@[simp] theorem completeSuccess_wait (r : OpOk) (s : State) :
    (completeSuccess r s).wait = s.wait := rfl

@[simp] theorem completeSuccess_draws (r : OpOk) (s : State) :
    (completeSuccess r s).draws = s.draws := rfl

@[simp] theorem completeSuccess_script (r : OpOk) (s : State) :
    (completeSuccess r s).script = s.script := rfl

@[simp] theorem completeSuccess_rdata (r : OpOk) (s : State) :
    (completeSuccess r s).rdata = s.rdata := rfl

@[simp] theorem completeSuccess_mdata (r : OpOk) (s : State) :
    (completeSuccess r s).mdata = s.mdata := rfl

/-! ### resetDevice -/

@[simp] theorem resetDevice_ctrlOp (s : State) :
    (resetDevice s).ctrlOp = 0 := rfl

@[simp] theorem resetDevice_ctrlIe (s : State) :
    (resetDevice s).ctrlIe = false := rfl

@[simp] theorem resetDevice_done (s : State) :
    (resetDevice s).done = false := rfl

@[simp] theorem resetDevice_errcode (s : State) :
    (resetDevice s).errcode = 0 := rfl

@[simp] theorem resetDevice_srcAddr (s : State) :
    (resetDevice s).srcAddr = 0 := rfl

@[simp] theorem resetDevice_srcLen (s : State) :
    (resetDevice s).srcLen = 0 := rfl

@[simp] theorem resetDevice_dstAddr (s : State) :
    (resetDevice s).dstAddr = 0 := rfl

@[simp] theorem resetDevice_dstCap (s : State) :
    (resetDevice s).dstCap = 0 := rfl

@[simp] theorem resetDevice_outLen (s : State) :
    (resetDevice s).outLen = 0 := rfl

@[simp] theorem resetDevice_pad (s : State) :
    (resetDevice s).pad = 0 := rfl

@[simp] theorem resetDevice_bitlen (s : State) :
    (resetDevice s).bitlen = 0 := rfl

@[simp] theorem resetDevice_nsym (s : State) :
    (resetDevice s).nsym = 0 := rfl

@[simp] theorem resetDevice_errinfo (s : State) :
    (resetDevice s).errinfo = 0 := rfl

@[simp] theorem resetDevice_phase (s : State) :
    (resetDevice s).phase = .idle := rfl

@[simp] theorem resetDevice_engine (s : State) :
    (resetDevice s).engine = Config.freeEngine s.draws := rfl

@[simp] theorem resetDevice_platform (s : State) :
    (resetDevice s).platform = s.platform := rfl

@[simp] theorem resetDevice_wait (s : State) :
    (resetDevice s).wait = 0 := rfl

@[simp] theorem resetDevice_draws (s : State) :
    (resetDevice s).draws = s.draws + 1 := rfl

@[simp] theorem resetDevice_script (s : State) :
    (resetDevice s).script = s.script := rfl

@[simp] theorem resetDevice_rdata (s : State) :
    (resetDevice s).rdata = s.rdata := rfl

@[simp] theorem resetDevice_mdata (s : State) :
    (resetDevice s).mdata = s.mdata := rfl

/-! ### placeNext -/

@[simp] theorem placeNext_ctrlOp (act : HostAction) (s : State) :
    (placeNext act s).ctrlOp = s.ctrlOp := rfl

@[simp] theorem placeNext_ctrlIe (act : HostAction) (s : State) :
    (placeNext act s).ctrlIe = s.ctrlIe := rfl

@[simp] theorem placeNext_done (act : HostAction) (s : State) :
    (placeNext act s).done = s.done := rfl

@[simp] theorem placeNext_errcode (act : HostAction) (s : State) :
    (placeNext act s).errcode = s.errcode := rfl

@[simp] theorem placeNext_srcAddr (act : HostAction) (s : State) :
    (placeNext act s).srcAddr = s.srcAddr := rfl

@[simp] theorem placeNext_srcLen (act : HostAction) (s : State) :
    (placeNext act s).srcLen = s.srcLen := rfl

@[simp] theorem placeNext_dstAddr (act : HostAction) (s : State) :
    (placeNext act s).dstAddr = s.dstAddr := rfl

@[simp] theorem placeNext_dstCap (act : HostAction) (s : State) :
    (placeNext act s).dstCap = s.dstCap := rfl

@[simp] theorem placeNext_outLen (act : HostAction) (s : State) :
    (placeNext act s).outLen = s.outLen := rfl

@[simp] theorem placeNext_pad (act : HostAction) (s : State) :
    (placeNext act s).pad = s.pad := rfl

@[simp] theorem placeNext_bitlen (act : HostAction) (s : State) :
    (placeNext act s).bitlen = s.bitlen := rfl

@[simp] theorem placeNext_nsym (act : HostAction) (s : State) :
    (placeNext act s).nsym = s.nsym := rfl

@[simp] theorem placeNext_errinfo (act : HostAction) (s : State) :
    (placeNext act s).errinfo = s.errinfo := rfl

@[simp] theorem placeNext_phase (act : HostAction) (s : State) :
    (placeNext act s).phase = s.phase := rfl

@[simp] theorem placeNext_engine (act : HostAction) (s : State) :
    (placeNext act s).engine = s.engine := rfl

@[simp] theorem placeNext_mem (act : HostAction) (s : State) :
    (placeNext act s).mem = s.mem := rfl

@[simp] theorem placeNext_platform (act : HostAction) (s : State) :
    (placeNext act s).platform = s.platform := rfl

@[simp] theorem placeNext_draws (act : HostAction) (s : State) :
    (placeNext act s).draws = s.draws := rfl

@[simp] theorem placeNext_script (act : HostAction) (s : State) :
    (placeNext act s).script = act :: s.script := rfl

@[simp] theorem placeNext_rdata (act : HostAction) (s : State) :
    (placeNext act s).rdata = s.rdata := rfl

@[simp] theorem placeNext_mdata (act : HostAction) (s : State) :
    (placeNext act s).mdata = s.mdata := rfl

/-! ### The rest -/

theorem resetDevice_mem_idle (s : State) (h : s.phase = .idle) : (resetDevice s).mem = s.mem := by
  simp only [resetDevice, h]

theorem resetDevice_mem_run (s : State) (h : s.phase = .run) :
    (resetDevice s).mem = Memory.scramble s.mem s.draws s.engine.dst.toNat
      (min s.engine.cap.toNat (dmaSize - s.engine.dst.toNat)) := by
  simp only [resetDevice, h]

theorem placeNext_wait_idle (act : HostAction) (s : State) (h : s.phase = .idle) :
    (placeNext act s).wait = s.wait := by
  simp only [placeNext, h]

theorem placeNext_wait_run (act : HostAction) (s : State) (h : s.phase = .run) :
    (placeNext act s).wait = s.wait + 1 := by
  simp only [placeNext, h]

/-- The latches an accepted START fills (R38). -/
@[simp] theorem latchOperands_op (o : BitVec 4) (s : State) : (latchOperands o s).op = o := rfl
@[simp] theorem latchOperands_src (o : BitVec 4) (s : State) : (latchOperands o s).src = s.srcAddr := rfl
@[simp] theorem latchOperands_slen (o : BitVec 4) (s : State) : (latchOperands o s).slen = s.srcLen := rfl
@[simp] theorem latchOperands_dst (o : BitVec 4) (s : State) : (latchOperands o s).dst = s.dstAddr := rfl
@[simp] theorem latchOperands_cap (o : BitVec 4) (s : State) : (latchOperands o s).cap = s.dstCap := rfl
@[simp] theorem latchOperands_pin (o : BitVec 4) (s : State) : (latchOperands o s).pin = s.pad := rfl

end Sys2Proof.Laws
end

