-- ==== Sys2Proof/Laws/Units.lean ====
section
/-! SUPPORT. Small laws of the units: which internal structures they leave alone, and the lengths of their results. -/

namespace Sys2Proof.Laws

open Sys2Proof.Machine

/-! ### The latches -/

/-- Two engines hold the same latches (R38). -/
structure SameLatches (e e' : Engine) : Prop where
  op : e'.op = e.op
  src : e'.src = e.src
  slen : e'.slen = e.slen
  dst : e'.dst = e.dst
  cap : e'.cap = e.cap
  pin : e'.pin = e.pin

theorem SameLatches.refl (e : Engine) : SameLatches e e := ⟨rfl, rfl, rfl, rfl, rfl, rfl⟩

theorem SameLatches.trans {e1 e2 e3 : Engine} (h : SameLatches e1 e2) (h' : SameLatches e2 e3) :
    SameLatches e1 e3 :=
  ⟨h'.op.trans h.op, h'.src.trans h.src, h'.slen.trans h.slen, h'.dst.trans h.dst, h'.cap.trans h.cap,
    h'.pin.trans h.pin⟩

/-- The units of an operation change no latch (R38). -/
def KeepsLatches (units : Units) : Prop := ∀ S pin e, SameLatches e (units S pin e)

theorem loadTree_keepsLatches (T : Table) (e : Engine) : SameLatches e (loadTree T e) :=
  ⟨rfl, rfl, rfl, rfl, rfl, rfl⟩

theorem clearTree_keepsLatches (e : Engine) : SameLatches e (clearTree e) := ⟨rfl, rfl, rfl, rfl, rfl, rfl⟩

theorem loadPacker_keepsLatches (b : Bits) (e : Engine) : SameLatches e (loadPacker b e) :=
  ⟨rfl, rfl, rfl, rfl, rfl, rfl⟩

theorem loadUnpacker_keepsLatches (b : Bits) (e : Engine) : SameLatches e (loadUnpacker b e) :=
  ⟨rfl, rfl, rfl, rfl, rfl, rfl⟩

theorem loadWalker_keepsLatches (w : Walker) (e : Engine) : SameLatches e (loadWalker w e) :=
  ⟨rfl, rfl, rfl, rfl, rfl, rfl⟩

/-- CLEN holds the candidate length mod 2^32 (R47). -/
@[simp] theorem loadWalker_clen (w : Walker) (e : Engine) :
    (loadWalker w e).clen = BitVec.ofNat 32 w.candLen := rfl

theorem countUnits_keepsLatches : KeepsLatches countUnits := by
  intro S pin e
  unfold countUnits
  split <;> exact ⟨rfl, rfl, rfl, rfl, rfl, rfl⟩

theorem buildUnits_keepsLatches : KeepsLatches buildUnits := by
  intro S pin e
  unfold buildUnits
  split
  · exact clearTree_keepsLatches e
  · exact loadTree_keepsLatches _ e

theorem packUnits_keepsLatches : KeepsLatches packUnits := fun _ _ e => loadPacker_keepsLatches _ e

theorem unpackUnits_keepsLatches : KeepsLatches unpackUnits := by
  intro S pin e
  unfold unpackUnits
  split <;> exact loadUnpacker_keepsLatches _ e

theorem compressUnits_keepsLatches : KeepsLatches compressUnits := by
  intro S pin e
  have h := countUnits_keepsLatches S pin e
  unfold compressUnits
  split
  · exact h.trans ((clearTree_keepsLatches _).trans (loadPacker_keepsLatches _ _))
  · split
    · exact h.trans ((clearTree_keepsLatches _).trans (loadPacker_keepsLatches _ _))
    · exact h.trans ((loadTree_keepsLatches _ _).trans (loadPacker_keepsLatches _ _))

theorem decompressUnits_keepsLatches : KeepsLatches decompressUnits := by
  intro S pin e
  unfold decompressUnits
  split
  · exact (clearTree_keepsLatches _).trans ((loadUnpacker_keepsLatches _ _).trans (loadWalker_keepsLatches _ _))
  · exact (loadTree_keepsLatches _ _).trans ((loadUnpacker_keepsLatches _ _).trans (loadWalker_keepsLatches _ _))

/-! ### Lengths of tables -/

theorem presentEntries_length_le (S : Bytes) : (presentEntries S).length ≤ 256 := by
  simpa [presentEntries] using List.length_filterMap_le (fun s =>
    if symbolFreq S s ≥ 1 then some (⟨BitVec.ofNat 8 s, symbolFreq S s⟩ : Entry) else none) (List.range 256)

/-- What `count_table` returns, when it returns (R150). -/
theorem countTable_ok {S : Bytes} {T : Table} (h : countTable S = .ok T) :
    T = presentEntries S ∧ T.length ≤ 255 ∧ ∀ s, s < 256 → symbolFreq S s ≤ 255 := by
  unfold countTable at h
  split at h
  · cases h
  · next hf =>
    split at h
    · cases h
    · next hl =>
      cases h
      refine ⟨rfl, ?_, fun s hs => ?_⟩
      · have := presentEntries_length_le S; omega
      · have := List.find?_eq_none.mp hf s (by simpa using hs)
        simpa using this

theorem parseEntries_length {i n : Nat} {bytes seen : Bytes} {T : Table}
    (h : parseEntries i n bytes seen = .ok T) : T.length = n := by
  induction n generalizing i bytes seen T with
  | zero => cases bytes <;> (simp only [parseEntries] at h; cases h; rfl)
  | succ n ih =>
    match bytes with
    | [] => simp [parseEntries] at h
    | [_] => simp [parseEntries] at h
    | s :: f :: rest =>
      simp only [parseEntries] at h
      split at h
      · cases h
      · split at h
        · cases h
        · split at h
          · cases h
          · next T' hT => cases h; simp [ih hT]

/-- K of a parsed table list is its first byte, and at least 1 (R160). -/
theorem parseTable_length {S : Bytes} {T : Table} (h : parseTable S = .ok T) :
    T.length = (S.getD 0 0).toNat ∧ 1 ≤ T.length ∧ T.length ≤ 255 := by
  unfold parseTable at h
  split at h
  · cases h
  · next k rest =>
    split at h
    · cases h
    · next hk =>
      split at h
      · cases h
      · have hl := parseEntries_length h
        have hk0 : k.toNat ≠ 0 := fun h0 => hk (BitVec.eq_of_toNat_eq (by simpa using h0))
        have hlt := k.isLt
        refine ⟨by simpa using hl, by omega, by omega⟩

/-! ### The packer -/

theorem padCount_lt (L : Nat) : padCount L < 8 := by unfold padCount; omega

theorem padded_length_mod (b : Bits) : (padded b).length % 8 = 0 := by
  simp only [padded, padCount, List.length_append, List.length_replicate]; omega

theorem bitsOfByte_length (x : Byte) : (bitsOfByte x).length = 8 := by simp [bitsOfByte]

theorem flatMap_bitsOfByte_length (B : Bytes) : (B.flatMap bitsOfByte).length = 8 * B.length := by
  induction B with
  | nil => rfl
  | cons x xs ih => simp only [List.flatMap_cons, List.length_append, ih, bitsOfByte_length, List.length_cons]; omega

/-- `unpack` gives 8n - P bits (R192). -/
theorem unpack_length (B : Bytes) (P : Nat) : (unpack B P).length = 8 * B.length - P := by
  simp only [unpack, List.length_take, flatMap_bitsOfByte_length]; omega

/-! ### The queue -/

theorem argmin_mem (A : Arena) (x : Nat) (xs : List Nat) : argmin A x xs ∈ x :: xs := by
  induction xs generalizing x with
  | nil => simp [argmin]
  | cons y ys ih =>
    rw [argmin]
    rcases List.mem_cons.mp (ih (if keyLess A y x then y else x)) with h | h
    · rw [h]; split <;> simp
    · simp [h]

/-- Extraction takes one element out of the queue (R164). -/
theorem extractMin_spec {A : Arena} {pq pq' : List Nat} {a : Nat} (h : extractMin A pq = some (a, pq')) :
    a ∈ pq ∧ pq' = pq.erase a ∧ pq'.length + 1 = pq.length := by
  cases pq with
  | nil => cases h
  | cons x xs =>
    simp only [extractMin, Option.some.injEq, Prod.mk.injEq] at h
    obtain ⟨rfl, rfl⟩ := h
    have hm := argmin_mem A x xs
    refine ⟨hm, rfl, ?_⟩
    rw [List.length_erase_of_mem hm]
    simp

end Sys2Proof.Laws
end

