-- ==== Sys2Proof/Laws/Ops.lean ====
section
/-! SUPPORT. One lemma per shared operation that says once everything it can do; later proofs cite these and do not
unfold the operations. -/

namespace Sys2Proof.Laws

open Sys2Proof.Machine

variable {s t : State}

/-! ### START -/

/-- A START write while RUN writes IE only (R243). -/
theorem startOperation_run (o : BitVec 4) (c : Compute) (u : Units) (ie : Bool) (h : s.phase = .run) :
    startOperation o c u ie s = .next (setIe ie s) := by
  simp only [startOperation, h]

theorem startOperation_idle (o : BitVec 4) (c : Compute) (u : Units) (ie : Bool) (h : s.phase = .idle) :
    startOperation o c u ie s = readAndCompute c u (acceptStart o ie s) := by
  simp only [startOperation, h]

theorem startWithoutMemory_run (o : BitVec 4) (r : OpResult) (ie : Bool) (h : s.phase = .run) :
    startWithoutMemory o r ie s = .next (setIe ie s) := by
  simp only [startWithoutMemory, h]

theorem startWithoutMemory_idle (o : BitVec 4) (r : OpResult) (ie : Bool) (h : s.phase = .idle) :
    startWithoutMemory o r ie s = .next (setResult r (acceptStart o ie s)) := by
  simp only [startWithoutMemory, h]

/-- READ and COMPUTE end in the next state only with a region error, with an unreadable source, or with what the
operation computed from the snapshot (R130, R132). -/
theorem readAndCompute_cases {c : Compute} {u : Units} (h : readAndCompute c u s = .next t) :
    (∃ e, regionCheck s.engine = some e ∧ t = setResult (.raised e) s) ∨
    (regionCheck s.engine = none ∧ regionsTouchSideEffects s.platform s.engine = false ∧
      ∃ e, snapshot s.platform s.mem s.engine = .error e ∧ t = setResult (.raised e) s) ∨
    (regionCheck s.engine = none ∧ regionsTouchSideEffects s.platform s.engine = false ∧
      ∃ S, snapshot s.platform s.mem s.engine = .ok S ∧
        t = setResult (toResult (c S s.engine.pin))
          { s with engine := u S s.engine.pin { s.engine with snap := S } }) := by
  unfold readAndCompute at h
  split at h
  · next e he => cases h; exact .inl ⟨e, he, rfl⟩
  · next hr =>
    split at h
    · cases h
    · next hs =>
      have hs : regionsTouchSideEffects s.platform s.engine = false := by simpa using hs
      split at h
      · next e he => cases h; exact .inr (.inl ⟨hr, hs, e, he, rfl⟩)
      · next S hS => cases h; exact .inr (.inr ⟨hr, hs, S, hS, rfl⟩)

/-- READ and COMPUTE never fault, and refuse only a region with side effects (R66). -/
theorem readAndCompute_refused {c : Compute} {u : Units} {r : Refusal} (h : readAndCompute c u s = .refused r) :
    r = .sideEffectRegion ∧ regionsTouchSideEffects s.platform s.engine = true := by
  unfold readAndCompute at h
  split at h
  · cases h
  · split at h
    · next hs => cases h; exact ⟨rfl, hs⟩
    · split at h <;> cases h

theorem readAndCompute_not_fault {c : Compute} {u : Units} {f : Fault} : readAndCompute c u s ≠ .fault f := by
  unfold readAndCompute
  repeat' split
  all_goals simp

/-- The snapshot succeeds exactly when the source region is readable, and then holds its bytes (R133). -/
theorem snapshot_ok {p : Platform} {m : Memory} {e : Engine} {S : Bytes} (h : snapshot p m e = .ok S) :
    (∀ a, e.src.toNat ≤ a → a < e.src.toNat + e.slen.toNat → readable p a = true) ∧
    S = Memory.readBytes m e.src.toNat e.slen.toNat := by
  unfold snapshot at h
  split at h
  · cases h
  · next hn =>
    cases h
    refine ⟨fun a h1 h2 => ?_, rfl⟩
    simpa using lowestAddr_eq_none.mp hn a h1 h2

theorem snapshot_error {p : Platform} {m : Memory} {e : Engine} {x : OpError} (h : snapshot p m e = .error x) :
    ∃ a, x = ⟨.inputUnavailable, a⟩ ∧ e.src.toNat ≤ a ∧ a < e.src.toNat + e.slen.toNat ∧
      readable p a = false ∧ ∀ b, e.src.toNat ≤ b → b < a → readable p b = true := by
  unfold snapshot at h
  split at h
  · next a ha =>
    cases h
    obtain ⟨h1, h2, h3, h4⟩ := lowestAddr_eq_some ha
    exact ⟨a, rfl, h1, h2, by simpa using h3, fun b hb1 hb2 => by simpa using h4 b hb1 hb2⟩
  · cases h

/-! ### Completion -/

/-- The write phase and completion do one of four things (R135, R136, R69). -/
theorem writeOut_cases (r : OpOk) :
    (s.engine.cap.toNat < r.out.length ∧
      writeOut r s = .next (completeError ⟨.outputOverflow, r.out.length⟩ s)) ∨
    (r.out.length ≤ s.engine.cap.toNat ∧ dmaSize < s.engine.dst.toNat + r.out.length ∧
      writeOut r s = .fault .outsideDmaSpace) ∨
    (r.out.length ≤ s.engine.cap.toNat ∧ s.engine.dst.toNat + r.out.length ≤ dmaSize ∧ ∃ a,
      lowestAddr (fun a => !writable s.platform a) s.engine.dst.toNat r.out.length = some a ∧
      writeOut r s = .next (completeError ⟨.outputUnavailable, a⟩
        { s with mem := Memory.scramble s.mem s.draws s.engine.dst.toNat r.out.length, draws := s.draws + 1 })) ∨
    (r.out.length ≤ s.engine.cap.toNat ∧ s.engine.dst.toNat + r.out.length ≤ dmaSize ∧
      lowestAddr (fun a => !writable s.platform a) s.engine.dst.toNat r.out.length = none ∧
      writeOut r s = .next (completeSuccess r
        { s with mem := Memory.writeBytes s.mem s.engine.dst.toNat r.out })) := by
  unfold writeOut
  simp only
  by_cases h1 : r.out.length > s.engine.cap.toNat
  · exact .inl ⟨h1, if_pos h1⟩
  · rw [if_neg h1]
    by_cases h2 : s.engine.dst.toNat + r.out.length > dmaSize
    · exact .inr (.inl ⟨by omega, h2, if_pos h2⟩)
    · rw [if_neg h2]
      refine .inr (.inr ?_)
      cases h3 : lowestAddr (fun a => !writable s.platform a) s.engine.dst.toNat r.out.length with
      | some a => exact .inl ⟨by omega, by omega, a, rfl, rfl⟩
      | none => exact .inr ⟨by omega, by omega, rfl, rfl⟩

theorem completeOperation_raised {e : OpError} (h : s.engine.result = .raised e) :
    completeOperation s = .next (completeError e s) := by
  simp only [completeOperation, h]

theorem completeOperation_ok {r : OpOk} (h : s.engine.result = .ok r) : completeOperation s = writeOut r s := by
  simp only [completeOperation, h]

/-! ### Commands -/

/-- What a command can leave: IE alone while RUN; an accepted operation, whose engine holds the latches of the
parameter registers; OP and IE; the reset machine; DONE cleared; or nothing changed. -/
theorem exec_next_cases {i : Instr} (h : exec i s = .next t) :
    (s.phase = .run ∧ ∃ ie, t = setIe ie s) ∨
    (s.phase = .idle ∧ ∃ o ie e, Safety.startRow i = some (o, ie) ∧ SameLatches (latchOperands o s) e ∧
      t = { acceptStart o ie s with engine := e }) ∨
    (s.phase = .idle ∧ ∃ o ie, t = setOpIe o ie s) ∨
    (i = .srst ∧ t = resetDevice s) ∨ (i = .ack ∧ t = clearDone s) ∨ (i = .statusWriteNop ∧ t = s) := by
  have quiet : ∀ (o : BitVec 4) (r : OpResult) (ie : Bool), Safety.startRow i = some (o, ie) →
      startWithoutMemory o r ie s = .next t →
      (s.phase = .run ∧ ∃ ie, t = setIe ie s) ∨
      (s.phase = .idle ∧ ∃ o ie e, Safety.startRow i = some (o, ie) ∧ SameLatches (latchOperands o s) e ∧
        t = { acceptStart o ie s with engine := e }) := by
    intro o r ie hi hx
    cases hp : s.phase with
    | run => rw [startWithoutMemory_run o r ie hp] at hx; cases hx; exact .inl ⟨rfl, ie, rfl⟩
    | idle =>
      rw [startWithoutMemory_idle o r ie hp] at hx
      cases hx
      exact .inr ⟨rfl, o, ie, { latchOperands o s with result := r }, hi, ⟨rfl, rfl, rfl, rfl, rfl, rfl⟩, rfl⟩
  have busy : ∀ (o : BitVec 4) (c : Compute) (u : Units) (ie : Bool), KeepsLatches u →
      Safety.startRow i = some (o, ie) → startOperation o c u ie s = .next t →
      (s.phase = .run ∧ ∃ ie, t = setIe ie s) ∨
      (s.phase = .idle ∧ ∃ o ie e, Safety.startRow i = some (o, ie) ∧ SameLatches (latchOperands o s) e ∧
        t = { acceptStart o ie s with engine := e }) := by
    intro o c u ie hu hi hx
    cases hp : s.phase with
    | run => rw [startOperation_run o c u ie hp] at hx; cases hx; exact .inl ⟨rfl, ie, rfl⟩
    | idle =>
      rw [startOperation_idle o c u ie hp] at hx
      refine .inr ⟨rfl, o, ie, ?_⟩
      rcases readAndCompute_cases hx with ⟨e, -, rfl⟩ | ⟨-, -, e, -, rfl⟩ | ⟨-, -, S, -, rfl⟩
      · exact ⟨{ latchOperands o s with result := .raised e }, hi, ⟨rfl, rfl, rfl, rfl, rfl, rfl⟩, rfl⟩
      · exact ⟨{ latchOperands o s with result := .raised e }, hi, ⟨rfl, rfl, rfl, rfl, rfl, rfl⟩, rfl⟩
      · have k := hu S s.pad { latchOperands o s with snap := S }
        exact ⟨{ u S s.pad { latchOperands o s with snap := S } with result := toResult (c S s.pad) }, hi,
          ⟨k.op, k.src, k.slen, k.dst, k.cap, k.pin⟩, rfl⟩
  cases i with
  | count ie => exact (busy _ _ _ ie countUnits_keepsLatches rfl h).imp_right .inl
  | build ie => exact (busy _ _ _ ie buildUnits_keepsLatches rfl h).imp_right .inl
  | pack ie => exact (busy _ _ _ ie packUnits_keepsLatches rfl h).imp_right .inl
  | unpack ie => exact (busy _ _ _ ie unpackUnits_keepsLatches rfl h).imp_right .inl
  | compress ie => exact (busy _ _ _ ie compressUnits_keepsLatches rfl h).imp_right .inl
  | decompress ie => exact (busy _ _ _ ie decompressUnits_keepsLatches rfl h).imp_right .inl
  | nop ie => exact (quiet _ _ ie rfl h).imp_right .inl
  | reservedOp7 ie => exact (quiet _ _ ie rfl h).imp_right .inl
  | reservedOp8 ie => exact (quiet _ _ ie rfl h).imp_right .inl
  | reservedOp9 ie => exact (quiet _ _ ie rfl h).imp_right .inl
  | reservedOpA ie => exact (quiet _ _ ie rfl h).imp_right .inl
  | reservedOpB ie => exact (quiet _ _ ie rfl h).imp_right .inl
  | reservedOpC ie => exact (quiet _ _ ie rfl h).imp_right .inl
  | reservedOpD ie => exact (quiet _ _ ie rfl h).imp_right .inl
  | reservedOpE ie => exact (quiet _ _ ie rfl h).imp_right .inl
  | reservedOpF ie => exact (quiet _ _ ie rfl h).imp_right .inl
  | ieWrite op ie =>
    simp only [exec, execIeWrite] at h
    cases hp : s.phase with
    | idle => rw [hp] at h; cases h; exact .inr (.inr (.inl ⟨rfl, _, ie, rfl⟩))
    | run => rw [hp] at h; cases h; exact .inl ⟨rfl, ie, rfl⟩
  | srst => cases h; exact .inr (.inr (.inr (.inl ⟨rfl, rfl⟩)))
  | ack => cases h; exact .inr (.inr (.inr (.inr (.inl ⟨rfl, rfl⟩))))
  | statusWriteNop => cases h; exact .inr (.inr (.inr (.inr (.inr ⟨rfl, rfl⟩))))

/-! ### The step -/

theorem step_idle (h : s.phase = .idle) : step s = hostTurn s := by
  simp only [step, stepOnce, h]

theorem step_run_zero (h : s.phase = .run) (hw : s.wait = 0) : step s = completeOperation s := by
  simp only [step, stepOnce, h, hw]

theorem step_run_succ {n : Nat} (h : s.phase = .run) (hw : s.wait = n + 1) :
    step s = hostTurn { s with wait := n } := by
  simp only [step, stepOnce, h, hw]

theorem hostTurn_nil (h : s.script = []) : hostTurn s = .next s := by
  simp only [hostTurn, h]

theorem hostTurn_cons {act : HostAction} {rest : List HostAction} (h : s.script = act :: rest) :
    hostTurn s = hostAct act { s with script := rest } := by
  simp only [hostTurn, h]

end Sys2Proof.Laws
end

