-- ==== Sys2Proof/Laws/PerInstr.lean ====
section
/-! SUPPORT. A family of per-command lemmas: the encoding of every well-formed command fits its row of
spec/opcode_table.json. -/

namespace Sys2Proof.Laws.TableRow

/-- The word of a well-formed command matches the `match` of its row under the row's `mask`. -/
def Statement (i : Instr) : Prop :=
  i.wellFormed = true → (encode i).2 &&& (tableRow i).1 = (tableRow i).2

theorem nop (ie : Bool) : Statement (.nop ie) := by
  intro _; cases ie <;> decide

theorem count (ie : Bool) : Statement (.count ie) := by
  intro _; cases ie <;> decide

theorem build (ie : Bool) : Statement (.build ie) := by
  intro _; cases ie <;> decide

theorem pack (ie : Bool) : Statement (.pack ie) := by
  intro _; cases ie <;> decide

theorem unpack (ie : Bool) : Statement (.unpack ie) := by
  intro _; cases ie <;> decide

theorem compress (ie : Bool) : Statement (.compress ie) := by
  intro _; cases ie <;> decide

theorem decompress (ie : Bool) : Statement (.decompress ie) := by
  intro _; cases ie <;> decide

theorem reservedOp7 (ie : Bool) : Statement (.reservedOp7 ie) := by
  intro _; cases ie <;> decide

theorem reservedOp8 (ie : Bool) : Statement (.reservedOp8 ie) := by
  intro _; cases ie <;> decide

theorem reservedOp9 (ie : Bool) : Statement (.reservedOp9 ie) := by
  intro _; cases ie <;> decide

theorem reservedOpA (ie : Bool) : Statement (.reservedOpA ie) := by
  intro _; cases ie <;> decide

theorem reservedOpB (ie : Bool) : Statement (.reservedOpB ie) := by
  intro _; cases ie <;> decide

theorem reservedOpC (ie : Bool) : Statement (.reservedOpC ie) := by
  intro _; cases ie <;> decide

theorem reservedOpD (ie : Bool) : Statement (.reservedOpD ie) := by
  intro _; cases ie <;> decide

theorem reservedOpE (ie : Bool) : Statement (.reservedOpE ie) := by
  intro _; cases ie <;> decide

theorem reservedOpF (ie : Bool) : Statement (.reservedOpF ie) := by
  intro _; cases ie <;> decide

theorem ieWrite (op : Nat) (ie : Bool) : Statement (.ieWrite op ie) := by
  intro h
  have h16 : op < 16 := by simpa [Instr.wellFormed] using h
  interval_cases op <;> cases ie <;> decide

theorem srst : Statement .srst := by
  intro _; decide

theorem ack : Statement .ack := by
  intro _; decide

theorem statusWriteNop : Statement .statusWriteNop := by
  intro _; decide

end Sys2Proof.Laws.TableRow
end

