-- ==== Sys2Proof/Tests/Slice0.lean ====
section
/-! SUPPORT. The model's own tests.  Every expected value is taken from the spec: the encodings of 30_encoding.md and the
vectors of 95_test_vectors.md, whose ids the names carry.  The last part shows, for every statement with hypotheses, a
state and operands that meet them. -/

namespace Sys2Proof.Tests

open Sys2Proof.Machine Sys2Proof.Safety

-- one kernel evaluation at a time: side by side their stacks pass the checker's memory limit
set_option Elab.async false

/-! ### Helpers -/

/-- Bytes from numbers. -/
def bytes (l : List Nat) : Bytes := l.map (BitVec.ofNat 8)

/-- "aaabbc" (95_test_vectors.md, conventions). -/
def aaabbc : Bytes := bytes [0x61, 0x61, 0x61, 0x62, 0x62, 0x63]

/-- The container of "aaabbc" (V-CMP-1). -/
def aaabbcContainer : Bytes := bytes [0x03, 0x61, 0x03, 0x62, 0x02, 0x63, 0x01, 0x07, 0x1F, 0x00]

/-- The machine after reset with `src` at 0x1000, destination 0x2000 of `cap` bytes, and PAD. -/
def armed (src : Bytes) (cap : Nat) (pad : BitVec 4) : State :=
  { State.reset with
    srcAddr := 0x1000, srcLen := BitVec.ofNat 32 src.length, dstAddr := 0x2000, dstCap := BitVec.ofNat 32 cap
    pad := pad, mem := Memory.writeBytes [] 0x1000 src }

/-- Whether an outcome is a next state with a property. -/
def nextSat (o : Host.Outcome State Fault Refusal) (p : State → Bool) : Bool :=
  match o with
  | .next t => p t
  | .fault _ => false
  | .refused _ => false

/-- Whether an outcome is a given refusal. -/
def refusedAs (o : Host.Outcome State Fault Refusal) (r : Refusal) : Bool :=
  match o with
  | .next _ => false
  | .fault _ => false
  | .refused q => decide (q = r)

/-- A command, and then the completion at once. -/
def commandThenCompletion (i : Instr) (s : State) : Host.Outcome State Fault Refusal :=
  match exec i s with
  | .next t => step { t with wait := 0 }
  | .fault f => .fault f
  | .refused r => .refused r

/-! ### WellFormed refuses ill-formed terms -/

theorem test_wellFormed_refuses_wide_op : (Instr.ieWrite 16 false).wellFormed = false := by decide
theorem test_wellFormed_accepts_widest_op : (Instr.ieWrite 15 false).wellFormed = true := by decide
theorem test_access_refuses_byte_access : accessWellFormed 1 0x08 = false := by decide
theorem test_access_refuses_misaligned_offset : accessWellFormed 4 0x0A = false := by decide
theorem test_access_refuses_outside_window : accessWellFormed 4 0x100 = false := by decide
theorem test_access_accepts_last_slot : accessWellFormed 4 0xFC = true := by decide

/-! ### Decoding words written out from R90 to R97: START is bit 0, OP bits 7 to 4, IE bit 8, SRST bit 31 -/

theorem test_decode_nop :
    decode 0x08 0b00000000000000000000000100000001#32 = .ok (.nop true) := by decide
theorem test_decode_count :
    decode 0x08 0b00000000000000000000000000010001#32 = .ok (.count false) := by decide
theorem test_decode_build :
    decode 0x08 0b00000000000000000000000000100001#32 = .ok (.build false) := by decide
theorem test_decode_pack :
    decode 0x08 0b00000000000000000000000000110001#32 = .ok (.pack false) := by decide
theorem test_decode_unpack :
    decode 0x08 0b00000000000000000000000001000001#32 = .ok (.unpack false) := by decide
theorem test_decode_compress :
    decode 0x08 0b00000000000000000000000001010001#32 = .ok (.compress false) := by decide
theorem test_decode_decompress :
    decode 0x08 0b00000000000000000000000101100001#32 = .ok (.decompress true) := by decide
theorem test_decode_reservedOp7 :
    decode 0x08 0b00000000000000000000000001110001#32 = .ok (.reservedOp7 false) := by decide
theorem test_decode_reservedOp8 :
    decode 0x08 0b00000000000000000000000010000001#32 = .ok (.reservedOp8 false) := by decide
theorem test_decode_reservedOp9 :
    decode 0x08 0b00000000000000000000000010010001#32 = .ok (.reservedOp9 false) := by decide
theorem test_decode_reservedOpA :
    decode 0x08 0b00000000000000000000000010100001#32 = .ok (.reservedOpA false) := by decide
theorem test_decode_reservedOpB :
    decode 0x08 0b00000000000000000000000010110001#32 = .ok (.reservedOpB false) := by decide
theorem test_decode_reservedOpC :
    decode 0x08 0b00000000000000000000000011000001#32 = .ok (.reservedOpC false) := by decide
theorem test_decode_reservedOpD :
    decode 0x08 0b00000000000000000000000011010001#32 = .ok (.reservedOpD false) := by decide
theorem test_decode_reservedOpE :
    decode 0x08 0b00000000000000000000000011100001#32 = .ok (.reservedOpE false) := by decide
theorem test_decode_reservedOpF :
    decode 0x08 0b00000000000000000000000011110001#32 = .ok (.reservedOpF false) := by decide
theorem test_decode_ieWrite :
    decode 0x08 0b00000000000000000000000101010000#32 = .ok (.ieWrite 5 true) := by decide
theorem test_decode_srst_wins_over_start :
    decode 0x08 0b10000000000000000000000001010001#32 = .ok .srst := by decide
theorem test_decode_ack :
    decode 0x0C 0b11111111111111111111111111111111#32 = .ok .ack := by decide
theorem test_decode_statusWriteNop :
    decode 0x0C 0b11111111111111111111111111111101#32 = .ok .statusWriteNop := by decide
theorem test_decode_ignores_reserved_bits :
    decode 0x08 0b01111111111111111111111001011111#32 = .ok (.compress false) := by decide
theorem test_decode_rejects_other_registers :
    decode 0x24 0x00000001#32 = .error (.notACommandRegister 0x24) := by decide
theorem test_encode_start_decompress_ie : encode (.decompress true) = (0x08, 0x00000161#32) := by decide
theorem test_decodeTableWord_compress : decodeTableWord 32 0x00000051 = some (.compress false) := by decide
theorem test_decodeTableWord_ack : decodeTableWord 32 0x00000002 = some .ack := by decide
theorem test_decodeTableWord_ieWrite : decodeTableWord 32 0x00000100 = some (.ieWrite 0 true) := by decide

/-! ### Registers and control (V-CTL) -/

theorem test_ctl_1_id : readReg State.reset 0x00 = 0x48554646#32 := by decide
theorem test_ctl_2_reserved_offset : readReg State.reset 0x34 = 0 := by decide
theorem test_ctl_3_nop_with_interrupt :
    nextSat (commandThenCompletion (.nop true) State.reset) (fun u =>
      decide (readReg u 0x0C = 0x00000002#32) && irq u && decide (readReg u 0x08 = 0x00000100#32)) = true := by
  decide
theorem test_ctl_4_ack :
    nextSat (exec .ack { State.reset with done := true, ctrlIe := true, errcode := 2 }) (fun u =>
      decide (readReg u 0x0C = 0x00000204#32) && !irq u) = true := by decide
theorem test_ctl_6_ie_write_raises_irq :
    nextSat (exec (.ieWrite 0 true) { State.reset with done := true, ctrlOp := 5 }) (fun u =>
      irq u && decide (u.phase = .idle) && decide (readReg u 0x08 = 0x00000100#32)) = true := by decide
theorem test_ctl_7_reserved_op_f :
    nextSat (commandThenCompletion (.reservedOpF false) State.reset) (fun u =>
      decide (readReg u 0x0C = 0x00000806#32) && decide (readReg u 0x30 = 0x0000000F#32) &&
      decide (readReg u 0x08 = 0x000000F0#32)) = true := by decide
theorem test_ctl_8_reserved_op_7 :
    nextSat (commandThenCompletion (.reservedOp7 false) State.reset) (fun u =>
      decide (readReg u 0x0C = 0x00000806#32) && decide (readReg u 0x30 = 0x7#32)) = true := by decide
theorem test_ctl_10_pad_low_bits :
    readReg (writeReg 0x24 0xFFFFFFFF#32 State.reset) 0x24 = 0x0000000F#32 := by decide
theorem test_ctl_11_status_write :
    nextSat (step { State.reset with script := [.regWrite 4 0x0C 0xFFFFFFFF#32] }) (fun u =>
      decide (readReg u 0x0C = 0)) = true := by decide
theorem test_ctl_13_srst_while_run :
    nextSat (exec .srst { State.reset with phase := .run, ctrlOp := 5, ctrlIe := true, dstAddr := 7 }) (fun u =>
      decide (readReg u 0x0C = 0) && decide (readReg u 0x08 = 0) && decide (readReg u 0x18 = 0)) = true := by decide
theorem test_ctl_14_start_while_run :
    nextSat (step { State.reset with
      phase := .run, wait := 1, ctrlOp := 5, ctrlIe := true, script := [.regWrite 4 0x08 0x11#32] }) (fun u =>
      decide (u.ctrlOp = 5) && !u.ctrlIe && decide (u.phase = .run)) = true := by decide
theorem test_ctl_14_parameter_write_while_run :
    nextSat (step { State.reset with
      phase := .run, wait := 1, srcLen := 9, script := [.regWrite 4 0x14 5#32] }) (fun u =>
      decide (u.srcLen = 9)) = true := by decide
theorem test_step_base_of_the_window :
    nextSat (step { State.reset with
      platform := { htbBase := 0x40000000#32, unreadable := [], unwritable := [], sideEffect := [] }
      script := [.regWrite 4 0x40000010#32 0x1234#32] }) (fun u => decide (u.srcAddr = 0x1234#32)) = true := by decide

/-! ### The operations (V-CNT, V-BLD, V-PK, V-UPK, V-CMP, V-DEC) -/

theorem test_cnt_2_hello :
    countOp (bytes [0x68, 0x65, 0x6C, 0x6C, 0x6F]) 0 =
      .ok { out := bytes [0x04, 0x65, 0x01, 0x68, 0x01, 0x6C, 0x02, 0x6F, 0x01], nsym := 4 } := by decide +kernel
theorem test_cnt_5_256_copies :
    countOp (List.replicate 256 0x41) 0 = .error ⟨.frequencyOverflow, 0x41⟩ := by decide +kernel
theorem test_bld_5_order_decides_ties :
    buildOp (bytes [0x03, 0x62, 0x01, 0x61, 0x01, 0x63, 0x02]) 0 =
      .ok { out := bytes [0x62, 0x02, 0x80, 0x61, 0x02, 0xC0, 0x63, 0x01, 0x00], nsym := 3 } := by decide +kernel
theorem test_bld_16_zero_frequency :
    buildOp (bytes [0x03, 0x61, 0x03, 0x62, 0x00, 0x63, 0x01]) 0 = .error ⟨.malformedContainer, 4⟩ := by
  decide +kernel
theorem test_pk_4_nine_bits :
    packOp (bytes [0, 0, 0, 1, 1, 1, 1, 1, 0]) 0 = .ok { out := bytes [0x1F, 0x00], pad := some 7, bitlen := 9 } := by
  decide +kernel
theorem test_pk_9_invalid_bit : packOp (bytes [0x01, 0xFF, 0x02]) 0 = .error ⟨.invalidBit, 1⟩ := by decide +kernel
theorem test_upk_2_padding_not_checked : unpackOp (bytes [0xFF]) 7 = .ok { out := bytes [1], bitlen := 1 } := by
  decide +kernel
theorem test_upk_8_empty_with_padding : unpackOp [] 3 = .error ⟨.malformedContainer, 3⟩ := by decide +kernel
theorem test_cmp_1_aaabbc :
    compressOp aaabbc 0 = .ok { out := aaabbcContainer, pad := some 7, bitlen := 9, nsym := 3 } := by decide +kernel
theorem test_cmp_6a_ba :
    compressOp (bytes [0x62, 0x61]) 0 =
      .ok { out := bytes [0x02, 0x61, 0x01, 0x62, 0x01, 0x06, 0x80], pad := some 6, bitlen := 2, nsym := 2 } := by
  decide +kernel
theorem test_dec_9_left_over_bit :
    decompressOp (bytes [0x03, 0x61, 0x03, 0x62, 0x02, 0x63, 0x01, 0x00, 0x1F]) 0 =
      .error ⟨.unknownCodeAtEndOfStream, 1⟩ := by decide +kernel
theorem test_dec_13_single_symbol_dead :
    decompressOp (bytes [0x01, 0x7A, 0x01, 0x04, 0x40]) 0 = .error ⟨.unknownCodeAtEndOfStream, 3⟩ := by
  decide +kernel

/-- V-DEC-13's walk: three bits left over, and the walker dead (10_state.md R47). -/
theorem test_dec_13_walker_registers :
    (decompressUnits (bytes [0x01, 0x7A, 0x01, 0x04, 0x40]) 0 Engine.reset).clen = 3#32 ∧
    (decompressUnits (bytes [0x01, 0x7A, 0x01, 0x04, 0x40]) 0 Engine.reset).dead = true := by decide +kernel
/-- CLEN has 32 bits (10_state.md R47). -/
theorem test_clen_holds_32_bits :
    (loadWalker { cur := 0, candLen := 0x100000005, dead := true, out := [] } Engine.reset).clen = 5#32 := by
  rw [Laws.loadWalker_clen]; decide

/-! ### Whole operations -/

/-- Program P1: COMPRESS of "aaabbc" writes the container and the result registers. -/
theorem test_p1_compress :
    nextSat (commandThenCompletion (.compress false) (armed aaabbc 64 0)) (fun u =>
      decide (Memory.readBytes u.mem 0x2000 11 = aaabbcContainer ++ [0]) && decide (readReg u 0x0C = 0x00000002#32) &&
      decide (readReg u 0x20 = 10) && decide (readReg u 0x24 = 7) && decide (readReg u 0x28 = 9) &&
      decide (readReg u 0x2C = 3) && decide (readReg u 0x08 = 0x50)) = true := by decide +kernel

/-- Program P2: DECOMPRESS of that container gives "aaabbc" and raises irq. -/
theorem test_p2_decompress :
    nextSat (commandThenCompletion (.decompress true) (armed aaabbcContainer 16 0)) (fun u =>
      decide (Memory.readBytes u.mem 0x2000 6 = aaabbc) && irq u && decide (readReg u 0x20 = 6) &&
      decide (readReg u 0x24 = 7) && decide (readReg u 0x28 = 9)) = true := by decide +kernel

/-- V-CMP-15 and V-CMP-18: the region check. -/
theorem test_cmp_15_overlap :
    nextSat (commandThenCompletion (.compress false)
      { armed aaabbc 16 0 with dstAddr := 0x1004 }) (fun u =>
      decide (readReg u 0x0C = 0x00000906#32) && decide (readReg u 0x30 = 4)) = true := by decide +kernel
theorem test_cmp_18_both_wrap_and_overlap :
    regionInfo 0xFFFFFFF0 0x20 0xFFFFFFF8 0x10 = 7 := by decide

/-- V-CMP-19: the lowest unreadable address. -/
theorem test_cmp_19_unreadable :
    nextSat (commandThenCompletion (.compress false) { armed aaabbc 64 0 with
      platform := { htbBase := 0, unreadable := [⟨0x1003, 0x100000000⟩], unwritable := [], sideEffect := [] } }) (fun u =>
      decide (readReg u 0x0C = 0x00000106#32) && decide (readReg u 0x30 = 0x1003#32)) = true := by decide +kernel

/-- V-CMP-21: the lowest unwritable address. -/
theorem test_cmp_21_unwritable :
    nextSat (commandThenCompletion (.compress false) { armed aaabbc 64 0 with
      platform := { htbBase := 0, unreadable := [], unwritable := [⟨0x2005, 0x2006⟩], sideEffect := [] } }) (fun u =>
      decide (readReg u 0x0C = 0x00000706#32) && decide (readReg u 0x30 = 0x2005#32)) = true := by decide +kernel

/-- V-DEC-18: the capacity check, with the destination unchanged. -/
theorem test_dec_18_overflow :
    nextSat (commandThenCompletion (.decompress false) (armed aaabbcContainer 5 0)) (fun u =>
      decide (readReg u 0x0C = 0x00000606#32) && decide (readReg u 0x30 = 6) &&
      decide (Memory.readBytes u.mem 0x2000 5 = bytes [0, 0, 0, 0, 0])) = true := by decide +kernel

/-- Program P3: UNPACK with `pin` from PAD leaves PAD unchanged. -/
theorem test_p3_unpack :
    nextSat (commandThenCompletion (.unpack false) (armed (bytes [0x1F, 0x00]) 16 7)) (fun u =>
      decide (Memory.readBytes u.mem 0x2000 9 = bytes [0, 0, 0, 1, 1, 1, 1, 1, 0]) &&
      decide (readReg u 0x28 = 9) && decide (readReg u 0x24 = 7)) = true := by decide +kernel

theorem test_host_store_to_busy_source_is_refused :
    refusedAs (hostAct (.memStore 0x1000 1)
      { State.reset with phase := .run, engine := { Engine.reset with src := 0x1000, slen := 1 } })
      (.ownedByEngine 0x1000) = true := by decide
theorem test_unaligned_access_is_refused :
    refusedAs (step { State.reset with script := [.regRead 4 0x0A] }) (.undefinedRegisterAccess 4 0x0A) = true := by
  decide
theorem test_access_outside_window_is_refused :
    refusedAs (step { State.reset with script := [.regRead 4 0x100] }) (.outsideRegisterWindow 0x100) = true := by
  decide
theorem test_side_effect_region_is_refused :
    refusedAs (exec (.pack false) { armed (bytes [1]) 8 0 with
      platform := { htbBase := 0, unreadable := [], unwritable := [], sideEffect := [⟨0x2003, 0x2004⟩] } })
      .sideEffectRegion = true := by decide +kernel
theorem test_wait_polls_until_done :
    nextSat (step { State.reset with phase := .run, wait := 1, script := [.waitDone] }) (fun u =>
      decide (u.script = [.waitDone]) && decide (u.rdata = 1)) = true := by decide

/-! ### Witnesses: states and operands that meet the hypotheses of the statements, clause by clause -/

theorem armed_srcLen {src : Bytes} (cap : Nat) (pad : BitVec 4) (h : src.length ≤ 0x1000) :
    (armed src cap pad).srcLen.toNat = src.length := by
  simp only [armed, BitVec.toNat_ofNat]; omega

theorem armed_dstCap (src : Bytes) {cap : Nat} (pad : BitVec 4) (h : cap ≤ 0x1000) :
    (armed src cap pad).dstCap.toNat = cap := by
  simp only [armed, BitVec.toNat_ofNat]; omega

/-- Every armed state can run an operation. -/
theorem armed_executable {src : Bytes} {cap : Nat} (pad : BitVec 4) (hs : src.length ≤ 0x1000)
    (hc : cap ≤ 0x1000) : Executable (armed src cap pad) := by
  have h1 : (armed src cap pad).srcAddr.toNat = 0x1000 := rfl
  have h2 : (armed src cap pad).dstAddr.toNat = 0x2000 := rfl
  refine ⟨rfl, ⟨?_, ?_, fun a => ?_⟩, fun a _ => rfl, fun a _ => rfl, ?_⟩
  · rw [h1, armed_srcLen cap pad hs, Laws.dmaSize_eq]; omega
  · rw [h2, armed_dstCap src pad hc, Laws.dmaSize_eq]; omega
  · rw [InSource, InDestination, h1, h2, armed_srcLen cap pad hs, armed_dstCap src pad hc]; omega
  · exact Laws.writeBytes_wf ⟨by simp, by simp⟩ (by rw [Laws.dmaSize_eq]; omega)

/-- Every armed state can write an output that fits. -/
theorem armed_outputFits {src : Bytes} {cap n : Nat} (pad : BitVec 4) (hc : cap ≤ 0x1000) (hn : n ≤ cap) :
    OutputFits (armed src cap pad) n :=
  ⟨by rw [armed_dstCap src pad hc]; exact hn, fun _ _ _ => rfl⟩

/-- A running operation on the armed registers, about to write one byte. -/
def running (wait : Nat) (script : List HostAction) : State :=
  { armed [] 64 0 with
    phase := .run, wait := wait, script := script, ctrlOp := 1
    engine := { Engine.reset with op := 1, src := 0x1000, dst := 0x2000, cap := 64, result := .ok { out := [0] } } }

theorem witness_StepRunsTheDecodedCommand_idle :
    let s := { State.reset with script := [.regWrite 4 0x08 0x51#32] }
    s.script = [.regWrite 4 0x08 0x51#32] ∧ accessWellFormed 4 (windowOffset s.platform 0x08) = true ∧
    decode (windowOffset s.platform 0x08) 0x51#32 = .ok (.compress false) ∧ s.phase = .idle := by decide
theorem witness_StepRunsTheDecodedCommand_run_waiting :
    let s := running 1 [.regWrite 4 0x0C 0x2#32]
    s.script = [.regWrite 4 0x0C 0x2#32] ∧ accessWellFormed 4 (windowOffset s.platform 0x0C) = true ∧
    decode (windowOffset s.platform 0x0C) 0x2#32 = .ok .ack ∧ s.phase = .run ∧ s.wait = 0 + 1 := by decide
theorem witness_StepRunsTheDecodedCommand_run_over :
    (running 0 [.regWrite 4 0x0C 0x2#32]).phase = .run ∧ (running 0 [.regWrite 4 0x0C 0x2#32]).wait = 0 := by decide
theorem witness_StepRunsAPlacedTableWord : decodeTableWord 32 0x00000061 = some (.decompress false) := by decide
theorem witness_DecodingAnEncodedCommandGivesItBack : (Instr.ieWrite 15 true).wellFormed = true := by decide
theorem witness_DecodedCommandsFitTheirTableRow : decode 0x0C 0xFFFFFFFD#32 = .ok .statusWriteNop := by decide

theorem witness_SoftReset_both_phases : State.reset.phase = .idle ∧ (running 3 []).phase = .run := by decide
theorem witness_InterruptEnableWrite : (0x00000150#32).getLsbD 31 = false ∧ (0x00000150#32).getLsbD 0 = false := by
  decide
theorem witness_CtrlWriteWhileRunWritesIeOnly :
    (running 3 []).phase = .run ∧ (0x00000151#32).getLsbD 31 = false ∧
    decode ctrlOffset 0x00000151#32 = .ok (.compress true) := by decide

theorem witness_AcceptedStart_memory :
    startRow (.count true) = some (0x1, true) ∧ (armed aaabbc 64 0).phase = .idle ∧
    OrdinaryRegions (armed aaabbc 64 0) := ⟨rfl, rfl, fun _ _ => rfl⟩
theorem witness_AcceptedStart_no_memory :
    startRow (.reservedOpF false) = some (0xF, false) ∧ computeOf (.reservedOpF false) = none := ⟨rfl, rfl⟩

/-- A platform with side effects at the last destination byte. -/
def sideEffectState : State :=
  { armed aaabbc 64 0 with
    platform := { htbBase := 0, unreadable := [], unwritable := [], sideEffect := [⟨0x203F, 0x2040⟩] } }

theorem witness_RegionsWithSideEffectsAreRefused :
    computeOf (.pack false) = some packOp ∧ sideEffectState.phase = .idle ∧ RegionsLegal sideEffectState ∧
    InDestination sideEffectState 0x203F ∧ hasSideEffect sideEffectState.platform 0x203F = true :=
  ⟨rfl, rfl, (armed_executable 0 (by decide) (by decide) : Executable (armed aaabbc 64 0)).legal,
    by unfold InDestination; decide, by decide⟩

theorem witness_NopSucceeds : (armed aaabbc 64 0).phase = .idle := rfl

theorem witness_CountWritesTheTableList :
    Executable (armed aaabbc 7 0) ∧
    countTable (sourceBytes (armed aaabbc 7 0)) = .ok [⟨0x61, 3⟩, ⟨0x62, 2⟩, ⟨0x63, 1⟩] ∧
    OutputFits (armed aaabbc 7 0) (1 + 2 * 3) :=
  ⟨armed_executable 0 (by decide) (by decide), by decide +kernel, armed_outputFits 0 (by decide) (by decide)⟩

theorem witness_BuildWritesTheCodeDump :
    Executable (armed aaabbcContainer 9 0) ∧
    parseTable (sourceBytes (armed aaabbcContainer 9 0)) = .ok [⟨0x61, 3⟩, ⟨0x62, 2⟩, ⟨0x63, 1⟩] ∧
    (dump [⟨0x61, 3⟩, ⟨0x62, 2⟩, ⟨0x63, 1⟩] (codesOf [⟨0x61, 3⟩, ⟨0x62, 2⟩, ⟨0x63, 1⟩])).length = 9 ∧
    OutputFits (armed aaabbcContainer 9 0) 9 :=
  ⟨armed_executable 0 (by decide) (by decide), by decide +kernel, by decide +kernel,
    armed_outputFits 0 (by decide) (by decide)⟩

theorem witness_PackWritesThePackedBits :
    Executable (armed (bytes [1, 0, 1]) 1 0) ∧ (∀ x ∈ sourceBytes (armed (bytes [1, 0, 1]) 1 0), x = 0 ∨ x = 1) ∧
    OutputFits (armed (bytes [1, 0, 1]) 1 0) ((3 + 7) / 8) :=
  ⟨armed_executable 0 (by decide) (by decide), by decide +kernel, armed_outputFits 0 (by decide) (by decide)⟩

theorem witness_UnpackWritesTheBitVector :
    Executable (armed (bytes [0xFF]) 1 7) ∧ (armed (bytes [0xFF]) 1 7).pad.toNat ≤ 7 ∧
    (armed (bytes [0xFF]) 1 7).srcLen.toNat ≠ 0 ∧ OutputFits (armed (bytes [0xFF]) 1 7) (8 * 1 - 7) :=
  ⟨armed_executable 7 (by decide) (by decide), by decide, by decide, armed_outputFits 7 (by decide) (by decide)⟩

theorem witness_CompressWritesTheContainer :
    Executable (armed aaabbc 10 0) ∧ (armed aaabbc 10 0).srcLen.toNat ≠ 0 ∧
    countTable (sourceBytes (armed aaabbc 10 0)) = .ok [⟨0x61, 3⟩, ⟨0x62, 2⟩, ⟨0x63, 1⟩] ∧
    containerOf [⟨0x61, 3⟩, ⟨0x62, 2⟩, ⟨0x63, 1⟩] (sourceBytes (armed aaabbc 10 0)) = aaabbcContainer ∧
    OutputFits (armed aaabbc 10 0) 10 :=
  ⟨armed_executable 0 (by decide) (by decide), by decide, by decide +kernel, by decide +kernel,
    armed_outputFits 0 (by decide) (by decide)⟩

theorem witness_DecompressWritesTheDecodedSymbols :
    Executable (armed aaabbcContainer 6 0) ∧ (armed aaabbcContainer 6 0).srcLen.toNat ≠ 0 ∧
    parseContainer (sourceBytes (armed aaabbcContainer 6 0)) =
      .ok ⟨[⟨0x61, 3⟩, ⟨0x62, 2⟩, ⟨0x63, 1⟩], 7, bytes [0x1F, 0x00]⟩ ∧
    decodeBits (codesOf [⟨0x61, 3⟩, ⟨0x62, 2⟩, ⟨0x63, 1⟩]) (unpack (bytes [0x1F, 0x00]) 7) = .ok aaabbc ∧
    OutputFits (armed aaabbcContainer 6 0) 6 :=
  ⟨armed_executable 0 (by decide) (by decide), by decide, by decide +kernel, by decide +kernel,
    armed_outputFits 0 (by decide) (by decide)⟩

theorem witness_EmptyInputAndEmptyContainerSucceed : Executable (armed [] 0 0) ∧ (armed [] 0 0).srcLen = 0 :=
  ⟨armed_executable 0 (by decide) (by decide), by decide⟩

theorem witness_ReservedOpsEndInIllegalOp :
    startRow (.reservedOp7 true) = some (0x7, true) ∧ 7 ≤ (0x7#4).toNat ∧ State.reset.phase = .idle := by decide

/-- Registers for the region check: `src`, `slen`, `dst`, `cap`. -/
def regions (src slen dst cap : Word) : State :=
  { State.reset with srcAddr := src, srcLen := slen, dstAddr := dst, dstCap := cap }

theorem witness_IllegalRegions_source_wraps_by_one :
    (regions 0xFFFFFFFF 2 0x2000 16).srcAddr.toNat + (regions 0xFFFFFFFF 2 0x2000 16).srcLen.toNat > dmaSize ∧
    ¬ (regions 0xFFFFFFFF 1 0x2000 16).srcAddr.toNat + (regions 0xFFFFFFFF 1 0x2000 16).srcLen.toNat > dmaSize := by
  decide
theorem witness_IllegalRegions_destination_wraps_by_one :
    (regions 0 0 0xFFFFFFF0 0x11).dstAddr.toNat + (regions 0 0 0xFFFFFFF0 0x11).dstCap.toNat > dmaSize ∧
    ¬ (regions 0 0 0xFFFFFFF0 0x10).dstAddr.toNat + (regions 0 0 0xFFFFFFF0 0x10).dstCap.toNat > dmaSize := by decide
theorem witness_IllegalRegions_overlap_in_one_byte :
    ∃ a, InSource (regions 0x1000 6 0x1005 16) a ∧ InDestination (regions 0x1000 6 0x1005 16) a :=
  ⟨0x1005, by unfold InSource; decide, by unfold InDestination; decide⟩

/-- A platform whose address 0x1003 cannot be read. -/
def unreadableState : State :=
  { armed aaabbc 64 0 with
    platform := { htbBase := 0, unreadable := [⟨0x1003, 0x1004⟩], unwritable := [], sideEffect := [] } }

theorem witness_UnreadableSourceEndsInInputUnavailable :
    computeOf (.count false) = some countOp ∧ unreadableState.phase = .idle ∧ RegionsLegal unreadableState ∧
    OrdinaryRegions unreadableState ∧ InSource unreadableState 0x1003 ∧
    readable unreadableState.platform 0x1003 = false ∧
    ∀ b, InSource unreadableState b → b < 0x1003 → readable unreadableState.platform b = true :=
  ⟨rfl, rfl, (armed_executable 0 (by decide) (by decide) : Executable (armed aaabbc 64 0)).legal,
    fun _ _ => rfl, by unfold InSource; decide, by decide, fun b _ hb => by
      simp [unreadableState, readable, AddrRange.covers]; omega⟩

theorem witness_ContentErrorsAreReported :
    computeOf (.pack false) = some packOp ∧ Executable (armed (bytes [0, 2]) 0 0) ∧
    packOp (sourceBytes (armed (bytes [0, 2]) 0 0)) 0 = .error ⟨.invalidBit, 1⟩ :=
  ⟨rfl, armed_executable 0 (by decide) (by decide), by decide +kernel⟩

theorem witness_LongOutputEndsInOutputOverflow :
    computeOf (.compress false) = some compressOp ∧ Executable (armed aaabbc 9 0) ∧
    compressOp (sourceBytes (armed aaabbc 9 0)) 0 =
      .ok { out := aaabbcContainer, pad := some 7, bitlen := 9, nsym := 3 } ∧
    (armed aaabbc 9 0).dstCap.toNat < aaabbcContainer.length :=
  ⟨rfl, armed_executable 0 (by decide) (by decide), by decide +kernel, by decide⟩

/-- A platform whose address 0x2005 cannot be written. -/
def unwritableState : State :=
  { armed aaabbc 64 0 with
    platform := { htbBase := 0, unreadable := [], unwritable := [⟨0x2005, 0x2006⟩], sideEffect := [] } }

theorem witness_UnwritableOutputEndsInOutputUnavailable :
    computeOf (.compress false) = some compressOp ∧ Executable unwritableState ∧
    compressOp (sourceBytes unwritableState) 0 =
      .ok { out := aaabbcContainer, pad := some 7, bitlen := 9, nsym := 3 } ∧
    aaabbcContainer.length ≤ unwritableState.dstCap.toNat ∧ unwritableState.dstAddr.toNat ≤ 0x2005 ∧
    0x2005 < unwritableState.dstAddr.toNat + aaabbcContainer.length ∧
    writable unwritableState.platform 0x2005 = false ∧
    ∀ b, unwritableState.dstAddr.toNat ≤ b → b < 0x2005 → writable unwritableState.platform b = true := by
  have h : Executable (armed aaabbc 64 0) := armed_executable 0 (by decide) (by decide)
  refine ⟨rfl, ⟨rfl, h.legal, fun _ _ => rfl, fun _ _ => rfl, h.mem⟩, by decide +kernel, by decide, by decide,
    by decide, by decide, fun b _ hb => ?_⟩
  simp [unwritableState, writable, AddrRange.covers]; omega

/-- An idle state and a running one meet the invariant. -/
theorem witness_invariant_idle : Inv (armed [] 64 0) :=
  ⟨⟨by simp [armed, Memory.writeBytes], by simp [armed, Memory.writeBytes]⟩, by decide, fun _ => rfl,
    fun h => absurd rfl h, fun h => by cases h⟩
theorem witness_invariant_running (wait : Nat) (script : List HostAction) : Inv (running wait script) := by
  refine ⟨⟨by simp [running, armed, Memory.writeBytes], by simp [running, armed, Memory.writeBytes]⟩, by
    show (0 : Byte).toNat ≤ 0x0A; decide, fun _ => rfl, fun h => absurd rfl h, fun _ => ?_⟩
  refine ⟨rfl, rfl, rfl, rfl, rfl, rfl, rfl, rfl, rfl, rfl, rfl, rfl, .inr ?_, ?_⟩
  · show (0x2000#32).toNat + (64#32).toNat ≤ dmaSize
    decide
  · show 0 ≤ 255
    decide
theorem witness_EveryStepKeepsTheInvariant : ∃ t, step (armed [] 64 0) = .next t := ⟨armed [] 64 0, rfl⟩
theorem witness_EveryStepKeepsTheInvariant_completion :
    nextSat (step (running 0 [])) (fun t => decide (t.phase = .idle) && t.done) = true := by decide
theorem witness_StepsChangeOnly_host :
    nextSat (step { State.reset with script := [.memStore 5 1] }) (fun t => decide (Memory.read t.mem 5 ≠
      Memory.read State.reset.mem 5)) = true := by decide
theorem witness_StepsChangeOnly_destination :
    nextSat (step { running 0 [] with
      engine := { (running 0 []).engine with result := .ok { out := [7] } } }) (fun t =>
      decide (Memory.read t.mem 0x2000 ≠ Memory.read (running 0 []).mem 0x2000)) = true := by decide
theorem witness_OnlyStartEntersRun :
    nextSat (step { State.reset with script := [.regWrite 4 0x08 0x1#32] }) (fun t => decide (t.phase = .run)) = true := by
  decide
theorem witness_OperationsComplete : (running 2 []).phase = .run ∧ (running 2 []).script = [] := ⟨rfl, rfl⟩
theorem witness_ResultsDependOnOperandsAlone :
    startRow (.count true) = some (0x1, true) ∧
    sourceBytes (armed aaabbc 9 0) = sourceBytes { armed aaabbc 9 0 with errcode := 3, engine := (running 0 []).engine } ∧
    nextSat (exec (.count true) (armed aaabbc 9 0)) (fun _ => true) = true := ⟨rfl, rfl, by decide +kernel⟩
theorem witness_ResultsDependOnOperandsAlone_success :
    Memory.wf (armed aaabbc 9 0).mem ∧ nextSat (commandThenCompletion (.count true) (armed aaabbc 9 0)) (fun u =>
      decide (u.errcode = 0) && decide (u.outLen = 7)) = true :=
  ⟨(armed_executable 0 (by decide) (by decide) : Executable (armed aaabbc 9 0)).mem, by decide +kernel⟩

theorem witness_RegisterReads_idle :
    let s := { State.reset with script := [.regRead 4 0x20] }
    accessWellFormed 4 (windowOffset s.platform 0x20) = true ∧ s.phase = .idle := by decide
theorem witness_RegisterReads_run :
    accessWellFormed 4 (windowOffset (running 1 [.regRead 4 0xFC]).platform 0xFC) = true ∧
    (running 1 [.regRead 4 0xFC]).phase = .run ∧ (running 1 [.regRead 4 0xFC]).wait = 0 + 1 := by decide
theorem witness_ParameterWrites_each_kind :
    (∀ off ∈ [0x10, 0x1C, 0x24, 0x20, 0xFC], accessWellFormed 4 off = true ∧ off ≠ 0x08 ∧ off ≠ 0x0C) ∧
    windowOffset State.reset.platform 0x24 = 0x24 ∧ (running 1 [.regWrite 4 0x24 5]).wait = 0 + 1 := by decide
theorem witness_UndefinedRegisterAccesses_size :
    windowOffset State.reset.platform 0x08 < 256 ∧ (2 ≠ 4 ∨ windowOffset State.reset.platform 0x08 % 4 ≠ 0) := by decide
theorem witness_UndefinedRegisterAccesses_alignment :
    windowOffset State.reset.platform 0xFF < 256 ∧ windowOffset State.reset.platform 0xFF % 4 ≠ 0 ∧
    (running 1 []).wait ≠ 0 := by decide
theorem witness_HostStores_last_busy_byte :
    hasSideEffect (running 1 []).platform 0x203F = false ∧ (running 1 []).phase = .run ∧
    (running 1 []).engine.dst.toNat ≤ 0x203F ∧
    0x203F < (running 1 []).engine.dst.toNat + (running 1 []).engine.cap.toNat := by decide
theorem witness_HostStores_first_free_byte :
    ¬ 0x2040 < (running 1 []).engine.dst.toNat + (running 1 []).engine.cap.toNat ∧
    ¬ 0x2040 < (running 1 []).engine.src.toNat + (running 1 []).engine.slen.toNat := by decide
theorem witness_HostLoads_idle : hasSideEffect State.reset.platform 0 = false ∧ State.reset.phase ≠ .run := by decide

theorem witness_PackAndUnpack_errors :
    packOp (bytes [1, 1, 2]) 0 = .error ⟨.invalidBit, 2⟩ ∧ unpackOp (bytes [0xB1]) 8 = .error ⟨.malformedContainer, 8⟩ ∧
    unpackOp [] 1 = .error ⟨.malformedContainer, 1⟩ := by decide +kernel
theorem witness_CountTable_ok : countTable (bytes [0x7A]) = .ok [⟨0x7A, 1⟩] := by decide +kernel
theorem witness_CountTable_frequency :
    countTable (List.replicate 256 0x41) = .error ⟨.frequencyOverflow, 0x41⟩ := by decide +kernel
theorem witness_CountTable_symbols (x : Byte) :
    1 ≤ ((List.range 256).map (BitVec.ofNat 8)).count x ∧ ((List.range 256).map (BitVec.ofNat 8)).count x ≤ 255 := by
  have hn : ((List.range 256).map (BitVec.ofNat 8)).Nodup := by
    refine List.Nodup.map_on (fun a ha b hb h => ?_) List.nodup_range
    have ha := List.mem_range.mp ha
    have hb := List.mem_range.mp hb
    have := congrArg BitVec.toNat h
    simp only [BitVec.toNat_ofNat] at this
    omega
  have hm : x ∈ (List.range 256).map (BitVec.ofNat 8) :=
    List.mem_map.mpr ⟨x.toNat, List.mem_range.mpr x.isLt, by simp⟩
  rw [List.count_eq_one_of_mem hn hm]
  decide
theorem witness_ParseTable_ok : parseTable (bytes [1, 0x7A, 9]) = .ok [⟨0x7A, 9⟩] := by decide +kernel
theorem witness_ParseTable_errors :
    parseTable [] = .error ⟨.malformedContainer, 0⟩ ∧ parseTable (bytes [0]) = .error ⟨.malformedContainer, 0⟩ ∧
    parseTable (bytes [3, 0x61, 3]) = .error ⟨.malformedContainer, 3⟩ ∧
    parseTable (bytes [2, 0x61, 3, 0x61, 0]) = .error ⟨.malformedContainer, 3⟩ ∧
    parseTable (bytes [2, 0x61, 3, 0x62, 0]) = .error ⟨.malformedContainer, 4⟩ := by decide +kernel
theorem witness_ExtractionTakesTheSmallestKey :
    [0, 1].Nodup ∧ extractMin [.leaf 2 0x61, .leaf 2 0x62] [0, 1] = some (0, [1]) := by decide

/-- A table list of two entries, and one of one entry. -/
theorem witness_LegalTable_two : LegalTable [⟨0x61, 1⟩, ⟨0x62, 255⟩] :=
  ⟨by decide, by decide, by decide, by decide⟩
theorem witness_LegalTable_one : LegalTable [⟨0x7A, 9⟩] := ⟨by decide, by decide, by decide, by decide⟩
/-- Of three queued leaves the two smallest keys are merged, and the third's key is above theirs. -/
theorem witness_BuiltTree_third_leaf :
    LegalTable [⟨0x61, 1⟩, ⟨0x62, 2⟩, ⟨0x63, 2⟩] ∧
    (buildTree [⟨0x61, 1⟩, ⟨0x62, 2⟩, ⟨0x63, 2⟩]).1[3]? = some (.internal 3 0 1) ∧
    keyLess (buildTree [⟨0x61, 1⟩, ⟨0x62, 2⟩, ⟨0x63, 2⟩]).1 1 2 = true :=
  ⟨⟨by decide, by decide, by decide, by decide⟩, by decide +kernel, by decide +kernel⟩
theorem witness_RegisterMap_reserved_ends : (0x34 ≤ 0x34 ∧ 0x34 ≤ 0xFC) ∧ (0x34 ≤ 0xFC ∧ 0xFC ≤ 0xFC) := by decide
theorem witness_Codes_two :
    codeOf (codesOf [⟨0x61, 1⟩, ⟨0x62, 255⟩]) 0x61 = some [false] ∧
    codeOf (codesOf [⟨0x61, 1⟩, ⟨0x62, 255⟩]) 0x62 = some [true] := by decide +kernel
theorem witness_Codes_proper_prefix :
    ([] : Bits) <+: [false] ∧ ([] : Bits) ≠ [false] ∧
    leafSym (buildTree [⟨0x61, 1⟩, ⟨0x62, 255⟩]).1 (buildTree [⟨0x61, 1⟩, ⟨0x62, 255⟩]).2 = none := by decide +kernel
theorem witness_PackPlacesEveryBit : 0 < (pack [true]).1.length ∧ (0 : Nat) < 8 := by decide
theorem witness_UnpackInvertsPack_converse :
    (7 ≤ 7 ∧ (bytes [0x80] ≠ [] ∨ 7 = 0)) ∧ pack (unpack (bytes [0x80]) 7) = (bytes [0x80], 7) ∧
    pack (unpack (bytes [0xFF]) 7) ≠ (bytes [0xFF], 7) := by decide +kernel
theorem witness_WellFormedContainers : (∃ c, parseContainer aaabbcContainer = .ok c) ∧ aaabbcContainer ≠ [] :=
  ⟨⟨⟨[⟨0x61, 3⟩, ⟨0x62, 2⟩, ⟨0x63, 1⟩], 7, bytes [0x1F, 0x00]⟩, by decide +kernel⟩, by decide⟩
/-- P = 7 with a body and P = 0 without one parse; a missing P, P = 8 and P = 1 without a body do not. -/
theorem witness_ParseContainer_boundaries :
    parseContainer (bytes [1, 0x7A, 9, 7, 0]) = .ok ⟨[⟨0x7A, 9⟩], 7, bytes [0]⟩ ∧
    parseContainer (bytes [1, 0x7A, 9, 0]) = .ok ⟨[⟨0x7A, 9⟩], 0, []⟩ ∧
    parseContainer (bytes [2, 0x7A, 9, 0x79, 9]) = .error ⟨.malformedContainer, 5⟩ ∧
    parseContainer (bytes [1, 0x7A, 9, 8, 0]) = .error ⟨.malformedContainer, 3⟩ ∧
    parseContainer (bytes [1, 0x7A, 9, 1]) = .error ⟨.malformedContainer, 3⟩ ∧
    parseContainer (bytes [1, 0x7A, 0, 0]) = .error ⟨.malformedContainer, 2⟩ := by decide +kernel
theorem witness_Decode_both_answers :
    decodeBits (codesOf [⟨0x61, 1⟩, ⟨0x62, 255⟩]) [false, true] = .ok (bytes [0x61, 0x62]) ∧
    decodeBits (codesOf [⟨0x7A, 9⟩]) [false, true, false] = .error ⟨.unknownCodeAtEndOfStream, 2⟩ := by decide +kernel
theorem witness_Compress_fails :
    compressOp (List.replicate 256 0x41) 0 = .error ⟨.frequencyOverflow, 0x41⟩ := by decide +kernel
theorem witness_Compress_succeeds :
    compressOp aaabbc 0 = .ok { out := aaabbcContainer, pad := some 7, bitlen := 9, nsym := 3 } ∧
    countTable aaabbc = .ok [⟨0x61, 3⟩, ⟨0x62, 2⟩, ⟨0x63, 1⟩] ∧ aaabbc ≠ [] := by decide +kernel

end Sys2Proof.Tests
end

section
/-! Proofs for 00_scope.md, R11: what an operation computes and shows is fixed by its operands, the platform and the
source snapshot.  The shape is a comparison of two machines: equal inputs give the same result at START
(`exec_start_agrees`), and the same result gives the same registers and output bytes at completion
(`completeOperation_agrees`). -/

namespace Sys2Proof.Proofs

open Sys2Proof.Machine Sys2Proof.Safety Sys2Proof.Laws

/-! ### The inputs of an operation -/

/-- Two machines give an operation the same inputs: the operands START latches (R38), the platform's parameters, and the
bytes of the source region (R133). -/
structure SameInputs (s1 s2 : State) : Prop where
  srcAddr : s1.srcAddr = s2.srcAddr
  srcLen : s1.srcLen = s2.srcLen
  dstAddr : s1.dstAddr = s2.dstAddr
  dstCap : s1.dstCap = s2.dstCap
  pad : s1.pad = s2.pad
  platform : s1.platform = s2.platform
  source : sourceBytes s1 = sourceBytes s2

theorem SameInputs.latchOperands {s1 s2 : State} (h : SameInputs s1 s2) (o : BitVec 4) :
    SameLatches (latchOperands o s1) (latchOperands o s2) :=
  ⟨rfl, h.srcAddr.symm, h.srcLen.symm, h.dstAddr.symm, h.dstCap.symm, h.pad.symm⟩

/-- The bytes of the source region are what READ snapshots (R133). -/
theorem readBytes_source (s : State) : Memory.readBytes s.mem s.srcAddr.toNat s.srcLen.toNat = sourceBytes s := by
  simp [Memory.readBytes, regionAddrs, sourceBytes]

/-! ### READ and COMPUTE read the latches, the platform and the source bytes only -/

theorem regionCheck_congr {e1 e2 : Engine} (h : SameLatches e1 e2) : regionCheck e2 = regionCheck e1 := by
  simp only [regionCheck, h.src, h.slen, h.dst, h.cap]

theorem regionsTouchSideEffects_congr {e1 e2 : Engine} (p : Platform) (h : SameLatches e1 e2) :
    regionsTouchSideEffects p e2 = regionsTouchSideEffects p e1 := by
  simp only [regionsTouchSideEffects, h.src, h.slen, h.dst, h.cap]

theorem snapshot_congr {e1 e2 : Engine} {m1 m2 : Memory} (p : Platform) (h : SameLatches e1 e2)
    (hm : Memory.readBytes m2 e1.src.toNat e1.slen.toNat = Memory.readBytes m1 e1.src.toNat e1.slen.toNat) :
    snapshot p m2 e2 = snapshot p m1 e1 := by
  simp only [snapshot, h.src, h.slen, hm]

theorem readAndCompute_of_regionError {s : State} {e : OpError} (c : Compute) (u : Units)
    (hr : regionCheck s.engine = some e) : readAndCompute c u s = .next (setResult (.raised e) s) := by
  simp only [readAndCompute, hr]

theorem readAndCompute_of_snapshotError {s : State} {e : OpError} (c : Compute) (u : Units)
    (hr : regionCheck s.engine = none) (hs : regionsTouchSideEffects s.platform s.engine = false)
    (he : snapshot s.platform s.mem s.engine = .error e) :
    readAndCompute c u s = .next (setResult (.raised e) s) := by
  simp [readAndCompute, hr, hs, he]

theorem readAndCompute_of_snapshot {s : State} {S : Bytes} (c : Compute) (u : Units)
    (hr : regionCheck s.engine = none) (hs : regionsTouchSideEffects s.platform s.engine = false)
    (hS : snapshot s.platform s.mem s.engine = .ok S) :
    readAndCompute c u s = .next (setResult (toResult (c S s.engine.pin))
      { s with engine := u S s.engine.pin { s.engine with snap := S } }) := by
  simp [readAndCompute, hr, hs, hS]

/-- The state differs from `s` in the engine alone, whose latches are those of `s` and whose outcome is `r`. -/
def AwaitsResult (s : State) (r : OpResult) (t : State) : Prop :=
  ∃ e, SameLatches s.engine e ∧ e.result = r ∧ t = { s with engine := e }

theorem awaitsResult_setResult {s : State} {e : Engine} (h : SameLatches s.engine e) (r : OpResult) :
    AwaitsResult s r (setResult r { s with engine := e }) :=
  ⟨{ e with result := r }, ⟨h.op, h.src, h.slen, h.dst, h.cap, h.pin⟩, rfl, rfl⟩

/-- Taking the snapshot and running the units changes no latch. -/
theorem units_keepLatches {u : Units} (hu : KeepsLatches u) (S : Bytes) (pin : BitVec 4) (e : Engine) :
    SameLatches e (u S pin { e with snap := S }) :=
  have hsnap : SameLatches e { e with snap := S } := ⟨rfl, rfl, rfl, rfl, rfl, rfl⟩
  hsnap.trans (hu S pin { e with snap := S })

/-- Two machines with the same latches, platform and source bytes compute the same result (R132). -/
theorem readAndCompute_agrees {c : Compute} {u : Units} {s1 s2 t1 : State} (hu : KeepsLatches u)
    (hl : SameLatches s1.engine s2.engine) (hp : s1.platform = s2.platform)
    (hsnap : snapshot s2.platform s2.mem s2.engine = snapshot s1.platform s1.mem s1.engine)
    (h : readAndCompute c u s1 = .next t1) :
    ∃ r t2, readAndCompute c u s2 = .next t2 ∧ AwaitsResult s1 r t1 ∧ AwaitsResult s2 r t2 := by
  have hreg := regionCheck_congr hl
  have hside : regionsTouchSideEffects s2.platform s2.engine = regionsTouchSideEffects s1.platform s1.engine := by
    rw [← hp, regionsTouchSideEffects_congr _ hl]
  have raised : ∀ (s : State) (e : OpError), AwaitsResult s (.raised e) (setResult (.raised e) s) :=
    fun s e => awaitsResult_setResult (.refl s.engine) (.raised e)
  rcases readAndCompute_cases h with ⟨e, hr, rfl⟩ | ⟨hr, hs, e, he, rfl⟩ | ⟨hr, hs, S, hS, rfl⟩
  · exact ⟨_, _, readAndCompute_of_regionError c u (hreg.trans hr), raised s1 e, raised s2 e⟩
  · exact ⟨_, _, readAndCompute_of_snapshotError c u (hreg.trans hr) (hside.trans hs) (hsnap.trans he), raised s1 e,
      raised s2 e⟩
  · refine ⟨_, _, readAndCompute_of_snapshot c u (hreg.trans hr) (hside.trans hs) (hsnap.trans hS),
      awaitsResult_setResult (units_keepLatches hu S _ s1.engine) _, ?_⟩
    rw [hl.pin]
    exact awaitsResult_setResult (units_keepLatches hu S _ s2.engine) _

/-! ### START -/

/-- A START command either skips READ, COMPUTE and WRITE with a fixed result, or is an operation on memory (R130). -/
theorem exec_of_startRow {i : Instr} {o : BitVec 4} {ie : Bool} (h : startRow i = some (o, ie)) :
    (computeOf i = none ∧ ∃ r, ∀ s, exec i s = startWithoutMemory o r ie s) ∨
    (∃ c u, computeOf i = some c ∧ KeepsLatches u ∧ ∀ s, exec i s = startOperation o c u ie s) := by
  cases i <;> cases h
  case count => exact .inr ⟨_, _, rfl, countUnits_keepsLatches, fun _ => rfl⟩
  case build => exact .inr ⟨_, _, rfl, buildUnits_keepsLatches, fun _ => rfl⟩
  case pack => exact .inr ⟨_, _, rfl, packUnits_keepsLatches, fun _ => rfl⟩
  case unpack => exact .inr ⟨_, _, rfl, unpackUnits_keepsLatches, fun _ => rfl⟩
  case compress => exact .inr ⟨_, _, rfl, compressUnits_keepsLatches, fun _ => rfl⟩
  case decompress => exact .inr ⟨_, _, rfl, decompressUnits_keepsLatches, fun _ => rfl⟩
  all_goals exact .inl ⟨rfl, _, fun _ => rfl⟩

/-- A START command that two idle machines with the same inputs are given: if one accepts it, so does the other, and
both then wait for completion with the same result. -/
theorem exec_start_agrees {i : Instr} {o : BitVec 4} {ie : Bool} {s1 s2 t1 : State}
    (hrow : startRow i = some (o, ie)) (hi1 : s1.phase = .idle) (hi2 : s2.phase = .idle) (hin : SameInputs s1 s2)
    (h : exec i s1 = .next t1) :
    ∃ r t2, exec i s2 = .next t2 ∧ AwaitsResult (acceptStart o ie s1) r t1 ∧
      AwaitsResult (acceptStart o ie s2) r t2 := by
  rcases exec_of_startRow hrow with ⟨-, r, hx⟩ | ⟨c, u, -, hu, hx⟩
  · rw [hx, startWithoutMemory_idle o r ie hi1] at h
    cases h
    rw [hx, startWithoutMemory_idle o r ie hi2]
    exact ⟨r, _, rfl, awaitsResult_setResult (.refl (latchOperands o s1)) r,
      awaitsResult_setResult (.refl (latchOperands o s2)) r⟩
  · rw [hx, startOperation_idle o c u ie hi1] at h
    rw [hx, startOperation_idle o c u ie hi2]
    have hl := hin.latchOperands o
    refine readAndCompute_agrees hu hl hin.platform ?_ h
    simp only [acceptStart_platform, acceptStart_mem, acceptStart_engine, ← hin.platform]
    refine snapshot_congr _ hl ?_
    simp only [latchOperands_src, latchOperands_slen]
    rw [readBytes_source, hin.source, ← readBytes_source, hin.srcAddr, hin.srcLen]

/-! ### Completion -/

/-- Two machines run operations that completion cannot tell apart, except by memory and by the free values. -/
structure SameOperation (t1 t2 : State) : Prop where
  dst : t2.engine.dst = t1.engine.dst
  cap : t2.engine.cap = t1.engine.cap
  result : t2.engine.result = t1.engine.result
  platform : t2.platform = t1.platform
  pad : t2.pad = t1.pad
  errcode : t2.errcode = t1.errcode
  errinfo : t2.errinfo = t1.errinfo

/-- STATUS and the result registers are computed from equal fields (R26, R31 to R35). -/
structure SameResults (u1 u2 : State) : Prop where
  phase : u2.phase = u1.phase
  done : u2.done = u1.done
  errcode : u2.errcode = u1.errcode
  outLen : u2.outLen = u1.outLen
  pad : u2.pad = u1.pad
  bitlen : u2.bitlen = u1.bitlen
  nsym : u2.nsym = u1.nsym
  errinfo : u2.errinfo = u1.errinfo

theorem SameResults.readReg {u1 u2 : State} (h : SameResults u1 u2) :
    ∀ r ∈ [0x0C, 0x20, 0x24, 0x28, 0x2C, 0x30], readReg u2 r = readReg u1 r := by
  simp [Machine.readReg, statusWord, statusBusy, statusErr, h.phase, h.done, h.errcode, h.outLen, h.pad, h.bitlen,
    h.nsym, h.errinfo]

/-- A completion with an error is the same in both machines, whatever it leaves in memory. -/
theorem sameResults_completeError {t1 t2 : State} (h : SameOperation t1 t2) (e : OpError) (m1 m2 : Memory)
    (d1 d2 : Nat) :
    SameResults (completeError e { t1 with mem := m1, draws := d1 })
      (completeError e { t2 with mem := m2, draws := d2 }) :=
  ⟨rfl, rfl, rfl, rfl, h.pad, rfl, rfl, rfl⟩

theorem sameResults_completeSuccess {t1 t2 : State} (h : SameOperation t1 t2) (r : OpOk) (m1 m2 : Memory) :
    SameResults (completeSuccess r { t1 with mem := m1 }) (completeSuccess r { t2 with mem := m2 }) :=
  ⟨rfl, rfl, h.errcode, rfl, congrArg r.pad.getD h.pad, rfl, rfl, h.errinfo⟩

/-- Every error has a code that is not 0 (R260). -/
theorem errCode_ne_zero (k : ErrKind) : errCode k ≠ 0 := by cases k <;> decide

/-- Where `out` has been written, two memories read the same. -/
theorem read_writeBytes_agree {m1 m2 : Memory} (h1 : Memory.wf m1) (h2 : Memory.wf m2) {a b : Nat} {vs : Bytes}
    (hab : a ≤ b) (hb : b < a + vs.length) :
    Memory.read (Memory.writeBytes m2 a vs) b = Memory.read (Memory.writeBytes m1 a vs) b := by
  obtain ⟨i, rfl⟩ := Nat.exists_eq_add_of_le hab
  have hi : i < vs.length := by omega
  rw [read_writeBytes_inside h1.1 hi, read_writeBytes_inside h2.1 hi]

/-- After a success the bytes in [dst, dst + OUT_LEN) are the same in both machines. -/
def SameOutput (dst : Nat) (u1 u2 : State) : Prop :=
  u1.errcode = 0 → ∀ a, dst ≤ a → a < dst + u1.outLen.toNat → Memory.read u2.mem a = Memory.read u1.mem a

theorem sameOutput_of_error (dst : Nat) (e : OpError) (t u2 : State) :
    SameOutput dst (completeError e t) u2 :=
  fun h => absurd h (errCode_ne_zero e.kind)

theorem sameOutput_of_success {t1 t2 : State} (h1 : Memory.wf t1.mem) (h2 : Memory.wf t2.mem) (dst : Nat) (r : OpOk) :
    SameOutput dst (completeSuccess r { t1 with mem := Memory.writeBytes t1.mem dst r.out })
      (completeSuccess r { t2 with mem := Memory.writeBytes t2.mem dst r.out }) := by
  intro _ a ha hlt
  have hlen : (BitVec.ofNat 32 r.out.length).toNat ≤ r.out.length := Nat.mod_le _ _
  exact read_writeBytes_agree h1 h2 ha (Nat.lt_of_lt_of_le hlt (Nat.add_le_add_left hlen dst))

theorem writeOut_of_overflow {s : State} {r : OpOk} (h : s.engine.cap.toNat < r.out.length) :
    writeOut r s = .next (completeError ⟨.outputOverflow, r.out.length⟩ s) :=
  if_pos h

theorem writeOut_of_unwritable {s : State} {r : OpOk} {a : Nat} (hcap : r.out.length ≤ s.engine.cap.toNat)
    (hdma : s.engine.dst.toNat + r.out.length ≤ dmaSize)
    (ha : lowestAddr (fun a => !writable s.platform a) s.engine.dst.toNat r.out.length = some a) :
    writeOut r s = .next (completeError ⟨.outputUnavailable, a⟩
      { s with mem := Memory.scramble s.mem s.draws s.engine.dst.toNat r.out.length, draws := s.draws + 1 }) := by
  simp only [writeOut, gt_iff_lt, if_neg (Nat.not_lt.mpr hcap), if_neg (Nat.not_lt.mpr hdma), ha]

theorem writeOut_of_writable {s : State} {r : OpOk} (hcap : r.out.length ≤ s.engine.cap.toNat)
    (hdma : s.engine.dst.toNat + r.out.length ≤ dmaSize)
    (hn : lowestAddr (fun a => !writable s.platform a) s.engine.dst.toNat r.out.length = none) :
    writeOut r s =
      .next (completeSuccess r { s with mem := Memory.writeBytes s.mem s.engine.dst.toNat r.out }) := by
  simp only [writeOut, gt_iff_lt, if_neg (Nat.not_lt.mpr hcap), if_neg (Nat.not_lt.mpr hdma), hn]

/-- Two machines that run the same operation end their write phase alike (R135). -/
theorem writeOut_agrees {t1 t2 u1 : State} (hop : SameOperation t1 t2) (r : OpOk) (h : writeOut r t1 = .next u1) :
    ∃ u2, writeOut r t2 = .next u2 ∧ SameResults u1 u2 ∧
      (Memory.wf t1.mem → Memory.wf t2.mem → SameOutput t1.engine.dst.toNat u1 u2) := by
  have hW : ∀ n, lowestAddr (fun a => !writable t2.platform a) t2.engine.dst.toNat n =
      lowestAddr (fun a => !writable t1.platform a) t1.engine.dst.toNat n :=
    fun n => by rw [hop.platform, hop.dst]
  rcases writeOut_cases (s := t1) r with ⟨h1, hw⟩ | ⟨-, -, hw⟩ | ⟨h1, h2, a, ha, hw⟩ | ⟨h1, h2, hn, hw⟩ <;>
    rw [hw] at h <;> cases h <;> rw [← hop.cap] at h1
  · exact ⟨_, writeOut_of_overflow h1, sameResults_completeError hop _ _ _ _ _,
      fun _ _ => sameOutput_of_error _ _ _ _⟩
  · rw [← hop.dst] at h2
    exact ⟨_, writeOut_of_unwritable h1 h2 ((hW _).trans ha), sameResults_completeError hop _ _ _ _ _,
      fun _ _ => sameOutput_of_error _ _ _ _⟩
  · rw [← hop.dst] at h2
    refine ⟨_, writeOut_of_writable h1 h2 ((hW _).trans hn), sameResults_completeSuccess hop r _ _, fun hm1 hm2 => ?_⟩
    rw [hop.dst]
    exact sameOutput_of_success hm1 hm2 _ r

/-- Two machines that run the same operation complete alike (R130, R139). -/
theorem completeOperation_agrees {t1 t2 u1 : State} (hop : SameOperation t1 t2)
    (h : completeOperation t1 = .next u1) :
    ∃ u2, completeOperation t2 = .next u2 ∧ SameResults u1 u2 ∧
      (Memory.wf t1.mem → Memory.wf t2.mem → SameOutput t1.engine.dst.toNat u1 u2) := by
  cases hr : t1.engine.result with
  | raised e =>
    rw [completeOperation_raised hr] at h
    cases h
    exact ⟨_, completeOperation_raised (hop.result.trans hr), sameResults_completeError hop e _ _ _ _,
      fun _ _ => sameOutput_of_error _ e _ _⟩
  | ok r =>
    rw [completeOperation_ok hr] at h
    rw [completeOperation_ok (hop.result.trans hr)]
    exact writeOut_agrees hop r h

/-- Machines that wait for the same result of an operation started on the same inputs run the same operation. -/
theorem sameOperation_of_awaitsResult {o : BitVec 4} {ie : Bool} {s1 s2 t1 t2 : State} {r : OpResult}
    (hin : SameInputs s1 s2) (h1 : AwaitsResult (acceptStart o ie s1) r t1)
    (h2 : AwaitsResult (acceptStart o ie s2) r t2) :
    SameOperation { t1 with wait := 0 } { t2 with wait := 0 } := by
  obtain ⟨e1, hl1, hr1, rfl⟩ := h1
  obtain ⟨e2, hl2, hr2, rfl⟩ := h2
  have hdst : e2.dst = e1.dst := hl2.dst.trans (hin.dstAddr.symm.trans hl1.dst.symm)
  have hcap : e2.cap = e1.cap := hl2.cap.trans (hin.dstCap.symm.trans hl1.cap.symm)
  exact ⟨hdst, hcap, hr2.trans hr1.symm, hin.platform.symm, hin.pad.symm, rfl, rfl⟩

/-- Settles O38: equal inputs give the same result at START, and the same result completes alike, whatever else the
two machines hold. -/
theorem resultsDependOnOperandsAlone : Obligations.ResultsDependOnOperandsAlone := by
  unfold Obligations.ResultsDependOnOperandsAlone
  intro i o ie s1 s2 t1 hrow hi1 hi2 hsrc hlen hdst hcap hpad hplat hbytes h
  have hin : SameInputs s1 s2 := ⟨hsrc, hlen, hdst, hcap, hpad, hplat, hbytes⟩
  obtain ⟨r, t2, hx, ha1, ha2⟩ := exec_start_agrees hrow hi1 hi2 hin h
  have hop := sameOperation_of_awaitsResult hin ha1 ha2
  obtain ⟨e1, hl1, -, rfl⟩ := ha1
  obtain ⟨e2, -, -, rfl⟩ := ha2
  refine ⟨_, hx, hop.result, fun u1 hu1 => ?_⟩
  rw [step_run_zero rfl rfl] at hu1
  obtain ⟨u2, hu2, hres, hout⟩ := completeOperation_agrees hop hu1
  refine ⟨u2, (step_run_zero rfl rfl).trans hu2, hres.readReg, fun hm1 hm2 => ?_⟩
  have hdst1 : e1.dst = s1.dstAddr := hl1.dst
  exact hdst1 ▸ hout hm1 hm2

end Sys2Proof.Proofs
end

section
/-! Proofs for 10_state.md, the register window: what a plain register write can change (R24, R36), and the identity
registers (R22). -/

namespace Sys2Proof.Proofs

open Sys2Proof.Machine

/-! ### Register writes that are no commands -/

/-- The offsets that take a written value: SRC_ADDR, SRC_LEN, DST_ADDR, DST_CAP and PAD (R27 to R30, R32). -/
def paramOffsets : List Nat := [0x10, 0x14, 0x18, 0x1C, 0x24]

theorem writeReg_idle {s : State} (h : s.phase = .idle) (off : Nat) (v : Word) :
    writeReg off v s = writeParam off v s := by
  simp only [writeReg, h]

theorem writeReg_run {s : State} (h : s.phase = .run) (off : Nat) (v : Word) : writeReg off v s = s := by
  simp only [writeReg, h]

theorem writeParam_of_not_param {off : Nat} (h : off ∉ paramOffsets) (v : Word) (s : State) :
    writeParam off v s = s := by
  unfold writeParam
  split
  case h_6 => rfl
  all_goals exact absurd (by decide) h

/-- Only a parameter register takes a plain write, in either phase (R24, R36). -/
theorem writeReg_of_not_param {off : Nat} (h : off ∉ paramOffsets) (v : Word) (s : State) : writeReg off v s = s := by
  cases hp : s.phase with
  | idle => rw [writeReg_idle hp, writeParam_of_not_param h]
  | run => exact writeReg_run hp off v

/-! ### ID and VERSION -/

@[simp] theorem readReg_id (s : State) : readReg s 0x00 = 0x48554646#32 := rfl

@[simp] theorem readReg_version (s : State) : readReg s 0x04 = 0x00000001#32 := rfl

/-- Settles O39: the two reads are constants of the register map, and neither offset is a parameter register's. -/
theorem identityRegistersAreConstant : Obligations.IdentityRegistersAreConstant := by
  unfold Obligations.IdentityRegistersAreConstant
  intro s v
  exact ⟨readReg_id s, readReg_version s, writeReg_of_not_param (by decide) v s, writeReg_of_not_param (by decide) v s⟩

end Sys2Proof.Proofs
end

section
/-! Proofs for 20_memory.md: the host's turn, and the register accesses that R61 leaves undefined. -/

namespace Sys2Proof.Proofs

open Sys2Proof.Machine Sys2Proof.Laws

theorem phase_eq_run_of_ne_idle {p : Phase} (h : p ≠ .idle) : p = .run := by
  cases p with
  | idle => exact absurd rfl h
  | run => rfl

/-- The host acts while IDLE, and while RUN as long as the completion time lasts (R72, R301). -/
theorem step_eq_hostAct {s : State} {act : HostAction} {rest : List HostAction} (hs : s.script = act :: rest)
    (h : s.phase = .idle ∨ s.wait ≠ 0) : ∃ n, step s = hostAct act { s with script := rest, wait := n } := by
  by_cases hp : s.phase = .idle
  · exact ⟨s.wait, (step_idle hp).trans (hostTurn_cons hs)⟩
  · have hrun : s.phase = .run := phase_eq_run_of_ne_idle hp
    obtain ⟨n, hn⟩ := Nat.exists_eq_succ_of_ne_zero (h.resolve_left hp)
    exact ⟨n, (step_run_succ hrun hn).trans (hostTurn_cons (s := { s with wait := n }) hs)⟩

/-! ### Refused register accesses -/

theorem accessWellFormed_eq_false {size off : Nat} (h : size ≠ 4 ∨ off % 4 ≠ 0) : accessWellFormed size off = false := by
  simp only [accessWellFormed, Bool.and_eq_false_iff, decide_eq_false_iff_not]
  omega

/-- Inside the window, an access that is not a 32-bit access at a multiple of 4 has its own refusal (R61). -/
theorem accessRefusal_of_undefined {p : Platform} {size : Nat} {addr : Word} (hin : windowOffset p addr < 256)
    (hbad : size ≠ 4 ∨ windowOffset p addr % 4 ≠ 0) :
    accessRefusal p size addr = some (.undefinedRegisterAccess size (windowOffset p addr)) := by
  rw [accessRefusal, accessWellFormed_eq_false hbad, if_neg Bool.false_ne_true, if_pos hin]

theorem hostRegRead_refused {s : State} {size : Nat} {addr : Word} {r : Refusal}
    (h : accessRefusal s.platform size addr = some r) : hostRegRead size addr s = .refused r := by
  simp only [hostRegRead, h]

theorem hostRegWrite_refused {s : State} {size : Nat} {addr v : Word} {r : Refusal}
    (h : accessRefusal s.platform size addr = some r) : hostRegWrite size addr v s = .refused r := by
  simp only [hostRegWrite, h]

/-- Settles O43: the host has its turn, and reads and writes meet the same check before any effect. -/
theorem undefinedRegisterAccessesAreRefused : Obligations.UndefinedRegisterAccessesAreRefused := by
  unfold Obligations.UndefinedRegisterAccessesAreRefused
  intro s size addr v rest hscript hin hbad hturn
  have hrefusal := accessRefusal_of_undefined hin hbad
  rcases hscript with hread | hwrite
  · obtain ⟨n, hstep⟩ := step_eq_hostAct hread hturn
    exact hstep.trans (hostRegRead_refused hrefusal)
  · obtain ⟨n, hstep⟩ := step_eq_hostAct hwrite hturn
    exact hstep.trans (hostRegWrite_refused hrefusal)

end Sys2Proof.Proofs
end

section
/-! Proofs for 40_dispatch.md: the region check (R134) and the acceptance of START (R131); what an operation does once
its result waits for completion (R135, R136, R139); NOP and the reserved operation codes (R137, R138). -/

namespace Sys2Proof.Proofs

open Sys2Proof.Machine Sys2Proof.Safety Sys2Proof.Laws

/-! ### The region check (R134) and side effects (R66) -/

/-- Two ranges overlap, as R134 computes it, exactly when they share an address: the greater of their bases. -/
theorem ranges_overlap_iff {src slen dst cap : Nat} :
    (slen > 0 ∧ cap > 0 ∧ src < dst + cap ∧ dst < src + slen) ↔
      ∃ a, (src ≤ a ∧ a < src + slen) ∧ dst ≤ a ∧ a < dst + cap := by
  constructor
  · intro h
    exact ⟨max src dst, by omega⟩
  · rintro ⟨a, h⟩
    omega

/-- `info` is the mask of the conditions that apply, each condition given as a Boolean (R134). -/
theorem regionInfo_eq_mask {src slen dst cap : Nat} {w1 w2 w4 : Bool}
    (h1 : w1 = true ↔ src + slen > dmaSize) (h2 : w2 = true ↔ dst + cap > dmaSize)
    (h4 : w4 = true ↔ slen > 0 ∧ cap > 0 ∧ src < dst + cap ∧ dst < src + slen) :
    regionInfo src slen dst cap = w1.toNat + 2 * w2.toNat + 4 * w4.toNat := by
  simp only [regionInfo, ← h1, ← h2, ← h4]
  clear h1 h2 h4
  revert w1 w2 w4
  decide

theorem regionCheck_of_regionInfo {e : Engine} {info : Nat}
    (h : regionInfo e.src.toNat e.slen.toNat e.dst.toNat e.cap.toNat = info) (h0 : info ≠ 0) :
    regionCheck e = some ⟨.badRegion, info⟩ := by
  unfold regionCheck
  split
  · next hz => exact absurd (h.symm.trans hz) h0
  · rw [h]

/-- A region check that passes has met legal regions. -/
theorem regionsLegal_of_regionCheck {o : BitVec 4} {s : State} (h : regionCheck (latchOperands o s) = none) :
    RegionsLegal s := by
  have hinfo : regionInfo s.srcAddr.toNat s.srcLen.toNat s.dstAddr.toNat s.dstCap.toNat = 0 := by
    by_contra h0
    exact absurd ((regionCheck_of_regionInfo rfl h0).symm.trans h) (by simp)
  simp only [regionInfo, Nat.or_eq_zero_iff, ite_eq_right_iff, Nat.succ_ne_zero, imp_false, Nat.not_lt,
    ranges_overlap_iff] at hinfo
  obtain ⟨⟨hsrc, hdst⟩, hoverlap⟩ := hinfo
  exact ⟨hsrc, hdst, fun a ha => hoverlap ⟨a, ha⟩⟩

/-- A range meets a region exactly when it covers one of the region's addresses. -/
theorem meets_iff {r : AddrRange} {base n : Nat} :
    r.meets base n = true ↔ ∃ a, r.covers a = true ∧ base ≤ a ∧ a < base + n := by
  simp only [AddrRange.meets, AddrRange.covers, Bool.and_eq_true, decide_eq_true_eq]
  constructor
  · intro h
    exact ⟨max r.lo base, by omega⟩
  · rintro ⟨a, h⟩
    omega

/-- The latched regions touch side effects exactly when some address of either region has one (R66). -/
theorem regionsTouchSideEffects_iff {o : BitVec 4} {s : State} :
    regionsTouchSideEffects s.platform (latchOperands o s) = true ↔
      ∃ a, (InSource s a ∨ InDestination s a) ∧ hasSideEffect s.platform a = true := by
  simp only [regionsTouchSideEffects, hasSideEffect, List.any_eq_true, Bool.or_eq_true, meets_iff, InSource,
    InDestination, latchOperands_src, latchOperands_slen, latchOperands_dst, latchOperands_cap]
  constructor
  · rintro ⟨r, hr, ⟨a, hc, ha⟩ | ⟨a, hc, ha⟩⟩
    · exact ⟨a, .inl ha, r, hr, hc⟩
    · exact ⟨a, .inr ha, r, hr, hc⟩
  · rintro ⟨a, ha | ha, r, hr, hc⟩
    · exact ⟨r, hr, .inl ⟨a, hc, ha⟩⟩
    · exact ⟨r, hr, .inr ⟨a, hc, ha⟩⟩

theorem regionsTouchSideEffects_of_ordinary {o : BitVec 4} {s : State} (h : OrdinaryRegions s) :
    regionsTouchSideEffects s.platform (latchOperands o s) = false := by
  rw [Bool.eq_false_iff]
  intro ht
  obtain ⟨a, ha, hside⟩ := regionsTouchSideEffects_iff.mp ht
  exact absurd (h a ha) (by simp [hside])

/-! ### Acceptance (R131) -/

/-- READ and COMPUTE go through unless the regions pass the check and touch side effects (R66). -/
theorem readAndCompute_next {c : Compute} {u : Units} {s : State} (hu : KeepsLatches u)
    (h : regionCheck s.engine = none → regionsTouchSideEffects s.platform s.engine = false) :
    ∃ r t, readAndCompute c u s = .next t ∧ AwaitsResult s r t := by
  cases hr : regionCheck s.engine with
  | some e => exact ⟨_, _, readAndCompute_of_regionError c u hr, awaitsResult_setResult (.refl s.engine) _⟩
  | none =>
    cases hS : snapshot s.platform s.mem s.engine with
    | error e =>
      exact ⟨_, _, readAndCompute_of_snapshotError c u hr (h hr) hS, awaitsResult_setResult (.refl s.engine) _⟩
    | ok S =>
      exact ⟨_, _, readAndCompute_of_snapshot c u hr (h hr) hS,
        awaitsResult_setResult (units_keepLatches hu S _ s.engine) _⟩

/-- A START command while IDLE is accepted, and its result waits for completion (R131), unless legal regions touch side
effects (R66). -/
theorem exec_start_next {i : Instr} {o : BitVec 4} {ie : Bool} {s : State} (hrow : startRow i = some (o, ie))
    (hidle : s.phase = .idle) (h : computeOf i = none ∨ OrdinaryRegions s ∨ ¬ RegionsLegal s) :
    ∃ r t, exec i s = .next t ∧ AwaitsResult (acceptStart o ie s) r t := by
  rcases exec_of_startRow hrow with ⟨-, r, hx⟩ | ⟨c, u, hc, hu, hx⟩
  · exact ⟨r, _, (hx s).trans (startWithoutMemory_idle o r ie hidle),
      awaitsResult_setResult (.refl (latchOperands o s)) r⟩
  · rw [hx, startOperation_idle o c u ie hidle]
    refine readAndCompute_next hu fun hr => ?_
    rcases h with hnone | hord | hillegal
    · exact absurd (hc.symm.trans hnone) (by simp)
    · exact regionsTouchSideEffects_of_ordinary hord
    · exact absurd (regionsLegal_of_regionCheck hr) hillegal

/-- A START command while RUN writes IE only (R243). -/
theorem exec_start_run {i : Instr} {o : BitVec 4} {ie : Bool} {s : State} (hrow : startRow i = some (o, ie))
    (hrun : s.phase = .run) : exec i s = .next (setIe ie s) := by
  rcases exec_of_startRow hrow with ⟨-, r, hx⟩ | ⟨c, u, -, -, hx⟩
  · exact (hx s).trans (startWithoutMemory_run o r ie hrun)
  · exact (hx s).trans (startOperation_run o c u ie hrun)

/-- Settles O13: acceptance sets the fields, and READ and COMPUTE then change the engine alone, keeping its latches. -/
theorem acceptedStartLatchesOperandsAndClearsResults :
    Obligations.AcceptedStartLatchesOperandsAndClearsResults := by
  unfold Obligations.AcceptedStartLatchesOperandsAndClearsResults
  intro i o ie s hrow
  refine ⟨fun hidle h => ?_, exec_start_run hrow⟩
  obtain ⟨r, t, hx, e, hl, -, rfl⟩ := exec_start_next hrow hidle h
  exact ⟨_, hx, rfl, rfl, hl.op, hl.src, hl.slen, hl.dst, hl.cap, hl.pin, rfl, rfl, rfl, rfl, rfl, rfl, rfl, rfl, rfl,
    rfl, rfl, rfl, rfl, rfl, rfl, rfl, rfl, rfl⟩

/-! ### Completion of an operation whose result waits -/

/-- An operation that waits with an error completes with it (R136). -/
theorem failsWith_of_awaitsResult {i : Instr} {o : BitVec 4} {ie : Bool} {s t : State} {e : OpError}
    {P : State → Prop} (hrow : startRow i = some (o, ie)) (hx : exec i s = .next t)
    (ht : AwaitsResult (acceptStart o ie s) (.raised e) t) (hP : P (completeError e { t with wait := 0 })) :
    FailsWith i s e.kind e.info P := by
  obtain ⟨eng, -, hr, rfl⟩ := ht
  have hstep := (step_run_zero rfl rfl).trans
    (completeOperation_raised (s := { acceptStart o ie s with engine := eng, wait := 0 }) hr)
  have hkept : ParamsKept s (acceptStart o ie s) := ⟨rfl, rfl, rfl, rfl, rfl, rfl, rfl, rfl⟩
  exact ⟨o, ie, _, _, hrow, hx, rfl, fun _ => rfl, rfl, hkept, hstep, ⟨rfl, rfl, rfl, rfl, by simp [irq]⟩,
    rfl, rfl, rfl, rfl, rfl, rfl, hkept, hP⟩

/-- An operation that waits with an output that fits and can be written completes with it (R135). -/
theorem succeedsWith_of_awaitsResult {i : Instr} {o : BitVec 4} {ie : Bool} {s t : State} {r : OpOk}
    (hrow : startRow i = some (o, ie)) (hx : exec i s = .next t) (ht : AwaitsResult (acceptStart o ie s) (.ok r) t)
    (hfit : OutputFits s r.out.length) (hdma : s.dstAddr.toNat + r.out.length ≤ dmaSize)
    (hmem : MemoryUpdated s { s with mem := Memory.writeBytes s.mem s.dstAddr.toNat r.out } s.dstAddr.toNat r.out) :
    SucceedsWith i s r.out (r.pad.getD s.pad) r.bitlen r.nsym := by
  obtain ⟨eng, hl, hr, rfl⟩ := ht
  obtain ⟨hcap, hwritable⟩ := hfit
  have hdst : eng.dst = s.dstAddr := hl.dst
  have hcap' : eng.cap = s.dstCap := hl.cap
  rw [← hcap'] at hcap
  rw [← hdst] at hdma hwritable hmem
  have hnone : lowestAddr (fun a => !writable s.platform a) eng.dst.toNat r.out.length = none :=
    lowestAddr_eq_none.mpr fun a h1 h2 => by simp [hwritable a h1 h2]
  have hstep := (step_run_zero rfl rfl).trans ((completeOperation_ok hr).trans
    (writeOut_of_writable (s := { acceptStart o ie s with engine := eng, wait := 0 }) hcap hdma hnone))
  have hkept : ParamsKept s (acceptStart o ie s) := ⟨rfl, rfl, rfl, rfl, rfl, rfl, rfl, rfl⟩
  exact ⟨o, ie, _, _, hrow, hx, rfl, fun _ => rfl, rfl, hkept, hstep, ⟨rfl, rfl, rfl, rfl, by simp [irq]⟩,
    rfl, rfl, rfl, rfl, rfl, rfl, hkept, hdst ▸ hmem⟩

/-- STATUS after an error reads DONE, ERR and the error's code (R26, R136). -/
theorem statusWord_completeError (e : OpError) (s : State) :
    statusWord (completeError e s) = BitVec.ofNat 32 (6 + 256 * (errCode e.kind).toNat) := by
  have herr : statusErr (completeError e s) = true := decide_eq_true (errCode_ne_zero e.kind)
  simp [statusWord, statusBusy, herr]

/-! ### NOP (R137) -/

/-- Settles O15: NOP waits with an empty output, which fits any capacity and writes no byte. -/
theorem nopSucceedsWithoutTouchingMemory : Obligations.NopSucceedsWithoutTouchingMemory := by
  unfold Obligations.NopSucceedsWithoutTouchingMemory
  intro s ie hidle
  have hfit : OutputFits s 0 := ⟨Nat.zero_le _, fun a h1 h2 => absurd h1 (Nat.not_le.mpr h2)⟩
  have hmem : MemoryUpdated s s s.dstAddr.toNat [] := fun a =>
    (if_neg fun h => absurd h.1 (Nat.not_le.mpr h.2)).symm
  exact succeedsWith_of_awaitsResult (r := { out := [] }) rfl (startWithoutMemory_idle 0x0 nopResult ie hidle)
    (awaitsResult_setResult (.refl (latchOperands 0x0 s)) _) hfit (Nat.le_of_lt s.dstAddr.isLt) hmem

/-! ### The reserved operation codes (R138) -/

theorem exec_of_reservedOp {i : Instr} {o : BitVec 4} {ie : Bool} (hrow : startRow i = some (o, ie))
    (h7 : 7 ≤ o.toNat) (s : State) : exec i s = startWithoutMemory o (illegalOp o) ie s := by
  cases i <;> cases hrow
  case nop | count | build | pack | unpack | compress | decompress => exact absurd h7 (by decide)
  all_goals rfl

/-- Settles O23: a reserved code waits with ILLEGAL_OP from acceptance on, and an error completion writes no byte. -/
theorem reservedOpsEndInIllegalOp : Obligations.ReservedOpsEndInIllegalOp := by
  unfold Obligations.ReservedOpsEndInIllegalOp
  intro i o ie s hrow h7 hidle
  have hx := (exec_of_reservedOp hrow h7 s).trans (startWithoutMemory_idle o (illegalOp o) ie hidle)
  exact failsWith_of_awaitsResult (e := ⟨.illegalOp, o.toNat⟩) hrow hx
    (awaitsResult_setResult (.refl (latchOperands o s)) _) ⟨fun _ => rfl, statusWord_completeError _ _, rfl⟩

/-! ### Illegal regions (R134) -/

/-- A command that computes from memory is a START command whose operation runs that function (R132). -/
theorem exec_of_computeOf {i : Instr} {c : Compute} (h : computeOf i = some c) :
    ∃ o ie u, startRow i = some (o, ie) ∧ KeepsLatches u ∧ ∀ s, exec i s = startOperation o c u ie s := by
  have hrow : ∃ o ie, startRow i = some (o, ie) := by cases i <;> cases h <;> exact ⟨_, _, rfl⟩
  obtain ⟨o, ie, hrow⟩ := hrow
  rcases exec_of_startRow hrow with ⟨hnone, -⟩ | ⟨c', u, hc, hu, hx⟩
  · exact absurd (h.symm.trans hnone) (by simp)
  · obtain rfl : c' = c := Option.some.inj (hc.symm.trans h)
    exact ⟨o, ie, u, hrow, hu, hx⟩

/-- Settles O24: the check on the latched operands raises BAD_REGION with the mask, before any access to memory. -/
theorem illegalRegionsEndInBadRegion : Obligations.IllegalRegionsEndInBadRegion := by
  unfold Obligations.IllegalRegionsEndInBadRegion
  intro i c s w1 w2 w4 hc hidle h1 h2 h4 hany
  obtain ⟨o, ie, u, hrow, -, hx⟩ := exec_of_computeOf hc
  have hmask := regionInfo_eq_mask h1 h2 (h4.trans ranges_overlap_iff.symm)
  have hne : w1.toNat + 2 * w2.toNat + 4 * w4.toNat ≠ 0 := by
    clear h1 h2 h4 hmask
    revert w1 w2 w4
    decide
  have hcheck : regionCheck (acceptStart o ie s).engine = some ⟨.badRegion, _⟩ := regionCheck_of_regionInfo hmask hne
  have hstart := (hx s).trans ((startOperation_idle o c u ie hidle).trans (readAndCompute_of_regionError c u hcheck))
  exact failsWith_of_awaitsResult hrow hstart (awaitsResult_setResult (.refl (latchOperands o s)) _) fun _ => rfl

end Sys2Proof.Proofs
end

section
/-! Proofs for 42_tree.md: the table list that `parse_table` accepts and the first check that fails (R160), and the key
order of the queue (R164). -/

namespace Sys2Proof.Proofs

open Sys2Proof.Machine Sys2Proof.Laws

/-! ### The entries of a table list (R160) -/

/-- The symbol of entry j, where the entries start at the head of the bytes. -/
def symAt (bytes : Bytes) (j : Nat) : Byte := bytes.getD (2 * j) 0

/-- The frequency byte of entry j, where the entries start at the head of the bytes. -/
def freqAt (bytes : Bytes) (j : Nat) : Byte := bytes.getD (2 * j + 1) 0

/-- The first n entries at the head of the bytes. -/
def entriesAt (n : Nat) (bytes : Bytes) : Table :=
  (List.range n).map fun j => ⟨symAt bytes j, (freqAt bytes j).toNat⟩

/-- Entry j repeats a symbol of `seen` or of an entry before it. -/
def SymbolRepeats (seen bytes : Bytes) (j : Nat) : Prop :=
  symAt bytes j ∈ seen ∨ ∃ k, k < j ∧ symAt bytes k = symAt bytes j

/-- Entry j passes both checks of R160. -/
def EntryPasses (seen bytes : Bytes) (j : Nat) : Prop := ¬ SymbolRepeats seen bytes j ∧ freqAt bytes j ≠ 0

/-- Entry j is the first that fails, with the error of the check it fails; `i` entries of the list stand before the
bytes. -/
def FirstFailsAt (i : Nat) (seen bytes : Bytes) (j : Nat) (e : OpError) : Prop :=
  (∀ k, k < j → EntryPasses seen bytes k) ∧
  ((e = ⟨.malformedContainer, 1 + 2 * (i + j)⟩ ∧ SymbolRepeats seen bytes j) ∨
   (e = ⟨.malformedContainer, 2 + 2 * (i + j)⟩ ∧ ¬ SymbolRepeats seen bytes j ∧ freqAt bytes j = 0))

@[simp] theorem symAt_cons_zero (s f : Byte) (rest : Bytes) : symAt (s :: f :: rest) 0 = s := rfl

@[simp] theorem symAt_cons_succ (s f : Byte) (rest : Bytes) (j : Nat) :
    symAt (s :: f :: rest) (j + 1) = symAt rest j := rfl

@[simp] theorem freqAt_cons_zero (s f : Byte) (rest : Bytes) : freqAt (s :: f :: rest) 0 = f := rfl

@[simp] theorem freqAt_cons_succ (s f : Byte) (rest : Bytes) (j : Nat) :
    freqAt (s :: f :: rest) (j + 1) = freqAt rest j := rfl

theorem entriesAt_cons (n : Nat) (s f : Byte) (rest : Bytes) :
    entriesAt (n + 1) (s :: f :: rest) = ⟨s, f.toNat⟩ :: entriesAt n rest := by
  simp [entriesAt, List.range_succ_eq_map, Function.comp_def]

@[simp] theorem symbolRepeats_zero (seen bytes : Bytes) : SymbolRepeats seen bytes 0 ↔ symAt bytes 0 ∈ seen := by
  simp [SymbolRepeats]

theorem symbolRepeats_nil_iff {bytes : Bytes} {j : Nat} :
    SymbolRepeats [] bytes j ↔ ∃ k, k < j ∧ symAt bytes k = symAt bytes j := by
  simp [SymbolRepeats]

/-- The head's symbol joins those seen before the tail. -/
theorem symbolRepeats_cons_succ (seen : Bytes) (s f : Byte) (rest : Bytes) (j : Nat) :
    SymbolRepeats seen (s :: f :: rest) (j + 1) ↔ SymbolRepeats (s :: seen) rest j := by
  simp only [SymbolRepeats, Nat.exists_lt_succ_left, symAt_cons_zero, symAt_cons_succ, List.mem_cons]
  rw [eq_comm (a := s), ← or_assoc, or_comm (a := symAt rest j ∈ seen)]

theorem entryPasses_cons_succ (seen : Bytes) (s f : Byte) (rest : Bytes) (j : Nat) :
    EntryPasses seen (s :: f :: rest) (j + 1) ↔ EntryPasses (s :: seen) rest j := by
  rw [EntryPasses, symbolRepeats_cons_succ, freqAt_cons_succ, EntryPasses]

theorem allEntriesPass_cons_iff {n : Nat} {seen : Bytes} {s f : Byte} {rest : Bytes} :
    (∀ j, j < n + 1 → EntryPasses seen (s :: f :: rest) j) ↔
      (s ∉ seen ∧ f ≠ 0) ∧ ∀ j, j < n → EntryPasses (s :: seen) rest j := by
  rw [Nat.forall_lt_succ_left]
  simp [EntryPasses, symbolRepeats_cons_succ]

/-- Behind a head that passes, the first failure of the tail is that of the whole list. -/
theorem FirstFailsAt.cons {i j : Nat} {seen rest : Bytes} {s f : Byte} {e : OpError} (hs : s ∉ seen) (hf : f ≠ 0)
    (h : FirstFailsAt (i + 1) (s :: seen) rest j e) : FirstFailsAt i seen (s :: f :: rest) (j + 1) e := by
  obtain ⟨hbefore, hfails⟩ := h
  refine ⟨allEntriesPass_cons_iff.mpr ⟨⟨hs, hf⟩, hbefore⟩, ?_⟩
  rw [symbolRepeats_cons_succ, freqAt_cons_succ]
  rwa [Nat.add_right_comm i 1 j] at hfails

/-- What the parser answers where no entry is missing: all entries, each of which passes, or the first failure. -/
theorem parseEntries_cases (i n : Nat) (bytes seen : Bytes) (hlen : 2 * n ≤ bytes.length) :
    (parseEntries i n bytes seen = .ok (entriesAt n bytes) ∧ ∀ j, j < n → EntryPasses seen bytes j) ∨
    ∃ j e, j < n ∧ parseEntries i n bytes seen = .error e ∧ FirstFailsAt i seen bytes j e := by
  induction n generalizing i bytes seen with
  | zero => exact .inl ⟨by cases bytes <;> rfl, fun j hj => absurd hj j.not_lt_zero⟩
  | succ n ih =>
    match bytes, hlen with
    | [], hlen | [_], hlen => simp only [List.length_nil, List.length_singleton] at hlen; omega
    | s :: f :: rest, hlen =>
      have hnone : ∀ k, k < 0 → EntryPasses seen (s :: f :: rest) k := fun k hk => absurd hk k.not_lt_zero
      by_cases hs : s ∈ seen
      · exact .inr ⟨0, _, n.succ_pos, if_pos hs, hnone, .inl ⟨rfl, by simpa using hs⟩⟩
      · by_cases hf : f = 0
        · exact .inr ⟨0, _, n.succ_pos, (if_neg hs).trans (if_pos hf), hnone,
            .inr ⟨rfl, by simpa using hs, hf⟩⟩
        · simp only [parseEntries, if_neg hs, if_neg hf]
          have hrest : 2 * n ≤ rest.length := by simp only [List.length_cons] at hlen; omega
          rcases ih (i + 1) rest (s :: seen) hrest with ⟨hok, hpass⟩ | ⟨j, e, hj, herr, hfails⟩
          · exact .inl ⟨by rw [hok, entriesAt_cons], allEntriesPass_cons_iff.mpr ⟨⟨hs, hf⟩, hpass⟩⟩
          · exact .inr ⟨j + 1, e, Nat.succ_lt_succ hj, by rw [herr], hfails.cons hs hf⟩

theorem FirstFailsAt.not_allEntriesPass {i j n : Nat} {seen bytes : Bytes} {e : OpError} (hj : j < n)
    (h : FirstFailsAt i seen bytes j e) : ¬ ∀ k, k < n → EntryPasses seen bytes k := by
  intro hall
  obtain ⟨hnew, hfreq⟩ := hall j hj
  rcases h.2 with ⟨-, hrep⟩ | ⟨-, -, hzero⟩
  · exact hnew hrep
  · exact hfreq hzero

/-- Where no entry is missing, the parser accepts exactly the lists whose entries all pass. -/
theorem parseEntries_ok_iff {i n : Nat} {bytes seen : Bytes} {T : Table} (hlen : 2 * n ≤ bytes.length) :
    parseEntries i n bytes seen = .ok T ↔ (∀ j, j < n → EntryPasses seen bytes j) ∧ T = entriesAt n bytes := by
  rcases parseEntries_cases i n bytes seen hlen with ⟨hok, hpass⟩ | ⟨j, e, hj, herr, hfails⟩
  · rw [hok, Except.ok.injEq, eq_comm]
    exact (and_iff_right hpass).symm
  · rw [herr]
    exact iff_of_false nofun fun h => hfails.not_allEntriesPass hj h.1

theorem parseEntries_error {i n : Nat} {bytes seen : Bytes} {e : OpError} (hlen : 2 * n ≤ bytes.length)
    (h : parseEntries i n bytes seen = .error e) : ∃ j, j < n ∧ FirstFailsAt i seen bytes j e := by
  rcases parseEntries_cases i n bytes seen hlen with ⟨hok, -⟩ | ⟨j, e', hj, herr, hfails⟩
  · exact nomatch hok.symm.trans h
  · obtain rfl : e' = e := Except.error.inj (herr.symm.trans h)
    exact ⟨j, hj, hfails⟩

/-- From the first entry on, the entries before n pass iff their symbols are distinct and their frequencies not 0. -/
theorem allEntriesPass_nil_iff {n : Nat} {bytes : Bytes} :
    (∀ j, j < n → EntryPasses [] bytes j) ↔
      (∀ j k, j < k → k < n → symAt bytes j ≠ symAt bytes k) ∧ ∀ j, j < n → freqAt bytes j ≠ 0 := by
  constructor
  · intro h
    exact ⟨fun j k hjk hk heq => (h k hk).1 (symbolRepeats_nil_iff.mpr ⟨j, hjk, heq⟩), fun j hj => (h j hj).2⟩
  · rintro ⟨hdistinct, hfreq⟩ j hj
    refine ⟨fun hrep => ?_, hfreq j hj⟩
    obtain ⟨k, hk, heq⟩ := symbolRepeats_nil_iff.mp hrep
    exact hdistinct k j hk hj heq

/-! ### The table list (R160) -/

theorem byte_toNat_eq_zero_iff {x : Byte} : x.toNat = 0 ↔ x = 0 := (BitVec.toNat_eq (x := x) (y := 0)).symm

/-- The checks of R160 in their order, the length check in the length of what follows K. -/
theorem parseTable_cons (k : Byte) (rest : Bytes) :
    parseTable (k :: rest) =
      if k = 0 then .error ⟨.malformedContainer, 0⟩
      else if rest.length < 2 * k.toNat then .error ⟨.malformedContainer, rest.length + 1⟩
      else parseEntries 0 k.toNat rest [] := by
  simp only [parseTable, List.length_cons, Nat.add_comm 1, Nat.add_lt_add_iff_right]

theorem parseTable_ok_iff {k : Byte} {rest : Bytes} {T : Table} :
    parseTable (k :: rest) = .ok T ↔
      k ≠ 0 ∧ 2 * k.toNat ≤ rest.length ∧ (∀ j, j < k.toNat → EntryPasses [] rest j) ∧
        T = entriesAt k.toNat rest := by
  rw [parseTable_cons]
  split
  · next hk => exact iff_of_false nofun fun h => h.1 hk
  · next hk =>
    split
    · next hlen => exact iff_of_false nofun fun h => hlen.not_ge h.2.1
    · next hlen =>
      rw [and_iff_right hk, and_iff_right (Nat.not_lt.mp hlen)]
      exact parseEntries_ok_iff (Nat.not_lt.mp hlen)

/-- What an error of the parser says, by the check that raises it. -/
theorem parseTable_error {k : Byte} {rest : Bytes} {e : OpError} (h : parseTable (k :: rest) = .error e) :
    (k = 0 ∧ e = ⟨.malformedContainer, 0⟩) ∨
    (k ≠ 0 ∧ rest.length < 2 * k.toNat ∧ e = ⟨.malformedContainer, rest.length + 1⟩) ∨
    (k ≠ 0 ∧ 2 * k.toNat ≤ rest.length ∧ ∃ j, j < k.toNat ∧ FirstFailsAt 0 [] rest j e) := by
  rw [parseTable_cons] at h
  split at h
  · next hk => exact .inl ⟨hk, (Except.error.inj h).symm⟩
  · next hk =>
    split at h
    · next hlen => exact .inr (.inl ⟨hk, hlen, (Except.error.inj h).symm⟩)
    · next hlen => exact .inr (.inr ⟨hk, Nat.not_lt.mp hlen, parseEntries_error (Nat.not_lt.mp hlen) h⟩)

theorem FirstFailsAt.kind {i j : Nat} {seen bytes : Bytes} {e : OpError} (h : FirstFailsAt i seen bytes j e) :
    e.kind = .malformedContainer := by
  obtain ⟨-, ⟨rfl, -⟩ | ⟨rfl, -⟩⟩ := h <;> rfl

theorem getD_cons_symbol (k : Byte) (rest : Bytes) (j : Nat) : (k :: rest).getD (1 + 2 * j) 0 = symAt rest j := by
  rw [Nat.add_comm, List.getD_cons_succ, symAt]

theorem getD_cons_freq (k : Byte) (rest : Bytes) (j : Nat) : (k :: rest).getD (2 + 2 * j) 0 = freqAt rest j := by
  rw [Nat.add_comm, List.getD_cons_succ, freqAt]

/-- Distinctness as the parser checks it, each symbol against those before it. -/
theorem symAt_injective_iff {n : Nat} {bytes : Bytes} :
    (∀ i j, i < n → j < n → symAt bytes i = symAt bytes j → i = j) ↔
      ∀ j k, j < k → k < n → symAt bytes j ≠ symAt bytes k := by
  constructor
  · intro h j k hjk hk heq
    exact hjk.ne (h j k (hjk.trans hk) hk heq)
  · intro h i j hi hj heq
    rcases Nat.lt_trichotomy i j with hlt | hij | hlt
    · exact absurd heq (h i j hlt hj)
    · exact hij
    · exact absurd heq.symm (h j i hlt hi)

/-- Settles O47: the table is `parseTable_ok_iff`'s, the error is that of the check `parseTable_error` names. -/
theorem parseTableChecksInOrder : Obligations.ParseTableChecksInOrder := by
  unfold Obligations.ParseTableChecksInOrder
  intro S
  cases S with
  | nil => simp [parseTable]
  | cons k rest =>
    have hshort : (k :: rest).length < 1 + 2 * k.toNat ↔ rest.length < 2 * k.toNat := by
      rw [List.length_cons]; omega
    have hlong : 1 + 2 * k.toNat ≤ (k :: rest).length ↔ 2 * k.toNat ≤ rest.length := by
      rw [List.length_cons]; omega
    have hnil : k :: rest ≠ [] := List.cons_ne_nil k rest
    simp only [getD_cons_symbol, getD_cons_freq, List.getD_cons_zero, hshort, hlong, ne_eq, byte_toNat_eq_zero_iff,
      symAt_injective_iff]
    refine ⟨fun T => ?_, fun e he => ?_⟩
    · rw [parseTable_ok_iff, allEntriesPass_nil_iff, and_iff_right hnil, and_assoc]
      rfl
    · rcases parseTable_error he with ⟨hk, rfl⟩ | ⟨hk, hlen, rfl⟩ | ⟨hk, hlen, j, hj, hfails⟩
      · exact ⟨rfl, fun _ => rfl, fun _ h => absurd hk h, fun _ h => absurd hk h⟩
      · exact ⟨rfl, fun h => (h.elim hnil hk).elim, fun _ _ _ => rfl, fun _ _ h => absurd h hlen.not_ge⟩
      · refine ⟨hfails.kind, fun h => (h.elim hnil hk).elim, fun _ _ h => absurd h hlen.not_gt, fun _ _ _ => ?_⟩
        obtain ⟨hbefore, hcheck⟩ := hfails
        obtain ⟨hdistinct, hfreq⟩ := allEntriesPass_nil_iff.mp hbefore
        refine ⟨j, hj, hdistinct, hfreq, ?_⟩
        simp only [symbolRepeats_nil_iff, Nat.zero_add] at hcheck
        rcases hcheck with ⟨rfl, hrep⟩ | ⟨rfl, hnew, hzero⟩
        · exact .inl ⟨rfl, hrep⟩
        · exact .inr ⟨rfl, fun k hk heq => hnew ⟨k, hk, heq⟩, hzero⟩

/-! ### Extraction from the queue (R164) -/

/-- The key of node x, frequency before index (R164). -/
def nodeKey (A : Arena) (x : Nat) : Nat ×ₗ Nat := toLex (arenaFreq A x, x)

theorem nodeKey_lt_iff {A : Arena} {x y : Nat} :
    nodeKey A x < nodeKey A y ↔ arenaFreq A x < arenaFreq A y ∨ (arenaFreq A x = arenaFreq A y ∧ x < y) :=
  Prod.Lex.toLex_lt_toLex

theorem nodeKey_injective (A : Arena) : Function.Injective (nodeKey A) := fun _ _ h =>
  congrArg (fun k => (ofLex k).2) h

theorem keyLess_iff {A : Arena} {x y : Nat} : keyLess A x y = true ↔ nodeKey A x < nodeKey A y := by
  simp [keyLess, nodeKey_lt_iff]

/-- One step of `argmin` keeps the smaller key. -/
theorem nodeKey_if_keyLess (A : Arena) (x best : Nat) :
    nodeKey A (if keyLess A x best then x else best) = min (nodeKey A x) (nodeKey A best) := by
  split
  · next h => exact (min_eq_left (keyLess_iff.mp h).le).symm
  · next h => exact (min_eq_right (not_lt.mp fun hlt => h (keyLess_iff.mpr hlt))).symm

theorem nodeKey_argmin_le {A : Arena} {best y : Nat} {xs : List Nat} (hy : y ∈ best :: xs) :
    nodeKey A (argmin A best xs) ≤ nodeKey A y := by
  induction xs generalizing best y with
  | nil => rw [List.mem_singleton.mp hy, argmin]
  | cons x xs ih =>
    have hkept : nodeKey A (argmin A (if keyLess A x best then x else best) xs) ≤ min (nodeKey A x) (nodeKey A best) :=
      nodeKey_if_keyLess A x best ▸ ih List.mem_cons_self
    rw [argmin]
    rcases List.mem_cons.mp hy with rfl | htail
    · exact hkept.trans (min_le_right _ _)
    · rcases List.mem_cons.mp htail with rfl | hxs
      · exact hkept.trans (min_le_left _ _)
      · exact ih (List.mem_cons_of_mem _ hxs)

theorem extractMin_key_le {A : Arena} {pq rest : List Nat} {a x : Nat} (h : extractMin A pq = some (a, rest))
    (hx : x ∈ pq) : nodeKey A a ≤ nodeKey A x := by
  cases pq with
  | nil => cases h
  | cons y ys =>
    obtain ⟨rfl, -⟩ := Prod.mk.inj (Option.some.inj h)
    exact nodeKey_argmin_le hx

/-- Settles O48: the extracted key is a least one, and a node that remains is another node, so its key differs. -/
theorem extractionTakesTheSmallestKey : Obligations.ExtractionTakesTheSmallestKey := by
  unfold Obligations.ExtractionTakesTheSmallestKey
  intro A pq rest a hnodup h
  obtain ⟨hmem, hrest, -⟩ := extractMin_spec h
  refine ⟨hmem, hrest, fun x hx => ?_⟩
  obtain ⟨hne, hxpq⟩ := hnodup.mem_erase_iff.mp (hrest ▸ hx)
  exact nodeKey_lt_iff.mp ((extractMin_key_le h hxpq).lt_of_ne fun heq => hne (nodeKey_injective A heq).symm)

end Sys2Proof.Proofs
end

section
/-! Proofs for 43_bitpack.md: where `pack` puts every bit, and its padding (R190, R191). -/

namespace Sys2Proof.Proofs

open Sys2Proof.Machine

/-! ### One byte (R190) -/

/-- Bits read most significant first give the number whose bit i is the i-th bit from the end. -/
theorem testBit_foldl_bits (g : Bits) (i : Nat) :
    (g.foldl (fun n (b : Bool) => 2 * n + b.toNat) 0).testBit i = g.reverse.getD i false := by
  induction g using List.reverseRecOn generalizing i with
  | nil => simp
  | append_singleton g b ih =>
    rw [List.foldl_concat, List.reverse_concat, ← Nat.bit_val]
    cases i with
    | zero => rw [Nat.testBit_bit_zero, List.getD_cons_zero]
    | succ i => rw [Nat.testBit_bit_succ, List.getD_cons_succ, ih]

/-- Bit 7 - k of the byte is bit k of its group of eight (R190). -/
theorem byteOfBits_getLsbD {g : Bits} {k : Nat} (hg : g.length = 8) (hk : k < 8) :
    (byteOfBits g).getLsbD (7 - k) = g.getD k false := by
  have hlt : 7 - k < 8 := by omega
  rw [byteOfBits, BitVec.getLsbD_ofNat, decide_eq_true hlt, Bool.true_and, testBit_foldl_bits,
    List.getD_reverse (7 - k) (hg.symm ▸ hlt), hg, show 8 - 1 - (7 - k) = k by omega]

/-! ### The bytes of a bit sequence (R190) -/

/-- Only a sequence shorter than eight bits has no first group of eight. -/
theorem length_lt_eight_of_no_group {c : Bits}
    (h : ∀ b0 b1 b2 b3 b4 b5 b6 b7 rest, c = b0 :: b1 :: b2 :: b3 :: b4 :: b5 :: b6 :: b7 :: rest → False) :
    c.length < 8 := by
  match c with
  | [] | [_] | [_, _] | [_, _, _] | [_, _, _, _] | [_, _, _, _, _] | [_, _, _, _, _, _] | [_, _, _, _, _, _, _] =>
    simp
  | _ :: _ :: _ :: _ :: _ :: _ :: _ :: _ :: _ => exact (h _ _ _ _ _ _ _ _ _ rfl).elim

@[simp] theorem packBytes_length (c : Bits) : (packBytes c).length = c.length / 8 := by
  fun_induction packBytes c with
  | case1 b0 b1 b2 b3 b4 b5 b6 b7 rest ih => simp only [List.length_cons, ih]; omega
  | case2 c hc => exact (Nat.div_eq_of_lt (length_lt_eight_of_no_group hc)).symm

/-- Bit 7 - k of byte j is bit 8j + k of the sequence (R190). -/
theorem packBytes_getLsbD {c : Bits} {j k : Nat} (hj : j < (packBytes c).length) (hk : k < 8) :
    ((packBytes c).getD j 0).getLsbD (7 - k) = c.getD (8 * j + k) false := by
  fun_induction packBytes c generalizing j with
  | case1 b0 b1 b2 b3 b4 b5 b6 b7 rest ih =>
    cases j with
    | zero =>
      rw [List.getD_cons_zero, byteOfBits_getLsbD rfl hk, Nat.mul_zero, Nat.zero_add]
      exact (List.getD_append [b0, b1, b2, b3, b4, b5, b6, b7] rest false k hk).symm
    | succ j =>
      rw [List.getD_cons_succ, ih (Nat.lt_of_succ_lt_succ hj), show 8 * (j + 1) + k = 8 * j + k + 8 by omega]
      rfl
  | case2 => exact absurd hj (Nat.not_lt_zero j)

/-! ### The padding (R191) -/

/-- Every bit after the sequence is 0. -/
@[simp] theorem padded_getD (b : Bits) (i : Nat) : (padded b).getD i false = b.getD i false := by
  rcases Nat.lt_or_ge i b.length with hi | hi
  · rw [padded, List.getD_append _ _ _ _ hi]
  · rw [padded, List.getD_append_right _ _ _ _ hi, List.getD_eq_getElem?_getD,
      List.getElem?_getD_replicate_default_eq, List.getD_eq_default _ _ hi]

/-- The padded sequence fills ceil(L/8) bytes (R190). -/
theorem padded_length_div (b : Bits) : (padded b).length / 8 = (b.length + 7) / 8 := by
  simp only [padded, padCount, List.length_append, List.length_replicate]; omega

/-- Settles O54: the bytes hold the bits of the padded sequence in order, and the padded sequence reads as the sequence
with 0 after its end. -/
theorem packPlacesEveryBit : Obligations.PackPlacesEveryBit := by
  unfold Obligations.PackPlacesEveryBit
  intro b
  refine ⟨rfl, (packBytes_length (padded b)).trans (padded_length_div b), fun j k hj hk => ?_⟩
  exact (packBytes_getLsbD hj hk).trans (padded_getD b (8 * j + k))

end Sys2Proof.Proofs
end

section
/-! Proofs for 44_codec.md: an operation on executable registers computes from its source bytes and writes an output that
fits (R132, R133, R135); COMPRESS and DECOMPRESS of nothing (R218). -/

namespace Sys2Proof.Proofs

open Sys2Proof.Machine Sys2Proof.Safety Sys2Proof.Laws

/-! ### READ and COMPUTE on executable registers (R132 to R134) -/

/-- Legal regions pass the region check (R134), the converse of `regionsLegal_of_regionCheck`. -/
theorem regionCheck_of_regionsLegal {o : BitVec 4} {s : State} (h : RegionsLegal s) :
    regionCheck (latchOperands o s) = none := by
  obtain ⟨hsrc, hdst, hdisjoint⟩ := h
  have hoverlap := (not_congr ranges_overlap_iff).mpr (not_exists.mpr hdisjoint)
  have hinfo : regionInfo s.srcAddr.toNat s.srcLen.toNat s.dstAddr.toNat s.dstCap.toNat = 0 := by
    simp only [regionInfo, if_neg (Nat.not_lt.mpr hsrc), if_neg (Nat.not_lt.mpr hdst), if_neg hoverlap, Nat.or_self]
  simp only [regionCheck, latchOperands_src, latchOperands_slen, latchOperands_dst, latchOperands_cap, hinfo]

/-- READ of a readable source region gives its bytes (R133). -/
theorem snapshot_of_readable {o : BitVec 4} {s : State}
    (h : ∀ a, InSource s a → readable s.platform a = true) :
    snapshot s.platform s.mem (latchOperands o s) = .ok (sourceBytes s) := by
  have hnone : lowestAddr (fun a => !readable s.platform a) s.srcAddr.toNat s.srcLen.toNat = none :=
    lowestAddr_eq_none.mpr fun a h1 h2 => by simp [h a ⟨h1, h2⟩]
  simp only [snapshot, latchOperands_src, latchOperands_slen, hnone, readBytes_source]

/-- A memory operation on executable registers waits for completion with what it computes from its source bytes and PAD
(R132). -/
theorem exec_of_executable {i : Instr} {c : Compute} {s : State} (hs : Executable s) (hc : computeOf i = some c) :
    ∃ o ie t, startRow i = some (o, ie) ∧ exec i s = .next t ∧
      AwaitsResult (acceptStart o ie s) (toResult (c (sourceBytes s) s.pad)) t := by
  obtain ⟨o, ie, u, hrow, hu, hx⟩ := exec_of_computeOf hc
  have hread := readAndCompute_of_snapshot (s := acceptStart o ie s) c u (regionCheck_of_regionsLegal hs.legal)
    (regionsTouchSideEffects_of_ordinary hs.ordinary) (snapshot_of_readable hs.readable)
  exact ⟨o, ie, _, hrow, (hx s).trans ((startOperation_idle o c u ie hs.idle).trans hread),
    awaitsResult_setResult (units_keepLatches hu _ _ (latchOperands o s)) _⟩

/-! ### Success of a memory operation (R135) -/

/-- The writes of WRITE change the bytes of the output's range alone (R68). -/
theorem memoryUpdated_writeBytes {s : State} (h : Memory.wf s.mem) (dst : Nat) (out : Bytes) :
    MemoryUpdated s { s with mem := Memory.writeBytes s.mem dst out } dst out := by
  intro a
  split
  · next hin =>
    obtain ⟨i, rfl⟩ := Nat.exists_eq_add_of_le hin.1
    rw [Nat.add_sub_cancel_left]
    exact read_writeBytes_inside h.1 (Nat.lt_of_add_lt_add_left hin.2)
  · exact read_writeBytes_outside s.mem (by omega)

/-- A memory operation on executable registers whose computed output fits succeeds with it (R132, R135). -/
theorem succeedsWith_of_compute {i : Instr} {c : Compute} {s : State} {r : OpOk} (hs : Executable s)
    (hc : computeOf i = some c) (hr : c (sourceBytes s) s.pad = .ok r) (hfit : OutputFits s r.out.length) :
    SucceedsWith i s r.out (r.pad.getD s.pad) r.bitlen r.nsym := by
  obtain ⟨o, ie, t, hrow, hx, ht⟩ := exec_of_executable hs hc
  rw [hr] at ht
  obtain ⟨-, hdst, -⟩ := hs.legal
  exact succeedsWith_of_awaitsResult hrow hx ht hfit (Nat.le_trans (Nat.add_le_add_left hfit.1 _) hdst)
    (memoryUpdated_writeBytes hs.mem _ _)

/-- An output of no bytes fits any capacity, 0 included. -/
theorem outputFits_zero (s : State) : OutputFits s 0 :=
  ⟨Nat.zero_le _, fun _ h1 h2 => absurd h1 (Nat.not_le.mpr h2)⟩

/-! ### Nothing in, nothing out (R218) -/

theorem sourceBytes_of_srcLen_eq_zero {s : State} (h : s.srcLen = 0) : sourceBytes s = [] := by
  simp [sourceBytes, h]

theorem compressOp_nil (pin : BitVec 4) : compressOp [] pin = .ok { out := [], pad := some 0 } := rfl

theorem decompressOp_nil (pin : BitVec 4) : decompressOp [] pin = .ok { out := [], pad := some 0 } := rfl

/-- Settles O22: on the empty source both operations compute the empty output with PAD 0, which fits any capacity. -/
theorem emptyInputAndEmptyContainerSucceed : Obligations.EmptyInputAndEmptyContainerSucceed := by
  unfold Obligations.EmptyInputAndEmptyContainerSucceed
  intro s ie hs hlen
  have hsrc := sourceBytes_of_srcLen_eq_zero hlen
  have hc := (congrArg (compressOp · s.pad) hsrc).trans (compressOp_nil s.pad)
  have hd := (congrArg (decompressOp · s.pad) hsrc).trans (decompressOp_nil s.pad)
  exact ⟨succeedsWith_of_compute (i := .compress ie) hs rfl hc (outputFits_zero s),
    succeedsWith_of_compute (i := .decompress ie) hs rfl hd (outputFits_zero s)⟩

end Sys2Proof.Proofs
end

section
/-! Proofs for 45_control.md: what CTRL and STATUS writes decode to, and the control commands: SRST and the reset input
(R240), ACK (R241) and a CTRL write while RUN (R243). -/

namespace Sys2Proof.Proofs

open Sys2Proof.Machine Sys2Proof.Safety Sys2Proof.Laws

/-! ### CTRL and STATUS words (R90, R91) -/

@[simp] theorem decode_ctrl (w : Word) : decode ctrlOffset w = .ok (decodeCtrl w) := rfl

@[simp] theorem decode_status (w : Word) : decode statusOffset w = .ok (decodeStatus w) := rfl

theorem decodeCtrl_of_srst {w : Word} (h : ctrlSrst w = true) : decodeCtrl w = .srst := if_pos h

theorem startRow_startCommand (op : BitVec 4) (ie : Bool) : startRow (startCommand op ie) = some (op, ie) := by
  revert op ie
  decide

/-- Without SRST a CTRL word is a START command or an IE write, with OP and IE of the word (R91). -/
theorem decodeCtrl_cases {w : Word} (h : ctrlSrst w = false) :
    startRow (decodeCtrl w) = some (ctrlOpField w, ctrlIeBit w) ∨
    decodeCtrl w = .ieWrite (ctrlOpField w).toNat (ctrlIeBit w) := by
  simp only [decodeCtrl, h, Bool.false_eq_true, if_false]
  split
  · exact .inl (startRow_startCommand _ _)
  · exact .inr rfl

/-! ### CTRL writes while RUN (R243) -/

theorem execIeWrite_run {s : State} (h : s.phase = .run) (op : Nat) (ie : Bool) :
    execIeWrite op ie s = .next (setIe ie s) := by
  simp only [execIeWrite, h]

/-- Settles O12: without SRST the word is a START command or an IE write, and while RUN each writes IE only. -/
theorem ctrlWriteWhileRunWritesIeOnly : Obligations.CtrlWriteWhileRunWritesIeOnly := by
  unfold Obligations.CtrlWriteWhileRunWritesIeOnly
  intro s w i hrun hsrst hi
  obtain rfl : decodeCtrl w = i := Except.ok.inj ((decode_ctrl w).symm.trans hi)
  rcases decodeCtrl_cases hsrst with hstart | hie
  · exact exec_start_run hstart hrun
  · rw [hie]
    exact execIeWrite_run hrun _ _

/-! ### SRST and the reset input (R240, R290) -/

/-- Every register of the window reads its reset value, and no read looks at what a reset leaves free (R49). -/
theorem readReg_resetDevice (s : State) (off : Nat) : readReg (resetDevice s) off = readReg State.reset off := by
  unfold readReg
  split <;> rfl

/-- A reset while RUN frees bytes of the abandoned destination region alone (R69). -/
theorem read_resetDevice_outside {s : State} (hrun : s.phase = .run) {a : Nat}
    (ha : a < s.engine.dst.toNat ∨ s.engine.dst.toNat + s.engine.cap.toNat ≤ a) :
    Memory.read (resetDevice s).mem a = Memory.read s.mem a := by
  rw [resetDevice_mem_run s hrun]
  exact read_scramble_outside s.mem (by omega)

/-- Settles O8: SRST and the reset input are one operation on the device, whatever the phase. -/
theorem softResetRestoresResetValues : Obligations.SoftResetRestoresResetValues := by
  unfold Obligations.SoftResetRestoresResetValues
  refine ⟨fun w hw => (decode_ctrl w).trans (congrArg _ (decodeCtrl_of_srst hw)), fun s => ?_⟩
  exact ⟨resetDevice s, rfl, rfl, readReg_resetDevice s, rfl, rfl, rfl, rfl, rfl, rfl, resetDevice_mem_idle s,
    fun hrun _ => read_resetDevice_outside hrun⟩

/-! ### ACK (R241) -/

theorem clearDone_of_not_done {s : State} (h : s.done = false) : clearDone s = s := by
  rw [clearDone, ← h]

/-- Settles O9: ACK is `clearDone` in every state, and a STATUS write without bit 1 is the identity. -/
theorem acknowledgeClearsDoneOnly : Obligations.AcknowledgeClearsDoneOnly := by
  unfold Obligations.AcknowledgeClearsDoneOnly
  exact ⟨decode_status, fun s =>
    ⟨⟨clearDone s, rfl, rfl, rfl⟩, fun h => congrArg Host.Outcome.next (clearDone_of_not_done h), rfl⟩⟩

end Sys2Proof.Proofs
end

section
/-! Proofs for 70_reset_and_hazards.md: register writes that are no commands, while IDLE and while RUN (R295, R36), and
host writes of memory beside the engine (R75, R296). -/

namespace Sys2Proof.Proofs

open Sys2Proof.Machine Sys2Proof.Laws

/-! ### What a parameter write leaves in each register (R27 to R30, R32) -/

theorem mem_paramOffsets_iff {off : Nat} :
    off ∈ paramOffsets ↔ off = 0x10 ∨ off = 0x14 ∨ off = 0x18 ∨ off = 0x1C ∨ off = 0x24 := by
  simp [paramOffsets]

/-- A parameter write is five independent updates, each guarded by its register's offset. -/
theorem writeParam_eq (off : Nat) (v : Word) (s : State) :
    writeParam off v s = { s with
      srcAddr := if off = 0x10 then v else s.srcAddr
      srcLen := if off = 0x14 then v else s.srcLen
      dstAddr := if off = 0x18 then v else s.dstAddr
      dstCap := if off = 0x1C then v else s.dstCap
      pad := if off = 0x24 then v.setWidth 4 else s.pad } := by
  by_cases h : off ∈ paramOffsets
  · rcases mem_paramOffsets_iff.mp h with rfl | rfl | rfl | rfl | rfl <;> rfl
  · rw [writeParam_of_not_param h]
    simp only [mem_paramOffsets_iff, not_or] at h
    simp only [h, if_false]

/-- PAD reads back the low four bits of the word written (R32). -/
theorem setWidth_setWidth_four (v : Word) : (v.setWidth 4).setWidth 32 = v &&& 0xF#32 := by
  apply BitVec.eq_of_toNat_eq
  have hlow : v.toNat &&& 15 = v.toNat % 16 := Nat.and_two_pow_sub_one_eq_mod _ 4
  simp only [BitVec.toNat_setWidth, BitVec.toNat_and, BitVec.toNat_ofNat, Nat.reducePow, Nat.reduceMod]
  omega

theorem readReg_writeParam_other {off r : Nat} (h : r ≠ off) (v : Word) (s : State) :
    readReg (writeParam off v s) r = readReg s r := by
  rw [writeParam_eq]
  unfold readReg
  split
  case h_5 | h_6 | h_7 | h_8 | h_10 => simp only [h.symm, if_false]
  all_goals rfl

theorem readReg_writeParam_same (off : Nat) (v : Word) (s : State) :
    readReg (writeParam off v s) off =
      if off = 0x10 ∨ off = 0x14 ∨ off = 0x18 ∨ off = 0x1C then v
      else if off = 0x24 then v &&& 0xF#32
      else readReg s off := by
  by_cases h : off ∈ paramOffsets
  · rcases mem_paramOffsets_iff.mp h with rfl | rfl | rfl | rfl | rfl
    iterate 4 rfl
    exact setWidth_setWidth_four v
  · rw [writeParam_of_not_param h]
    simp only [mem_paramOffsets_iff, not_or] at h
    simp only [h, or_false, if_false]

/-- The written register reads the word, PAD its low four bits; every other offset keeps what it read. -/
theorem readReg_writeParam (off r : Nat) (v : Word) (s : State) :
    readReg (writeParam off v s) r =
      if r = off ∧ (off = 0x10 ∨ off = 0x14 ∨ off = 0x18 ∨ off = 0x1C) then v
      else if r = off ∧ off = 0x24 then v &&& 0xF#32
      else readReg s r := by
  by_cases h : r = off
  · subst h
    simpa only [true_and] using readReg_writeParam_same r v s
  · simpa only [h, false_and, if_false] using readReg_writeParam_other h v s

/-! ### Register writes that are no commands (R90, R295) -/

theorem accessRefusal_eq_none {p : Platform} {size : Nat} {addr : Word}
    (h : accessWellFormed size (windowOffset p addr) = true) : accessRefusal p size addr = none :=
  if_pos h

theorem decode_of_not_command {off : Nat} (hctrl : off ≠ ctrlOffset) (hstatus : off ≠ statusOffset) (v : Word) :
    decode off v = .error (.notACommandRegister off) := by
  rw [decode, if_neg hctrl, if_neg hstatus]

/-- A well-formed write of a register other than CTRL and STATUS is a plain register write (R90). -/
theorem hostRegWrite_of_not_command {s : State} {size off : Nat} {addr : Word} (hoff : off = windowOffset s.platform addr)
    (hwf : accessWellFormed size off = true) (hctrl : off ≠ ctrlOffset) (hstatus : off ≠ statusOffset) (v : Word) :
    hostRegWrite size addr v s = .next (writeReg off v s) := by
  subst hoff
  simp only [hostRegWrite, accessRefusal_eq_none hwf, decode_of_not_command hctrl hstatus]

/-- Settles O42: the write is `writeReg` in the host's turn, which is `writeParam` while IDLE and the identity while
RUN. -/
theorem parameterWritesTakeEffectWhileIdleOnly : Obligations.ParameterWritesTakeEffectWhileIdleOnly := by
  unfold Obligations.ParameterWritesTakeEffectWhileIdleOnly
  intro s addr v rest off hscript hoff hwf hctrl hstatus
  have hwrite : ∀ t : State, t.platform = s.platform → hostAct (.regWrite 4 addr v) t = .next (writeReg off v t) :=
    fun t ht => hostRegWrite_of_not_command (hoff.trans (congrArg (windowOffset · addr) ht.symm)) hwf hctrl hstatus v
  constructor
  · intro hidle
    have hstep : step s = .next (writeParam off v { s with script := rest }) := by
      rw [step_idle hidle, hostTurn_cons hscript, hwrite { s with script := rest } rfl, writeReg_idle]
      exact hidle
    refine ⟨_, hstep, ?_, ?_, ?_, ?_, ?_, ?_, ?_, fun r => readReg_writeParam off r v { s with script := rest }⟩
    all_goals rw [writeParam_eq]
    exact hidle
  · intro n hrun hwait
    rw [step_run_succ hrun hwait, hostTurn_cons (s := { s with wait := n }) hscript,
      hwrite { s with script := rest, wait := n } rfl, writeReg_run]
    exact hrun

/-! ### Host writes of memory (R75, R296) -/

theorem ownedAddr_iff {e : Engine} {a : Nat} :
    ownedAddr e a = true ↔
      (e.src.toNat ≤ a ∧ a < e.src.toNat + e.slen.toNat) ∨ (e.dst.toNat ≤ a ∧ a < e.dst.toNat + e.cap.toNat) := by
  rw [ownedAddr, Bool.or_eq_true, inRegion_iff, inRegion_iff]

theorem hostMemStore_owned {s : State} {a : Word} (hside : hasSideEffect s.platform a.toNat = false)
    (h : s.phase = .run ∧ ownedAddr s.engine a.toNat = true) (v : Byte) :
    hostMemStore a v s = .refused (.ownedByEngine a) := by
  rw [hostMemStore, hside, if_neg Bool.false_ne_true, if_pos h]

theorem hostMemStore_free {s : State} {a : Word} (hside : hasSideEffect s.platform a.toNat = false)
    (h : ¬ (s.phase = .run ∧ ownedAddr s.engine a.toNat = true)) (v : Byte) :
    hostMemStore a v s = .next { s with mem := Memory.write s.mem a.toNat v } := by
  rw [hostMemStore, hside, if_neg Bool.false_ne_true, if_neg h]

/-- Memory in canonical form, after a write, holds the byte at its address and its old bytes elsewhere. -/
theorem read_write {m : Memory} (h : Memory.wf m) (a b : Nat) (v : Byte) :
    Memory.read (Memory.write m a v) b = if b = a then v else Memory.read m b := by
  split
  · next hb => rw [hb, read_write_same h.1]
  · next hb => exact read_write_other m v hb

/-- Settles O44: the refused writes are those to an address the engine owns while RUN; any other is one memory write. -/
theorem hostStoresRespectTheEnginesOwnership : Obligations.HostStoresRespectTheEnginesOwnership := by
  unfold Obligations.HostStoresRespectTheEnginesOwnership
  intro s a v hside hwf
  simp only [← ownedAddr_iff]
  refine ⟨fun hbusy => hostMemStore_owned hside hbusy v, fun hfree => ?_⟩
  exact ⟨_, hostMemStore_free hside hfree v, rfl, write_wf hwf a.isLt v, fun b => read_write hwf a.toNat b v⟩

end Sys2Proof.Proofs
end

section
/-! Proofs for 30_encoding.md: the fields of a command word, the encoder's words decoded back (R90, R92), and the rows
of the opcode table as masks and matches (R91). -/

namespace Sys2Proof.Proofs

open Sys2Proof.Machine Sys2Proof.Safety

/-! ### The words the encoder writes -/

/-- A CTRL word holds its three fields where the decoder reads them, and SRST = 0 (R90). -/
theorem ctrlWord_fields (start : Bool) {op : Nat} (hop : op < 16) (ie : Bool) :
    ctrlSrst (ctrlWord start op ie) = false ∧ ctrlStart (ctrlWord start op ie) = start ∧
      ctrlOpField (ctrlWord start op ie) = BitVec.ofNat 4 op ∧ ctrlIeBit (ctrlWord start op ie) = ie := by
  revert start ie
  interval_cases op <;> decide

theorem decodeCtrl_ctrlWord_start {op : Nat} (hop : op < 16) (ie : Bool) :
    decodeCtrl (ctrlWord true op ie) = startCommand (BitVec.ofNat 4 op) ie := by
  obtain ⟨hsrst, hstart, hfield, hie⟩ := ctrlWord_fields true hop ie
  simp only [decodeCtrl, hsrst, hstart, hfield, hie, Bool.false_eq_true, if_false, if_true]

theorem decodeCtrl_ctrlWord_ieWrite {op : Nat} (hop : op < 16) (ie : Bool) :
    decodeCtrl (ctrlWord false op ie) = .ieWrite op ie := by
  obtain ⟨hsrst, hstart, hfield, hie⟩ := ctrlWord_fields false hop ie
  simp only [decodeCtrl, hsrst, hstart, hfield, hie, Bool.false_eq_true, if_false, BitVec.toNat_ofNat,
    Nat.mod_eq_of_lt hop]

/-- Settles O2: a START or IE_WRITE word is `ctrlWord`, whose fields the decoder reads back; the other three words are
constants. -/
theorem decodingAnEncodedCommandGivesItBack : Obligations.DecodingAnEncodedCommandGivesItBack := by
  unfold Obligations.DecodingAnEncodedCommandGivesItBack
  intro i hwf
  cases i
  case ieWrite op ie =>
    have hop : op < 16 := by simpa [Instr.wellFormed] using hwf
    exact congrArg _ (decodeCtrl_ctrlWord_ieWrite hop ie)
  case srst | ack | statusWriteNop => rfl
  all_goals exact congrArg _ (decodeCtrl_ctrlWord_start (by decide) _)

/-- Settles O1: each word is decoded by evaluation. -/
theorem specWordsDecodeToTheirCommands : Obligations.SpecWordsDecodeToTheirCommands := by
  unfold Obligations.SpecWordsDecodeToTheirCommands
  decide

/-! ### Masks and matches (R91) -/

/-- Under the mask of one bit, a word matches that bit or 0 as the bit is set or not. -/
theorem and_bit_eq_iff (w : Word) {k : Nat} (hk : k < 32) (b : Bool) :
    w &&& BitVec.twoPow 32 k = (if b then BitVec.twoPow 32 k else 0) ↔ w.getLsbD k = b := by
  rw [BitVec.and_twoPow]
  have hne : BitVec.twoPow 32 k ≠ 0#32 := fun h => by simpa [hk] using congrArg (·.getLsbD k) h
  cases w.getLsbD k <;> cases b <;> simp [hne, hne.symm]

/-- A word matches a value under a mask, bit by bit, where the value has no bit outside the mask. -/
theorem and_mask_eq_iff {w m v : Word} (hv : v &&& m = v) :
    w &&& m = v ↔ ∀ k, k < 32 → m.getLsbD k = true → w.getLsbD k = v.getLsbD k := by
  constructor
  · rintro rfl k hk hm
    simp [hm]
  · intro h
    rw [← hv]
    refine BitVec.eq_of_getLsbD_eq fun k hk => ?_
    rw [BitVec.getLsbD_and, BitVec.getLsbD_and]
    cases hm : m.getLsbD k with
    | false => simp
    | true => rw [h k hk hm]

theorem startMatch_subset (o : BitVec 4) :
    ((o.setWidth 32 <<< 4) ||| 0x1#32) &&& 0x800000F1#32 = (o.setWidth 32 <<< 4) ||| 0x1#32 := by
  revert o
  decide

theorem startMatch_getLsbD (o : BitVec 4) :
    ((o.setWidth 32 <<< 4) ||| 0x1#32).getLsbD 31 = false ∧ ((o.setWidth 32 <<< 4) ||| 0x1#32).getLsbD 0 = true ∧
      ∀ k, k < 4 → ((o.setWidth 32 <<< 4) ||| 0x1#32).getLsbD (4 + k) = o.getLsbD k := by
  revert o
  decide

/-- The bits of the START rows' mask. -/
theorem startMask_getLsbD {k : Nat} (hk : k < 32) :
    (0x800000F1#32).getLsbD k = true ↔ k = 31 ∨ k = 0 ∨ ∃ j, j < 4 ∧ k = 4 + j := by
  revert k
  decide

/-- The START row's mask and match name SRST = 0, START = 1 and the code in OP (R91). -/
theorem startMatch_iff {w : Word} {o : BitVec 4} :
    w &&& 0x800000F1#32 = (o.setWidth 32 <<< 4) ||| 0x1#32 ↔
      ctrlSrst w = false ∧ ctrlStart w = true ∧ ctrlOpField w = o := by
  obtain ⟨h31, h0, hop⟩ := startMatch_getLsbD o
  rw [and_mask_eq_iff (startMatch_subset o)]
  constructor
  · intro h
    refine ⟨(h 31 (by decide) (by decide)).trans h31, (h 0 (by decide) (by decide)).trans h0,
      BitVec.eq_of_getLsbD_eq fun k hk => ?_⟩
    have hmask := (startMask_getLsbD (k := 4 + k) (by omega)).mpr (.inr (.inr ⟨k, hk, rfl⟩))
    simp only [ctrlOpField, BitVec.getLsbD_extractLsb', hk, decide_true, Bool.true_and]
    exact (h (4 + k) (by omega) hmask).trans (hop k hk)
  · rintro ⟨hsrst, hstart, rfl⟩ k hk hmask
    rcases (startMask_getLsbD hk).mp hmask with rfl | rfl | ⟨j, hj, rfl⟩
    · exact hsrst.trans h31.symm
    · exact hstart.trans h0.symm
    · rw [hop j hj]
      simp [ctrlOpField, hj]

/-- The IE_WRITE row's mask and match name SRST = 0 and START = 0 (R91). -/
theorem ieWriteMatch_iff {w : Word} : w &&& 0x80000001#32 = 0 ↔ ctrlSrst w = false ∧ ctrlStart w = false := by
  have hmask : ∀ k, k < 32 → ((0x80000001#32).getLsbD k = true ↔ k = 31 ∨ k = 0) := by decide
  rw [and_mask_eq_iff (by decide)]
  constructor
  · intro h
    exact ⟨h 31 (by decide) (by decide), h 0 (by decide) (by decide)⟩
  · rintro ⟨hsrst, hstart⟩ k hk hm
    rcases (hmask k hk).mp hm with rfl | rfl
    · exact hsrst
    · exact hstart

/-! ### Selection of a command (R91) -/

theorem decodeCtrl_start_iff {w : Word} {o : BitVec 4} :
    decodeCtrl w = startCommand o (ctrlIeBit w) ↔ ctrlSrst w = false ∧ ctrlStart w = true ∧ ctrlOpField w = o := by
  constructor
  · intro h
    have hrow : startRow (decodeCtrl w) = some (o, ctrlIeBit w) := by rw [h, startRow_startCommand]
    unfold decodeCtrl at hrow
    split at hrow
    · cases hrow
    · next hsrst =>
      split at hrow
      · next hstart =>
        rw [startRow_startCommand, Option.some.injEq, Prod.mk.injEq] at hrow
        exact ⟨Bool.not_eq_true _ ▸ hsrst, hstart, hrow.1⟩
      · cases hrow
  · rintro ⟨hsrst, hstart, rfl⟩
    simp [decodeCtrl, hsrst, hstart]

theorem startCommand_ne_of_startRow {o : BitVec 4} {ie : Bool} {i : Instr} (h : startRow i = none) :
    startCommand o ie ≠ i := by
  rintro rfl
  simp [startRow_startCommand] at h

theorem decodeCtrl_ieWrite_iff {w : Word} :
    decodeCtrl w = .ieWrite (ctrlOpField w).toNat (ctrlIeBit w) ↔ ctrlSrst w = false ∧ ctrlStart w = false := by
  cases hsrst : ctrlSrst w <;> cases hstart : ctrlStart w <;>
    simp [decodeCtrl, hsrst, hstart, startCommand_ne_of_startRow (i := .ieWrite _ _) rfl]

theorem decodeCtrl_srst_iff {w : Word} : decodeCtrl w = .srst ↔ ctrlSrst w = true := by
  cases hsrst : ctrlSrst w <;> cases hstart : ctrlStart w <;>
    simp [decodeCtrl, hsrst, hstart, startCommand_ne_of_startRow (i := .srst) rfl]

theorem decodeStatus_ack_iff {w : Word} : decodeStatus w = .ack ↔ statusAckBit w = true := by
  cases h : statusAckBit w <;> simp [decodeStatus, h]

theorem decodeStatus_nop_iff {w : Word} : decodeStatus w = .statusWriteNop ↔ statusAckBit w = false := by
  cases h : statusAckBit w <;> simp [decodeStatus, h]

/-- Settles O3: each row's mask and match name the bits that the decoder's branch tests. -/
theorem commandSelectionIsByMaskAndMatch : Obligations.CommandSelectionIsByMaskAndMatch := by
  unfold Obligations.CommandSelectionIsByMaskAndMatch
  intro w
  simp only [decode_ctrl, decode_status, Except.ok.injEq]
  exact ⟨fun o => startMatch_iff.trans decodeCtrl_start_iff.symm, ieWriteMatch_iff.trans decodeCtrl_ieWrite_iff.symm,
    (and_bit_eq_iff w (k := 31) (by decide) true).trans decodeCtrl_srst_iff.symm,
    (and_bit_eq_iff w (k := 1) (by decide) true).trans decodeStatus_ack_iff.symm,
    (and_bit_eq_iff w (k := 1) (by decide) false).trans decodeStatus_nop_iff.symm⟩

/-! ### The opcode table -/

theorem startCommand_row (o : BitVec 4) (ie : Bool) :
    (startCommand o ie).wellFormed = true ∧ ctrlOffset = (encode (startCommand o ie)).1 ∧
      tableRow (startCommand o ie) = (0x800000F1#32, (o.setWidth 32 <<< 4) ||| 0x1#32) := by
  revert o ie
  decide

/-- A CTRL write is a well-formed command that fits its row, whichever branch of the decoder it takes. -/
theorem decodeCtrl_fits (w : Word) :
    (decodeCtrl w).wellFormed = true ∧ ctrlOffset = (encode (decodeCtrl w)).1 ∧
      w &&& (tableRow (decodeCtrl w)).1 = (tableRow (decodeCtrl w)).2 := by
  cases hsrst : ctrlSrst w with
  | true =>
    rw [decodeCtrl_srst_iff.mpr hsrst]
    exact ⟨rfl, rfl, (and_bit_eq_iff w (k := 31) (by decide) true).mpr hsrst⟩
  | false =>
    cases hstart : ctrlStart w with
    | true =>
      obtain ⟨hwf, hreg, hrow⟩ := startCommand_row (ctrlOpField w) (ctrlIeBit w)
      rw [decodeCtrl_start_iff.mpr ⟨hsrst, hstart, rfl⟩, hrow]
      exact ⟨hwf, hreg, startMatch_iff.mpr ⟨hsrst, hstart, rfl⟩⟩
    | false =>
      rw [decodeCtrl_ieWrite_iff.mpr ⟨hsrst, hstart⟩]
      exact ⟨decide_eq_true (ctrlOpField w).isLt, rfl, ieWriteMatch_iff.mpr ⟨hsrst, hstart⟩⟩

theorem decodeStatus_fits (w : Word) :
    (decodeStatus w).wellFormed = true ∧ statusOffset = (encode (decodeStatus w)).1 ∧
      w &&& (tableRow (decodeStatus w)).1 = (tableRow (decodeStatus w)).2 := by
  cases hack : statusAckBit w with
  | true =>
    rw [decodeStatus_ack_iff.mpr hack]
    exact ⟨rfl, rfl, (and_bit_eq_iff w (k := 1) (by decide) true).mpr hack⟩
  | false =>
    rw [decodeStatus_nop_iff.mpr hack]
    exact ⟨rfl, rfl, (and_bit_eq_iff w (k := 1) (by decide) false).mpr hack⟩

/-- Settles O4: only CTRL and STATUS carry commands, and each of their words fits the row of what it decodes to. -/
theorem decodedCommandsFitTheirTableRow : Obligations.DecodedCommandsFitTheirTableRow := by
  unfold Obligations.DecodedCommandsFitTheirTableRow
  intro off w i h
  unfold decode at h
  split at h
  · next hoff => cases h; exact hoff ▸ decodeCtrl_fits w
  · split at h
    · next hoff => cases h; exact hoff ▸ decodeStatus_fits w
    · cases h

end Sys2Proof.Proofs
end

section
/-! Proofs for 10_state.md and 20_memory.md, the registers and the step: what each register reads (R23 to R35), the reset
values (R49), register reads (R62), IE writes (R242), host loads (R75), and the step that runs a command (R90). -/

namespace Sys2Proof.Proofs

open Sys2Proof.Machine Sys2Proof.Safety Sys2Proof.Laws

/-! ### The words STATUS and CTRL read as (R25, R26) -/

/-- The bits of a word made of three flags and a byte, as STATUS is. -/
theorem statusFields (busy done err : Bool) (code : Byte) :
    let w := BitVec.ofNat 32 (busy.toNat + 2 * done.toNat + 4 * err.toNat + 256 * code.toNat)
    w.getLsbD 0 = busy ∧ w.getLsbD 1 = done ∧ w.getLsbD 2 = err ∧ w.extractLsb' 8 8 = code ∧
      w &&& 0xFFFF00F8#32 = 0 := by
  revert busy done err code
  decide +kernel

/-- The bits of a word made of a code and a flag, as CTRL is. -/
theorem ctrlFields (op : BitVec 4) (ie : Bool) :
    let w := BitVec.ofNat 32 (16 * op.toNat + 256 * ie.toNat)
    w.extractLsb' 4 4 = op ∧ w.getLsbD 8 = ie ∧ w &&& 0xFFFFFE0F#32 = 0 := by
  revert op ie
  decide

theorem readReg_reserved {off : Nat} (h : 0x34 ≤ off) (s : State) : readReg s off = 0 := by
  unfold readReg
  split
  case h_14 => rfl
  all_goals exact absurd h (by decide)

/-- Settles O40: STATUS and CTRL by their fields, every other register by the register map. -/
theorem statusAndCtrlReadTheirFields : Obligations.StatusAndCtrlReadTheirFields := by
  unfold Obligations.StatusAndCtrlReadTheirFields
  intro s
  obtain ⟨hbusy, hdone, herr, hcode, hzero⟩ := statusFields (statusBusy s) s.done (statusErr s) s.errcode
  obtain ⟨hop, hie, hzero'⟩ := ctrlFields s.ctrlOp s.ctrlIe
  exact ⟨hbusy, hdone, herr, hcode, hzero, hop, hie, hzero', rfl, rfl, rfl, rfl, rfl, rfl, rfl, rfl, rfl,
    fun off h _ => readReg_reserved h s⟩

/-! ### Reset values (R49) -/

/-- Settles O7: the reset state holds 0 in every register, and ID and VERSION are the constants of the map. -/
theorem resetRegistersReadAsSpecified : Obligations.ResetRegistersReadAsSpecified := by
  unfold Obligations.ResetRegistersReadAsSpecified
  refine ⟨fun off => ?_, rfl, rfl⟩
  unfold readReg
  split
  case h_14 h0 h4 _ _ _ _ _ _ _ _ _ _ _ => rw [if_neg h0, if_neg h4]
  all_goals rfl

/-! ### IE writes (R242) -/

theorem phase_idle_or_run (s : State) : s.phase = .idle ∨ s.phase = .run :=
  (eq_or_ne s.phase .idle).imp_right phase_eq_run_of_ne_idle

theorem execIeWrite_idle {s : State} (h : s.phase = .idle) (op : Nat) (ie : Bool) :
    execIeWrite op ie s = .next (setOpIe (BitVec.ofNat 4 op) ie s) := by
  simp only [execIeWrite, h]

/-- Settles O11: the two arms of IE_WRITE. -/
theorem everyIeWriteCommandCompletes : Obligations.EveryIeWriteCommandCompletes := by
  unfold Obligations.EveryIeWriteCommandCompletes
  intro s op ie _
  exact ⟨fun h => execIeWrite_idle h op ie, fun h => execIeWrite_run h op ie⟩

/-- Settles O10: the word decodes to IE_WRITE with its own OP and IE, and irq is computed from the new IE. -/
theorem interruptEnableWriteTakesEffectAtOnce : Obligations.InterruptEnableWriteTakesEffectAtOnce := by
  unfold Obligations.InterruptEnableWriteTakesEffectAtOnce
  intro s w hsrst hstart
  have hdecode := (decode_ctrl w).trans (congrArg _ (decodeCtrl_ieWrite_iff.mpr ⟨hsrst, hstart⟩))
  rcases phase_idle_or_run s with hp | hp
  · refine ⟨_, _, hdecode, execIeWrite_idle hp _ _, rfl, fun _ => ?_,
      fun h => absurd (hp.symm.trans h) (by decide)⟩
    rw [BitVec.ofNat_toNat, BitVec.setWidth_eq]
    rfl
  · exact ⟨_, _, hdecode, execIeWrite_run hp _ _, rfl, fun h => absurd (hp.symm.trans h) (by decide), fun _ => rfl⟩

/-! ### The host's turn -/

/-- While IDLE the step is the host's next access. -/
theorem step_idle_cons {s : State} {act : HostAction} {rest : List HostAction} (hidle : s.phase = .idle)
    (hs : s.script = act :: rest) : step s = hostAct act { s with script := rest } :=
  (step_idle hidle).trans (hostTurn_cons hs)

/-- While RUN, as long as the completion time lasts, the step is the host's next access and one unit less of it. -/
theorem step_run_cons {s : State} {act : HostAction} {rest : List HostAction} {n : Nat} (hrun : s.phase = .run)
    (hw : s.wait = n + 1) (hs : s.script = act :: rest) :
    step s = hostAct act { s with script := rest, wait := n } :=
  (step_run_succ hrun hw).trans (hostTurn_cons (s := { s with wait := n }) hs)

theorem hostRegRead_of_wellFormed {s : State} {size : Nat} {addr : Word}
    (hwf : accessWellFormed size (windowOffset s.platform addr) = true) :
    hostRegRead size addr s = .next { s with rdata := readReg s (windowOffset s.platform addr) } := by
  simp only [hostRegRead, accessRefusal_eq_none hwf]

/-- Settles O41: the read is the host's access, and no register's value looks at the script or the completion time. -/
theorem registerReadsHaveNoSideEffect : Obligations.RegisterReadsHaveNoSideEffect := by
  unfold Obligations.RegisterReadsHaveNoSideEffect
  intro s addr rest hscript hwf
  exact ⟨fun hidle => (step_idle_cons hidle hscript).trans (hostRegRead_of_wellFormed hwf),
    fun n hrun hwait => (step_run_cons hrun hwait hscript).trans (hostRegRead_of_wellFormed hwf)⟩

/-- A well-formed write that decodes to a command runs it (R90). -/
theorem hostRegWrite_of_command {s : State} {size : Nat} {addr v : Word} {i : Instr}
    (hwf : accessWellFormed size (windowOffset s.platform addr) = true)
    (hi : decode (windowOffset s.platform addr) v = .ok i) : hostRegWrite size addr v s = exec i s := by
  simp only [hostRegWrite, accessRefusal_eq_none hwf, hi]

/-- Settles O5: the host's access is the register write, or the completion comes first. -/
theorem stepRunsTheDecodedCommand : Obligations.StepRunsTheDecodedCommand := by
  unfold Obligations.StepRunsTheDecodedCommand
  intro s addr v rest i hscript hwf hi
  exact ⟨fun hidle => (step_idle_cons hidle hscript).trans (hostRegWrite_of_command hwf hi),
    fun n hrun hwait => (step_run_cons hrun hwait hscript).trans (hostRegWrite_of_command hwf hi), step_run_zero⟩

/-! ### Placed words of the opcode table -/

/-- The access of a table word is well formed and addresses the word's register, at every base. -/
theorem tableAccess_offset (p : Platform) (w : Nat) :
    windowOffset p (p.htbBase + BitVec.ofNat 32 (tableRegister w)) = tableRegister w ∧
      accessWellFormed 4 (tableRegister w) = true := by
  have hreg : tableRegister w = statusOffset ∨ tableRegister w = ctrlOffset := by
    unfold tableRegister
    split
    · exact .inl rfl
    · exact .inr rfl
  rw [windowOffset, BitVec.add_comm, BitVec.add_sub_cancel]
  rcases hreg with h | h <;> rw [h] <;> decide

theorem decode_of_decodeTableWord {nbits w : Nat} {i : Instr} (h : decodeTableWord nbits w = some i) :
    decode (tableRegister w) (BitVec.ofNat 32 w) = .ok i := by
  unfold decodeTableWord at h
  split at h
  · split at h
    · next hi => rw [hi, Option.some.inj h]
    · cases h
  · cases h

theorem hostAct_tableAccess {s : State} {nbits w : Nat} {i : Instr} (h : decodeTableWord nbits w = some i) :
    hostAct (tableAccess s.platform w) s = exec i s := by
  obtain ⟨hoff, hwf⟩ := tableAccess_offset s.platform w
  exact hostRegWrite_of_command (hoff.symm ▸ hwf) (hoff.symm ▸ decode_of_decodeTableWord h)

/-- Settles O6: the step takes the placed access from the script, and the turn it was placed with. -/
theorem stepRunsAPlacedTableWord : Obligations.StepRunsAPlacedTableWord := by
  unfold Obligations.StepRunsAPlacedTableWord
  intro s nbits w i h
  rcases phase_idle_or_run s with hp | hp
  · have hwait := placeNext_wait_idle (tableAccess s.platform w) s hp
    rw [step_idle_cons (s := s.withFetchWord nbits w) hp rfl]
    refine (hostAct_tableAccess (s := { s.withFetchWord nbits w with script := s.script }) h).trans ?_
    exact congrArg (fun n => exec i { s with wait := n }) hwait
  · have hwait := placeNext_wait_run (tableAccess s.platform w) s hp
    exact (step_run_cons (s := s.withFetchWord nbits w) hp hwait rfl).trans (hostAct_tableAccess h)

/-! ### Host reads of memory (R75, R297) -/

/-- A host read of an ordinary address reads memory, or, in the busy destination region, draws a free byte. -/
theorem hostMemLoad_eq {s : State} {a : Word} (hside : hasSideEffect s.platform a.toNat = false) :
    hostMemLoad a s =
      if s.phase = .run ∧ inRegion s.engine.dst.toNat s.engine.cap.toNat a.toNat = true then
        .next { s with mdata := Config.freeByte s.draws a.toNat, draws := s.draws + 1 }
      else .next { s with mdata := Memory.read s.mem a.toNat } := by
  rw [hostMemLoad, hside, if_neg Bool.false_ne_true]

/-- Settles O45: the busy destination's byte is a free value, every other one memory's. -/
theorem hostLoadsReturnMemoryOutsideTheBusyDestination :
    Obligations.HostLoadsReturnMemoryOutsideTheBusyDestination := by
  unfold Obligations.HostLoadsReturnMemoryOutsideTheBusyDestination
  intro s a hside
  rw [hostAct, hostMemLoad_eq hside]
  constructor
  · split
    · exact ⟨_, rfl, rfl⟩
    · exact ⟨_, rfl, rfl⟩
  · intro hfree
    exact if_neg fun hbusy => hfree ⟨hbusy.1, inRegion_iff.mp hbusy.2⟩

end Sys2Proof.Proofs
end

section
/-! Proofs for 70_reset_and_hazards.md and 10_state.md, the whole machine: everything a step can do, said once
(`step_effect`), and from it the frame of memory, the fixed platform and the order of the phases. -/

namespace Sys2Proof.Proofs

open Sys2Proof.Machine Sys2Proof.Safety Sys2Proof.Laws

/-! ### What a host access can do (R303) -/

/-- The effects of a host access that is not refused, by the access. -/
inductive HostEffect (u : State) : HostAction → State → Prop
  /-- A read, or one turn of `wait`: the host's side and the draws alone. -/
  | quiet (act : HostAction) (script : List HostAction) (rdata : Word) (mdata : Byte) (draws : Nat) :
      HostEffect u act { u with script := script, rdata := rdata, mdata := mdata, draws := draws }
  | store (a : Word) (v : Byte) :
      HostEffect u (.memStore a v) { u with mem := Memory.write u.mem a.toNat v }
  | reset : HostEffect u .hardReset (resetDevice u)
  | command (addr v : Word) (i : Instr) (t : State) :
      decode (windowOffset u.platform addr) v = .ok i → exec i u = .next t → HostEffect u (.regWrite 4 addr v) t
  | param (size : Nat) (addr v : Word) (off : Nat) : HostEffect u (.regWrite size addr v) (writeReg off v u)

theorem size_of_accessRefusal_none {p : Platform} {size : Nat} {addr : Word} (h : accessRefusal p size addr = none) :
    size = 4 := by
  unfold accessRefusal at h
  split at h
  · next hwf =>
    simp only [accessWellFormed, Bool.and_eq_true, decide_eq_true_eq] at hwf
    exact hwf.1.1
  · split at h <;> cases h

theorem hostRegRead_effect {size : Nat} {addr : Word} {u t : State} (h : hostRegRead size addr u = .next t) :
    HostEffect u (.regRead size addr) t := by
  unfold hostRegRead at h
  split at h
  · cases h
  · cases h
    exact .quiet _ u.script _ u.mdata u.draws

theorem hostRegWrite_effect {size : Nat} {addr v : Word} {u t : State} (h : hostRegWrite size addr v u = .next t) :
    HostEffect u (.regWrite size addr v) t := by
  unfold hostRegWrite at h
  split at h
  · cases h
  · next hnone =>
    split at h
    · next i hi =>
      obtain rfl := size_of_accessRefusal_none hnone
      exact .command addr v i t hi h
    · cases h
      exact .param size addr v _

theorem hostWaitDone_effect {u t : State} (h : hostWaitDone u = .next t) : HostEffect u .waitDone t := by
  unfold hostWaitDone at h
  split at h <;> cases h
  · exact .quiet _ u.script _ u.mdata u.draws
  · exact .quiet _ _ _ u.mdata u.draws

theorem hostMemLoad_effect {a : Word} {u t : State} (h : hostMemLoad a u = .next t) : HostEffect u (.memLoad a) t := by
  unfold hostMemLoad at h
  split at h
  · cases h
  · split at h <;> cases h
    · exact .quiet _ u.script u.rdata _ _
    · exact .quiet _ u.script u.rdata _ u.draws

theorem hostMemStore_effect {a : Word} {v : Byte} {u t : State} (h : hostMemStore a v u = .next t) :
    HostEffect u (.memStore a v) t := by
  unfold hostMemStore at h
  split at h
  · cases h
  · split at h <;> cases h
    exact .store a v

theorem hostAct_effect {act : HostAction} {u t : State} (h : hostAct act u = .next t) : HostEffect u act t := by
  cases act with
  | regRead size addr => exact hostRegRead_effect h
  | regWrite size addr v => exact hostRegWrite_effect h
  | waitDone => exact hostWaitDone_effect h
  | memLoad a => exact hostMemLoad_effect h
  | memStore a v => exact hostMemStore_effect h
  | hardReset => cases h; exact .reset

/-! ### What a step can do (R72, R301) -/

/-- The effects of a step that goes on: the completion, a turn of a host with nothing to do, a turn with an access.  In
the host's turn the completion time that is left, `n`, is unchanged while IDLE and one less while RUN. -/
inductive StepEffect (s : State) : State → Prop
  | completion (t : State) : s.phase = .run → s.wait = 0 → completeOperation s = .next t → StepEffect s t
  | silent (n : Nat) : s.script = [] → StepEffect s { s with wait := n }
  | access (n : Nat) (act : HostAction) (rest : List HostAction) (t : State) : s.script = act :: rest →
      HostEffect { s with script := rest, wait := n } act t → StepEffect s t

theorem hostTurn_effect {s t : State} {n : Nat} (h : hostTurn { s with wait := n } = .next t) : StepEffect s t := by
  cases hs : s.script with
  | nil =>
    rw [hostTurn_nil (s := { s with wait := n }) hs] at h
    cases h
    exact .silent n hs
  | cons act rest =>
    rw [hostTurn_cons (s := { s with wait := n }) hs] at h
    exact .access n act rest t hs (hostAct_effect h)

theorem step_effect {s t : State} (h : step s = .next t) : StepEffect s t := by
  rcases phase_idle_or_run s with hp | hp
  · rw [step_idle hp] at h
    exact hostTurn_effect h
  · cases hw : s.wait with
    | zero => exact .completion t hp hw ((step_run_zero hp hw).symm.trans h)
    | succ n => exact hostTurn_effect ((step_run_succ hp hw).symm.trans h)

/-! ### The platform (R64, R65) -/

theorem exec_platform {i : Instr} {s t : State} (h : exec i s = .next t) : t.platform = s.platform := by
  rcases exec_next_cases h with ⟨-, ie, rfl⟩ | ⟨-, o, ie, e, -, -, rfl⟩ | ⟨-, o, ie, rfl⟩ | ⟨-, rfl⟩ | ⟨-, rfl⟩ |
    ⟨-, rfl⟩
  all_goals rfl

theorem writeReg_platform (off : Nat) (v : Word) (s : State) : (writeReg off v s).platform = s.platform := by
  rcases phase_idle_or_run s with hp | hp
  · rw [writeReg_idle hp, writeParam_eq]
  · rw [writeReg_run hp]

theorem HostEffect.platform {act : HostAction} {u t : State} (h : HostEffect u act t) : t.platform = u.platform := by
  cases h with
  | command addr v i t _ hx => exact exec_platform hx
  | param size addr v off => exact writeReg_platform off v u
  | quiet | store | reset => rfl

theorem completeOperation_platform {s t : State} (h : completeOperation s = .next t) : t.platform = s.platform := by
  cases hr : s.engine.result with
  | raised e => rw [completeOperation_raised hr] at h; cases h; rfl
  | ok r =>
    rw [completeOperation_ok hr] at h
    rcases writeOut_cases (s := s) r with ⟨-, hw⟩ | ⟨-, -, hw⟩ | ⟨-, -, a, -, hw⟩ | ⟨-, -, -, hw⟩ <;>
      rw [hw] at h <;> cases h <;> rfl

/-- Settles O37: no effect of a step touches the platform. -/
theorem stepsNeverChangeThePlatform : Obligations.StepsNeverChangeThePlatform := by
  unfold Obligations.StepsNeverChangeThePlatform
  intro s t h
  cases step_effect h with
  | completion _ _ _ hc => exact completeOperation_platform hc
  | silent => rfl
  | access n act rest _ _ he => exact he.platform

/-! ### Memory (R30, R68, R69) -/

/-- A command leaves memory alone, but for SRST. -/
theorem exec_mem {i : Instr} {s t : State} (h : exec i s = .next t) : t.mem = s.mem ∨ t = resetDevice s := by
  rcases exec_next_cases h with ⟨-, ie, rfl⟩ | ⟨-, o, ie, e, -, -, rfl⟩ | ⟨-, o, ie, rfl⟩ | ⟨-, rfl⟩ | ⟨-, rfl⟩ |
    ⟨-, rfl⟩
  case inr.inr.inr.inl => exact .inr rfl
  all_goals exact .inl rfl

theorem writeReg_mem (off : Nat) (v : Word) (s : State) : (writeReg off v s).mem = s.mem := by
  rcases phase_idle_or_run s with hp | hp
  · rw [writeReg_idle hp, writeParam_eq]
  · rw [writeReg_run hp]

/-- The destination region of the operation that is running. -/
def InBusyDestination (s : State) (a : Nat) : Prop :=
  s.phase = .run ∧ s.engine.dst.toNat ≤ a ∧ a < s.engine.dst.toNat + s.engine.cap.toNat

theorem read_resetDevice {s : State} {a : Nat} (h : ¬ InBusyDestination s a) :
    Memory.read (resetDevice s).mem a = Memory.read s.mem a := by
  rcases phase_idle_or_run s with hp | hp
  · rw [resetDevice_mem_idle s hp]
  · refine read_resetDevice_outside hp ?_
    by_contra hin
    exact h ⟨hp, by omega⟩

theorem HostEffect.read_mem {act : HostAction} {u t : State} {a : Nat} (h : HostEffect u act t)
    (hbusy : ¬ InBusyDestination u a) (hstore : ∀ x v, act = .memStore x v → x.toNat ≠ a) :
    Memory.read t.mem a = Memory.read u.mem a := by
  cases h with
  | quiet => rfl
  | store x v => exact read_write_other u.mem v (hstore x v rfl).symm
  | reset => exact read_resetDevice hbusy
  | command addr v i t _ hx =>
    rcases exec_mem hx with hmem | rfl
    · rw [hmem]
    · exact read_resetDevice hbusy
  | param size addr v off => rw [writeReg_mem]

/-- A completion writes inside the destination region alone, whatever it ends in. -/
theorem completeOperation_read_mem {s t : State} {a : Nat} (h : completeOperation s = .next t)
    (ha : ¬ (s.engine.dst.toNat ≤ a ∧ a < s.engine.dst.toNat + s.engine.cap.toNat)) :
    Memory.read t.mem a = Memory.read s.mem a := by
  cases hr : s.engine.result with
  | raised e => rw [completeOperation_raised hr] at h; cases h; rfl
  | ok r =>
    rw [completeOperation_ok hr] at h
    rcases writeOut_cases (s := s) r with ⟨-, hw⟩ | ⟨-, -, hw⟩ | ⟨hcap, -, b, -, hw⟩ | ⟨hcap, -, -, hw⟩ <;>
      rw [hw] at h <;> cases h
    · rfl
    · exact read_scramble_outside s.mem (by omega)
    · exact read_writeBytes_outside s.mem (by omega)

/-- Settles O33: outside the busy destination region, no effect of a step but the host's store changes a byte. -/
theorem stepsChangeOnlyTheDestinationOrTheHostsByte : Obligations.StepsChangeOnlyTheDestinationOrTheHostsByte := by
  unfold Obligations.StepsChangeOnlyTheDestinationOrTheHostsByte
  intro s t a h hchanged
  by_contra hnot
  obtain ⟨hstore, hbusy⟩ := not_or.mp hnot
  apply hchanged
  cases step_effect h with
  | completion _ hp _ hc => exact completeOperation_read_mem hc fun hin => hbusy ⟨hp, hin⟩
  | silent => rfl
  | access n act rest _ hs he =>
    refine he.read_mem hbusy fun x v hact hx => hstore ⟨x, v, rest, ?_, hx⟩
    rw [hs, hact]

/-! ### DONE and the phases (R21, R26) -/

theorem writeReg_done_phase (off : Nat) (v : Word) (s : State) :
    (writeReg off v s).done = s.done ∧ (writeReg off v s).phase = s.phase := by
  rcases phase_idle_or_run s with hp | hp
  · rw [writeReg_idle hp, writeParam_eq]
    exact ⟨rfl, rfl⟩
  · rw [writeReg_run hp]
    exact ⟨rfl, rfl⟩

/-- A command never sets DONE. -/
theorem exec_done {i : Instr} {s t : State} (h : exec i s = .next t) (hd : s.done = false) : t.done = false := by
  rcases exec_next_cases h with ⟨-, ie, rfl⟩ | ⟨-, o, ie, e, -, -, rfl⟩ | ⟨-, o, ie, rfl⟩ | ⟨-, rfl⟩ | ⟨-, rfl⟩ |
    ⟨-, rfl⟩
  case inl | inr.inr.inl | inr.inr.inr.inr.inr => exact hd
  all_goals rfl

/-- A command that enters RUN is a START command. -/
theorem exec_enters_run {i : Instr} {s t : State} (h : exec i s = .next t) (hidle : s.phase = .idle)
    (hrun : t.phase = .run) : ∃ o ie, startRow i = some (o, ie) := by
  have hstays : t.phase ≠ s.phase := by rw [hidle, hrun]; decide
  rcases exec_next_cases h with ⟨-, ie, rfl⟩ | ⟨-, o, ie, e, hrow, -, -⟩ | ⟨-, o, ie, rfl⟩ | ⟨-, rfl⟩ | ⟨-, rfl⟩ |
    ⟨-, rfl⟩
  case inr.inl => exact ⟨o, ie, hrow⟩
  case inr.inr.inr.inl => cases hrun
  all_goals exact absurd rfl hstays

theorem HostEffect.done {act : HostAction} {u t : State} (h : HostEffect u act t) (hd : u.done = false) :
    t.done = false := by
  cases h with
  | quiet | store => exact hd
  | reset => rfl
  | command addr v i t _ hx => exact exec_done hx hd
  | param size addr v off => exact (writeReg_done_phase off v u).1.trans hd

theorem HostEffect.enters_run {act : HostAction} {u t : State} (h : HostEffect u act t) (hidle : u.phase = .idle)
    (hrun : t.phase = .run) :
    ∃ addr v i o ie, act = .regWrite 4 addr v ∧ decode (windowOffset u.platform addr) v = .ok i ∧
      startRow i = some (o, ie) := by
  cases h with
  | quiet | store => exact absurd (hidle.symm.trans hrun) (by decide)
  | reset => cases hrun
  | command addr v i t hi hx =>
    obtain ⟨o, ie, hrow⟩ := exec_enters_run hx hidle hrun
    exact ⟨addr, v, i, o, ie, rfl, hi, hrow⟩
  | param size addr v off =>
    exact absurd (hidle.symm.trans ((writeReg_done_phase off v u).2.symm.trans hrun)) (by decide)

theorem completeOperation_phase_done {s t : State} (h : completeOperation s = .next t) :
    t.phase = .idle ∧ t.done = true := by
  cases hr : s.engine.result with
  | raised e => rw [completeOperation_raised hr] at h; cases h; exact ⟨rfl, rfl⟩
  | ok r =>
    rw [completeOperation_ok hr] at h
    rcases writeOut_cases (s := s) r with ⟨-, hw⟩ | ⟨-, -, hw⟩ | ⟨-, -, a, -, hw⟩ | ⟨-, -, -, hw⟩ <;>
      rw [hw] at h <;> cases h <;> exact ⟨rfl, rfl⟩

/-- Settles O34: no access sets DONE, and only an access that is a START command enters RUN. -/
theorem onlyCompletionSetsDoneAndOnlyStartEntersRun : Obligations.OnlyCompletionSetsDoneAndOnlyStartEntersRun := by
  unfold Obligations.OnlyCompletionSetsDoneAndOnlyStartEntersRun
  intro s t h
  cases step_effect h with
  | completion _ hp hw hc =>
    exact ⟨fun _ _ => ⟨hp, hw, (completeOperation_phase_done hc).1⟩,
      fun hidle => absurd (hidle.symm.trans hp) (by decide)⟩
  | silent n =>
    exact ⟨fun hd hd' => absurd (hd.symm.trans hd') (by decide),
      fun hidle hrun => absurd (hidle.symm.trans hrun) (by decide)⟩
  | access n act rest _ hs he =>
    refine ⟨fun hd hd' => absurd ((he.done hd).symm.trans hd') (by decide), fun hidle hrun => ?_⟩
    obtain ⟨addr, v, i, o, ie, rfl, hi, hrow⟩ := he.enters_run hidle hrun
    exact ⟨addr, v, rest, i, o, ie, hs, hi, hrow⟩

end Sys2Proof.Proofs
end

section
/-! Proofs for 10_state.md and 60_exceptions.md, the invariant: what waits for completion fits, each effect of a step
keeps `Inv`, and from it no step faults and every operation completes. -/

namespace Sys2Proof.Proofs

open Sys2Proof.Machine Sys2Proof.Safety Sys2Proof.Laws

/-! ### The outcome that waits for completion (R134, R34) -/

/-- Every operation counts at most 255 symbols, so that NSYM holds them. -/
theorem nsym_le_of_computeOf {i : Instr} {c : Compute} {S : Bytes} {pin : BitVec 4} {r : OpOk}
    (hc : computeOf i = some c) (hr : c S pin = .ok r) : r.nsym ≤ 255 := by
  cases i <;> cases hc
  case count =>
    unfold countOp at hr
    split at hr
    · cases hr
    · next T hT => cases hr; exact (countTable_ok hT).2.1
  case build =>
    unfold buildOp at hr
    split at hr
    · cases hr
    · next T hT => cases hr; exact (parseTable_length hT).2.2
  case pack =>
    unfold packOp at hr
    split at hr <;> cases hr
    exact Nat.zero_le _
  case unpack =>
    unfold unpackOp at hr
    split at hr
    · cases hr
    · split at hr <;> cases hr
      exact Nat.zero_le _
  case compress =>
    unfold compressOp at hr
    split at hr
    · cases hr; exact Nat.zero_le _
    · split at hr
      · cases hr
      · next T hT => cases hr; exact (countTable_ok hT).2.1
  case decompress =>
    unfold decompressOp at hr
    split at hr
    · cases hr; exact Nat.zero_le _
    · split at hr
      · cases hr
      · next c hc =>
        split at hr <;> cases hr
        unfold parseContainer at hc
        split at hc
        · cases hc
        · next T hT =>
          have hK : T.length ≤ 255 := (parseTable_length hT).2.2
          simp only at hc
          split at hc
          · cases hc
          · split at hc
            · cases hc
            · split at hc <;> cases hc
              exact hK

theorem resultFits_of_raised {e : Engine} {x : OpError} (h : e.result = .raised x) : ResultFits e := by
  unfold ResultFits
  rw [h]
  trivial

theorem resultFits_of_ok {e : Engine} {r : OpOk} (h : e.result = .ok r)
    (hout : r.out = [] ∨ e.dst.toNat + e.cap.toNat ≤ dmaSize) (hn : r.nsym ≤ 255) : ResultFits e := by
  unfold ResultFits
  rw [h]
  exact ⟨hout, hn⟩

theorem resultFits_ok_spec {e : Engine} {r : OpOk} (h : ResultFits e) (hr : e.result = .ok r) :
    (r.out = [] ∨ e.dst.toNat + e.cap.toNat ≤ dmaSize) ∧ r.nsym ≤ 255 := by
  unfold ResultFits at h
  rwa [hr] at h

/-- A START command that skips memory waits with the empty output or with an error. -/
theorem exec_of_no_compute {i : Instr} {o : BitVec 4} {ie : Bool} (hrow : startRow i = some (o, ie))
    (hc : computeOf i = none) :
    ∃ r, (r = nopResult ∨ r = illegalOp o) ∧ ∀ s, exec i s = startWithoutMemory o r ie s := by
  cases i <;> cases hrow
  case count | build | pack | unpack | compress | decompress => cases hc
  case nop => exact ⟨_, .inl rfl, fun _ => rfl⟩
  all_goals exact ⟨_, .inr rfl, fun _ => rfl⟩

/-- Whatever an accepted START leaves waiting fits: an output passed the region check first. -/
theorem resultFits_of_start {i : Instr} {o : BitVec 4} {ie : Bool} {s t : State} (hrow : startRow i = some (o, ie))
    (hidle : s.phase = .idle) (h : exec i s = .next t) : ResultFits t.engine := by
  cases hcomp : computeOf i with
  | none =>
    obtain ⟨r, hr, hx⟩ := exec_of_no_compute hrow hcomp
    rw [hx, startWithoutMemory_idle o r ie hidle] at h
    cases h
    rcases hr with rfl | rfl
    · exact resultFits_of_ok rfl (.inl rfl) (Nat.zero_le _)
    · exact resultFits_of_raised rfl
  | some c =>
    obtain ⟨o', ie', u, -, hu, hx⟩ := exec_of_computeOf hcomp
    rw [hx, startOperation_idle o' c u ie' hidle] at h
    rcases readAndCompute_cases h with ⟨e, -, rfl⟩ | ⟨-, -, e, -, rfl⟩ | ⟨hreg, -, S, -, rfl⟩
    · exact resultFits_of_raised rfl
    · exact resultFits_of_raised rfl
    · have hl := units_keepLatches hu S s.pad (latchOperands o' s)
      obtain ⟨-, hdst, -⟩ := regionsLegal_of_regionCheck hreg
      cases hr : c S s.pad with
      | error e => exact resultFits_of_raised (congrArg toResult hr)
      | ok r =>
        refine resultFits_of_ok (congrArg toResult hr) (.inr ?_) (nsym_le_of_computeOf hcomp hr)
        show (u S s.pad { latchOperands o' s with snap := S }).dst.toNat +
          (u S s.pad { latchOperands o' s with snap := S }).cap.toNat ≤ dmaSize
        rwa [hl.dst, hl.cap]

/-! ### The invariant -/

theorem elim_run_of_idle {s : State} {P : Prop} (h : s.phase = .idle) : s.phase = .run → P :=
  fun hrun => absurd (h.symm.trans hrun) (by decide)

/-- The invariant looks at neither IE, nor the host's side, nor the model's counters, and lets DONE fall. -/
theorem inv_frame {s : State} (h : Inv s) {m : Memory} (hm : Memory.wf m) {done : Bool}
    (hd : s.done = false → done = false) (ie : Bool) (script : List HostAction) (rdata : Word) (mdata : Byte)
    (draws wait : Nat) :
    Inv { s with
      mem := m, done := done, ctrlIe := ie, script := script, rdata := rdata, mdata := mdata, draws := draws
      wait := wait } where
  mem := hm
  errcode := h.errcode
  noError := h.noError
  onError := h.onError
  run hrun :=
    have r := h.run hrun
    ⟨hd r.done, r.errcode, r.outLen, r.bitlen, r.nsym, r.errinfo, r.op, r.src, r.slen, r.dst, r.cap, r.pin, r.result⟩

theorem inv_setIe {s : State} (h : Inv s) (ie : Bool) : Inv (setIe ie s) :=
  inv_frame h h.mem id ie s.script s.rdata s.mdata s.draws s.wait

theorem inv_clearDone {s : State} (h : Inv s) : Inv (clearDone s) :=
  inv_frame h h.mem (fun _ => rfl) s.ctrlIe s.script s.rdata s.mdata s.draws s.wait

theorem inv_hostSide {s : State} (h : Inv s) (script : List HostAction) (rdata : Word) (mdata : Byte)
    (draws wait : Nat) :
    Inv { s with script := script, rdata := rdata, mdata := mdata, draws := draws, wait := wait } :=
  inv_frame h h.mem id s.ctrlIe script rdata mdata draws wait

theorem inv_store {s : State} (h : Inv s) (a : Word) (v : Byte) :
    Inv { s with mem := Memory.write s.mem a.toNat v } :=
  inv_frame h (write_wf h.mem a.isLt v) id s.ctrlIe s.script s.rdata s.mdata s.draws s.wait

theorem inv_writeReg {s : State} (h : Inv s) (off : Nat) (v : Word) : Inv (writeReg off v s) := by
  rcases phase_idle_or_run s with hp | hp
  · rw [writeReg_idle hp, writeParam_eq]
    exact ⟨h.mem, h.errcode, h.noError, h.onError, elim_run_of_idle hp⟩
  · rwa [writeReg_run hp]

theorem resetDevice_mem_wf {s : State} (h : Memory.wf s.mem) : Memory.wf (resetDevice s).mem := by
  rcases phase_idle_or_run s with hp | hp
  · rwa [resetDevice_mem_idle s hp]
  · have hdst : s.engine.dst.toNat < dmaSize := s.engine.dst.isLt
    rw [resetDevice_mem_run s hp]
    exact scramble_wf h (by omega)

theorem inv_resetDevice {s : State} (h : Inv s) : Inv (resetDevice s) where
  mem := resetDevice_mem_wf h.mem
  errcode := Nat.zero_le _
  noError _ := rfl
  onError hne := absurd rfl hne
  run := nofun

/-- An accepted START enters RUN with everything cleared and latched. -/
theorem inv_acceptStart {s : State} (h : Inv s) {o : BitVec 4} (ie : Bool) {e : Engine}
    (hl : SameLatches (latchOperands o s) e) (hfit : ResultFits e) : Inv { acceptStart o ie s with engine := e } where
  mem := h.mem
  errcode := Nat.zero_le _
  noError _ := rfl
  onError hne := absurd rfl hne
  run _ := ⟨rfl, rfl, rfl, rfl, rfl, rfl, hl.op, hl.src, hl.slen, hl.dst, hl.cap, hl.pin, hfit⟩

theorem exec_inv {i : Instr} {s t : State} (hs : Inv s) (h : exec i s = .next t) : Inv t := by
  rcases exec_next_cases h with ⟨-, ie, rfl⟩ | ⟨hp, o, ie, e, hrow, hl, rfl⟩ | ⟨hp, o, ie, rfl⟩ | ⟨-, rfl⟩ | ⟨-, rfl⟩ |
    ⟨-, rfl⟩
  · exact inv_setIe hs ie
  · exact inv_acceptStart hs ie hl (resultFits_of_start hrow hp h)
  · exact ⟨hs.mem, hs.errcode, hs.noError, hs.onError, elim_run_of_idle hp⟩
  · exact inv_resetDevice hs
  · exact inv_clearDone hs
  · exact hs

theorem HostEffect.inv {act : HostAction} {u t : State} (h : HostEffect u act t) (hu : Inv u) : Inv t := by
  cases h with
  | quiet _ script rdata mdata draws => exact inv_hostSide hu script rdata mdata draws u.wait
  | store a v => exact inv_store hu a v
  | reset => exact inv_resetDevice hu
  | command addr v i t _ hx => exact exec_inv hu hx
  | param size addr v off => exact inv_writeReg hu off v

theorem errCode_le (k : ErrKind) : (errCode k).toNat ≤ 0x0A := by cases k <;> decide

theorem inv_completeError {s : State} (e : OpError) (hm : Memory.wf s.mem) : Inv (completeError e s) where
  mem := hm
  errcode := errCode_le e.kind
  noError h0 := absurd h0 (errCode_ne_zero e.kind)
  onError _ := ⟨rfl, rfl, rfl⟩
  run := nofun

theorem completeOperation_inv {s t : State} (hs : Inv s) (hrun : s.phase = .run)
    (h : completeOperation s = .next t) : Inv t := by
  cases hr : s.engine.result with
  | raised e => rw [completeOperation_raised hr] at h; cases h; exact inv_completeError e hs.mem
  | ok r =>
    rw [completeOperation_ok hr] at h
    have hclear := hs.run hrun
    rcases writeOut_cases (s := s) r with ⟨-, hw⟩ | ⟨-, -, hw⟩ | ⟨-, hdma, a, -, hw⟩ | ⟨-, hdma, -, hw⟩ <;>
      rw [hw] at h <;> cases h
    · exact inv_completeError _ hs.mem
    · exact inv_completeError _ (scramble_wf hs.mem hdma)
    · exact ⟨writeBytes_wf hs.mem hdma, hs.errcode, hs.noError, fun hne => absurd hclear.errcode hne, nofun⟩

/-- Settles O31: each effect of a step keeps the invariant. -/
theorem everyStepKeepsTheInvariant : Obligations.EveryStepKeepsTheInvariant := by
  unfold Obligations.EveryStepKeepsTheInvariant
  intro s t hs h
  cases step_effect h with
  | completion _ hp _ hc => exact completeOperation_inv hs hp hc
  | silent n => exact inv_hostSide hs s.script s.rdata s.mdata s.draws n
  | access n act rest _ _ he => exact he.inv (inv_hostSide hs rest s.rdata s.mdata s.draws n)

/-- Settles O30: at reset memory is empty, nothing is reported and nothing runs. -/
theorem resetMeetsTheInvariant : Obligations.ResetMeetsTheInvariant :=
  ⟨⟨.nil, nofun⟩, Nat.zero_le _, fun _ => rfl, fun hne => absurd rfl hne, nofun⟩

/-! ### No fault (R63, R134) -/

/-- A command that starts nothing always goes on. -/
theorem exec_of_startRow_none {i : Instr} (h : startRow i = none) (s : State) : ∃ t, exec i s = .next t := by
  cases i <;> cases h
  case ieWrite op ie =>
    rcases phase_idle_or_run s with hp | hp
    · exact ⟨_, execIeWrite_idle hp op ie⟩
    · exact ⟨_, execIeWrite_run hp op ie⟩
  all_goals exact ⟨_, rfl⟩

theorem exec_not_fault (i : Instr) (s : State) (f : Fault) : exec i s ≠ .fault f := by
  cases hrow : startRow i with
  | some row =>
    rcases phase_idle_or_run s with hp | hp
    · rcases exec_of_startRow hrow with ⟨-, r, hx⟩ | ⟨c, u, -, -, hx⟩
      · rw [hx, startWithoutMemory_idle _ r _ hp]
        nofun
      · rw [hx, startOperation_idle _ c u _ hp]
        exact readAndCompute_not_fault
    · rw [exec_start_run hrow hp]
      nofun
  | none =>
    rcases exec_of_startRow_none hrow s with ⟨t, ht⟩
    rw [ht]
    nofun

theorem hostAct_not_fault (act : HostAction) (s : State) (f : Fault) : hostAct act s ≠ .fault f := by
  intro h
  cases act with
  | regRead size addr =>
    simp only [hostAct, hostRegRead] at h
    split at h <;> cases h
  | regWrite size addr v =>
    simp only [hostAct, hostRegWrite] at h
    split at h
    · cases h
    · split at h
      · exact exec_not_fault _ s f h
      · cases h
  | waitDone =>
    simp only [hostAct, hostWaitDone] at h
    split at h <;> cases h
  | memLoad a =>
    simp only [hostAct, hostMemLoad] at h
    split at h
    · cases h
    · split at h <;> cases h
  | memStore a v =>
    simp only [hostAct, hostMemStore] at h
    split at h
    · cases h
    · split at h <;> cases h
  | hardReset => cases h

theorem hostTurn_not_fault (s : State) (f : Fault) : hostTurn s ≠ .fault f := by
  cases hs : s.script with
  | nil => rw [hostTurn_nil hs]; nofun
  | cons act rest => rw [hostTurn_cons hs]; exact hostAct_not_fault act _ f

/-- A completion whose outcome fits goes through: the output lies inside the destination region or is empty. -/
theorem completeOperation_next {s : State} (h : ResultFits s.engine) : ∃ t, completeOperation s = .next t := by
  cases hr : s.engine.result with
  | raised e => exact ⟨_, completeOperation_raised hr⟩
  | ok r =>
    rw [completeOperation_ok hr]
    rcases writeOut_cases (s := s) r with ⟨-, hw⟩ | ⟨hcap, hdma, -⟩ | ⟨-, -, a, -, hw⟩ | ⟨-, -, -, hw⟩
    · exact ⟨_, hw⟩
    · have hdst : s.engine.dst.toNat < dmaSize := s.engine.dst.isLt
      rcases (resultFits_ok_spec h hr).1 with hnil | hfit
      · rw [hnil, List.length_nil] at hdma
        omega
      · omega
    · exact ⟨_, hw⟩
    · exact ⟨_, hw⟩

/-- Settles O32: only a completion could fault, and the invariant's outcome fits. -/
theorem noStepFromTheInvariantFaults : Obligations.NoStepFromTheInvariantFaults := by
  unfold Obligations.NoStepFromTheInvariantFaults
  intro s f hs
  rcases phase_idle_or_run s with hp | hp
  · rw [step_idle hp]
    exact hostTurn_not_fault s f
  · cases hw : s.wait with
    | zero =>
      obtain ⟨t, ht⟩ := completeOperation_next (hs.run hp).result
      rw [step_run_zero hp hw, ht]
      nofun
    | succ n =>
      rw [step_run_succ hp hw]
      exact hostTurn_not_fault _ f

/-! ### Completion in finite time (R301) -/

/-- With the host idle, a step before the completion only counts. -/
theorem step_counts {s : State} {n : Nat} (hp : s.phase = .run) (hs : s.script = []) (hw : s.wait = n + 1) :
    step s = .next { s with wait := n } :=
  (step_run_succ hp hw).trans (hostTurn_nil (s := { s with wait := n }) hs)

theorem core_run_of_step {s t : State} (h : step s = .next t) (k : Nat) :
    Host.Core.run core (k + 1) s = Host.Core.run core k t := by
  have hstep : core.step s = .next t := h
  simp only [Host.Core.run, hstep]

/-- With the host idle, the first k steps only count, as long as the completion time lasts. -/
theorem core_run_counts {s : State} (hp : s.phase = .run) (hs : s.script = []) {n k : Nat} (hw : s.wait = n + k)
    (j : Nat) : Host.Core.run core (j + k) s = Host.Core.run core j { s with wait := n } := by
  induction k generalizing s with
  | zero => exact congrArg (fun w => Host.Core.run core j { s with wait := w }) hw
  | succ k ih =>
    refine (core_run_of_step (step_counts hp hs hw) (j + k)).trans ?_
    exact ih (s := { s with wait := n + k }) hp hs rfl

/-- Settles O36: the steps count down to 0, and the step after is the completion, which goes through. -/
theorem operationsCompleteAfterFinitelyManySteps : Obligations.OperationsCompleteAfterFinitelyManySteps := by
  unfold Obligations.OperationsCompleteAfterFinitelyManySteps
  intro s hs hp hscript
  have hrun := hs.run hp
  constructor
  · intro k hk
    have hcount := core_run_counts hp hscript (Nat.sub_add_cancel hk).symm 0
    rw [Nat.zero_add] at hcount
    exact ⟨_, hcount, hp, hrun.done⟩
  · have hcount := core_run_counts hp hscript (Nat.zero_add s.wait).symm 1
    obtain ⟨u, hu⟩ := completeOperation_next (s := { s with wait := 0 }) hrun.result
    have hstep : step { s with wait := 0 } = .next u := (step_run_zero (s := { s with wait := 0 }) hp rfl).trans hu
    exact ⟨u, Nat.add_comm 1 s.wait ▸ hcount.trans (core_run_of_step hstep 0), completeOperation_phase_done hu⟩

/-! ### Registers while RUN (R26, R299) -/

/-- Settles O35: while RUN the invariant fixes the fields these registers read. -/
theorem resultRegistersReadZeroWhileRunning : Obligations.ResultRegistersReadZeroWhileRunning := by
  unfold Obligations.ResultRegistersReadZeroWhileRunning
  intro s hs hp
  have hrun := hs.run hp
  refine ⟨hrun.outLen, hrun.bitlen, congrArg (·.setWidth 32) hrun.nsym, hrun.errinfo,
    congrArg (·.setWidth 32) hrun.pin.symm, ?_⟩
  show statusWord s = _
  simp [statusWord, statusBusy, statusErr, hp, hrun.done, hrun.errcode]

end Sys2Proof.Proofs
end

section
/-! Proofs for 40_dispatch.md, the errors: regions with side effects (R66), an unreadable source (R133), the operation's
own error (R136), and an output that is too long or cannot be written (R135). -/

namespace Sys2Proof.Proofs

open Sys2Proof.Machine Sys2Proof.Safety Sys2Proof.Laws

/-! ### Regions with side effects (R66) -/

theorem readAndCompute_of_sideEffect {s : State} (c : Compute) (u : Units) (hr : regionCheck s.engine = none)
    (hs : regionsTouchSideEffects s.platform s.engine = true) :
    readAndCompute c u s = .refused .sideEffectRegion := by
  simp only [readAndCompute, hr, hs, if_true]

/-- Settles O14: legal regions pass the region check, and the address with a side effect then stops the operation. -/
theorem regionsWithSideEffectsAreRefused : Obligations.RegionsWithSideEffectsAreRefused := by
  unfold Obligations.RegionsWithSideEffectsAreRefused
  intro i c s a hc hidle hlegal ha hside
  obtain ⟨o, ie, u, -, -, hx⟩ := exec_of_computeOf hc
  have htouch : regionsTouchSideEffects s.platform (latchOperands o s) = true :=
    regionsTouchSideEffects_iff.mpr ⟨a, ha, hside⟩
  rw [hx, startOperation_idle o c u ie hidle]
  exact readAndCompute_of_sideEffect c u (regionCheck_of_regionsLegal hlegal) htouch

/-! ### The lowest address -/

/-- The lowest picked address of a region is the one found, the converse of `lowestAddr_eq_some`. -/
theorem lowestAddr_of_lowest {p : Nat → Bool} {base n a : Nat} (h1 : base ≤ a) (h2 : a < base + n) (hp : p a = true)
    (hlow : ∀ b, base ≤ b → b < a → p b = false) : lowestAddr p base n = some a := by
  cases h : lowestAddr p base n with
  | none => exact absurd ((lowestAddr_eq_none.mp h a h1 h2).symm.trans hp) Bool.false_ne_true
  | some b =>
    obtain ⟨hb1, -, hpb, hlowb⟩ := lowestAddr_eq_some h
    rcases Nat.lt_trichotomy a b with hlt | rfl | hlt
    · exact absurd ((hlowb a h1 hlt).symm.trans hp) Bool.false_ne_true
    · rfl
    · exact absurd ((hlow b hb1 hlt).symm.trans hpb) Bool.false_ne_true

/-! ### An unreadable source (R133) -/

theorem snapshot_of_unreadable {o : BitVec 4} {s : State} {a : Nat} (ha : InSource s a)
    (hr : readable s.platform a = false) (hlow : ∀ b, InSource s b → b < a → readable s.platform b = true) :
    snapshot s.platform s.mem (latchOperands o s) = .error ⟨.inputUnavailable, a⟩ := by
  have hfound : lowestAddr (fun a => !readable s.platform a) s.srcAddr.toNat s.srcLen.toNat = some a :=
    lowestAddr_of_lowest ha.1 ha.2 (by simp [hr]) fun b hb1 hb2 => by
      simp [hlow b ⟨hb1, hb2.trans ha.2⟩ hb2]
  simp only [snapshot, latchOperands_src, latchOperands_slen, hfound]

/-- Settles O25: the snapshot stops at the lowest unreadable address, before anything is computed. -/
theorem unreadableSourceEndsInInputUnavailable : Obligations.UnreadableSourceEndsInInputUnavailable := by
  unfold Obligations.UnreadableSourceEndsInInputUnavailable
  intro i c s a hc hidle hlegal hord ha hr hlow
  obtain ⟨o, ie, u, hrow, -, hx⟩ := exec_of_computeOf hc
  have hread := readAndCompute_of_snapshotError (s := acceptStart o ie s) c u (regionCheck_of_regionsLegal hlegal)
    (regionsTouchSideEffects_of_ordinary hord) (snapshot_of_unreadable ha hr hlow)
  exact failsWith_of_awaitsResult hrow ((hx s).trans ((startOperation_idle o c u ie hidle).trans hread))
    (awaitsResult_setResult (.refl (latchOperands o s)) _) fun _ => rfl

/-! ### The operation's own error (R136) -/

/-- Settles O26: the error waits from acceptance on, and completion looks at no output region. -/
theorem contentErrorsAreReportedBeforeOutputErrors : Obligations.ContentErrorsAreReportedBeforeOutputErrors := by
  unfold Obligations.ContentErrorsAreReportedBeforeOutputErrors
  intro i c s e hc hs he
  obtain ⟨o, ie, t, hrow, hx, ht⟩ := exec_of_executable hs hc
  rw [he] at ht
  refine failsWith_of_awaitsResult hrow hx ht ?_
  obtain ⟨eng, -, -, rfl⟩ := ht
  exact fun _ => rfl

/-! ### An output that cannot be written out (R135) -/

/-- An operation whose write phase ends in an error, whatever that leaves in memory, fails with it. -/
theorem failsWith_of_writeOut {i : Instr} {o : BitVec 4} {ie : Bool} {s : State} {r : OpOk} {e : OpError} {eng : Engine}
    {m : Memory} {d : Nat} {P : State → Prop} (hrow : startRow i = some (o, ie))
    (hx : exec i s = .next { acceptStart o ie s with engine := eng }) (hr : eng.result = .ok r)
    (hw : writeOut r { acceptStart o ie s with engine := eng, wait := 0 } =
      .next (completeError e { acceptStart o ie s with engine := eng, wait := 0, mem := m, draws := d }))
    (hP : P (completeError e { acceptStart o ie s with engine := eng, wait := 0, mem := m, draws := d })) :
    FailsWith i s e.kind e.info P := by
  have hstep := (step_run_zero rfl rfl).trans
    ((completeOperation_ok (s := { acceptStart o ie s with engine := eng, wait := 0 }) hr).trans hw)
  have hkept : ParamsKept s (acceptStart o ie s) := ⟨rfl, rfl, rfl, rfl, rfl, rfl, rfl, rfl⟩
  exact ⟨o, ie, _, _, hrow, hx, rfl, fun _ => rfl, rfl, hkept, hstep, ⟨rfl, rfl, rfl, rfl, by simp [irq]⟩,
    rfl, rfl, rfl, rfl, rfl, rfl, hkept, hP⟩

/-- Settles O27: the capacity check is the first of the write phase, and nothing has been written before it. -/
theorem longOutputEndsInOutputOverflow : Obligations.LongOutputEndsInOutputOverflow := by
  unfold Obligations.LongOutputEndsInOutputOverflow
  intro i c s r hc hs hr hlong
  obtain ⟨o, ie, t, hrow, hx, eng, hl, hres, rfl⟩ := exec_of_executable hs hc
  rw [hr] at hres
  have hcap : eng.cap = s.dstCap := hl.cap
  rw [← hcap] at hlong
  exact failsWith_of_writeOut hrow hx hres
    (writeOut_of_overflow (s := { acceptStart o ie s with engine := eng, wait := 0 }) hlong) fun _ => rfl

/-- Settles O28: the bus check finds the lowest unwritable address, and free bytes take the output's place. -/
theorem unwritableOutputEndsInOutputUnavailable : Obligations.UnwritableOutputEndsInOutputUnavailable := by
  unfold Obligations.UnwritableOutputEndsInOutputUnavailable
  intro i c s r a hc hs hr hfit ha1 ha2 hbad hlow
  obtain ⟨o, ie, t, hrow, hx, eng, hl, hres, rfl⟩ := exec_of_executable hs hc
  rw [hr] at hres
  obtain ⟨-, hdma, -⟩ := hs.legal
  have hdst : eng.dst = s.dstAddr := hl.dst
  have hcap : eng.cap = s.dstCap := hl.cap
  rw [← hdst] at hdma ha1 ha2 hlow ⊢
  rw [← hcap] at hdma hfit
  have hfound : lowestAddr (fun a => !writable s.platform a) eng.dst.toNat r.out.length = some a :=
    lowestAddr_of_lowest ha1 ha2 (by simp [hbad]) fun b hb1 hb2 => by simp [hlow b hb1 hb2]
  exact failsWith_of_writeOut (e := ⟨.outputUnavailable, a⟩) hrow hx hres
    (writeOut_of_unwritable (s := { acceptStart o ie s with engine := eng, wait := 0 }) hfit
      (Nat.le_trans (Nat.add_le_add_left hfit _) hdma) hfound)
    fun b hb => read_scramble_outside s.mem hb

end Sys2Proof.Proofs
end

section
/-! Proofs for 43_bitpack.md, the rest: packing and unpacking as inverses (R193), the accumulator machine (R46), and
PACK and UNPACK, their outputs and their errors (R194, R195). -/

namespace Sys2Proof.Proofs

open Sys2Proof.Machine Sys2Proof.Safety Sys2Proof.Laws

/-! ### Bits of a byte and byte of bits (R190, R192) -/

/-- `bitsOfByte` inverts `byteOfBits` on a group of eight. -/
theorem bitsOfByte_byteOfBits {g : Bits} (hg : g.length = 8) : bitsOfByte (byteOfBits g) = g := by
  refine List.ext_getElem ((bitsOfByte_length _).trans hg.symm) fun k h1 h2 => ?_
  rw [bitsOfByte_length] at h1
  simp only [bitsOfByte, List.getElem_map, List.getElem_range]
  rw [byteOfBits_getLsbD hg h1, List.getD_eq_getElem _ _ h2]

theorem bitsOfByte_getD (x : Byte) {k : Nat} (hk : k < 8) : (bitsOfByte x).getD k false = x.getLsbD (7 - k) := by
  simp [bitsOfByte, List.getD_eq_getElem?_getD, List.getElem?_range hk]

theorem byteOfBits_bitsOfByte (x : Byte) : byteOfBits (bitsOfByte x) = x := by
  refine BitVec.eq_of_getLsbD_eq fun i hi => ?_
  have hbit := byteOfBits_getLsbD (bitsOfByte_length x) (show 7 - i < 8 by omega)
  rw [bitsOfByte_getD x (by omega)] at hbit
  rwa [show 7 - (7 - i) = i by omega] at hbit

/-- The byte sequence holds exactly the bits of a sequence that fills its bytes. -/
theorem flatMap_bitsOfByte_packBytes {c : Bits} (hc : c.length % 8 = 0) : (packBytes c).flatMap bitsOfByte = c := by
  fun_induction packBytes c with
  | case1 b0 b1 b2 b3 b4 b5 b6 b7 rest ih =>
    have hrest : rest.length % 8 = 0 := by simp only [List.length_cons] at hc; omega
    rw [List.flatMap_cons, ih hrest, bitsOfByte_byteOfBits rfl]
    rfl
  | case2 c hgroup =>
    have hlt := length_lt_eight_of_no_group hgroup
    exact (List.eq_nil_of_length_eq_zero (by omega)).symm

/-- Bytes are packed one after the other. -/
theorem packBytes_append {c : Bits} (hc : c.length % 8 = 0) (d : Bits) :
    packBytes (c ++ d) = packBytes c ++ packBytes d := by
  fun_induction packBytes c with
  | case1 b0 b1 b2 b3 b4 b5 b6 b7 rest ih =>
    have hrest : rest.length % 8 = 0 := by simp only [List.length_cons] at hc; omega
    simp only [List.cons_append, packBytes, ih hrest]
  | case2 c hgroup =>
    have hlt := length_lt_eight_of_no_group hgroup
    rw [List.eq_nil_of_length_eq_zero (show c.length = 0 by omega)]
    rfl

theorem packBytes_group {g : Bits} (hg : g.length = 8) : packBytes g = [byteOfBits g] := by
  match g, hg with
  | [_, _, _, _, _, _, _, _], _ => rfl

/-- Packing the bits of a byte sequence gives it back. -/
theorem packBytes_flatMap_bitsOfByte (B : Bytes) : packBytes (B.flatMap bitsOfByte) = B := by
  induction B with
  | nil => rfl
  | cons x xs ih =>
    rw [List.flatMap_cons, packBytes_append (by rw [bitsOfByte_length]), packBytes_group (bitsOfByte_length x),
      byteOfBits_bitsOfByte, ih]
    rfl

/-! ### The round trip (R193) -/

theorem unpack_pack (b : Bits) : unpack (pack b).1 (pack b).2 = b := by
  have hlen : 8 * (packBytes (padded b)).length - padCount b.length = b.length := by
    rw [packBytes_length, padded_length_div, padCount]
    omega
  simp only [unpack, pack]
  rw [hlen, flatMap_bitsOfByte_packBytes (padded_length_mod b), padded, List.take_left]

theorem getD_drop {α : Type} (l : List α) (n i : Nat) (d : α) : (l.drop n).getD i d = l.getD (n + i) d := by
  simp [List.getD_eq_getElem?_getD]

theorem drop_bitsOfByte_eq_zero_iff {x : Byte} {P : Nat} (hP : P ≤ 7) :
    (bitsOfByte x).drop (8 - P) = List.replicate P false ↔ ∀ k, k < P → x.getLsbD k = false := by
  constructor
  · intro h k hk
    have hbit := bitsOfByte_getD x (show 7 - k < 8 by omega)
    rw [show 7 - (7 - k) = k by omega] at hbit
    rw [← hbit, show 7 - k = 8 - P + (P - 1 - k) by omega, ← getD_drop, h]
    simp
  · intro h
    refine List.eq_replicate_iff.mpr ⟨by rw [List.length_drop, bitsOfByte_length]; omega, fun b hb => ?_⟩
    obtain ⟨j, hj, rfl⟩ := List.mem_iff_getElem.mp hb
    rw [List.length_drop, bitsOfByte_length] at hj
    rw [← List.getD_eq_getElem _ false, getD_drop, bitsOfByte_getD x (by omega)]
    exact h _ (by omega)

/-- The last P bits of a byte sequence are those at the low end of its last byte. -/
theorem lastBits_eq_zero_iff {B : Bytes} {P : Nat} (hP : P ≤ 7) (hB : B ≠ [] ∨ P = 0) :
    (B.flatMap bitsOfByte).drop (8 * B.length - P) = List.replicate P false ↔
      ∀ k, k < P → (B.getLastD 0).getLsbD k = false := by
  induction B using List.reverseRecOn with
  | nil =>
    obtain rfl : P = 0 := by simpa using hB
    simp
  | append_singleton init x _ =>
    have hcut : 8 * (init ++ [x]).length - P = (init.flatMap bitsOfByte).length + (8 - P) := by
      rw [flatMap_bitsOfByte_length, List.length_append, List.length_singleton]
      omega
    rw [List.flatMap_append, List.flatMap_singleton, hcut, List.drop_length_add_append, List.getLastD_concat]
    exact drop_bitsOfByte_eq_zero_iff hP

theorem padCount_unpack {B : Bytes} {P : Nat} (hP : P ≤ 7) (hB : B ≠ [] ∨ P = 0) :
    padCount (unpack B P).length = P := by
  have hn : B.length ≠ 0 ∨ P = 0 := hB.imp_left fun h h0 => h (List.eq_nil_of_length_eq_zero h0)
  rw [unpack_length, padCount]
  omega

/-- Packing an unpacked sequence puts zeros where the bits dropped were. -/
theorem pack_unpack_iff {B : Bytes} {P : Nat} (hP : P ≤ 7) (hB : B ≠ [] ∨ P = 0) :
    pack (unpack B P) = (B, P) ↔
      (B.flatMap bitsOfByte).drop (8 * B.length - P) = List.replicate P false := by
  have hpad := padCount_unpack hP hB
  have hmod := padded_length_mod (unpack B P)
  rw [pack, Prod.mk.injEq, and_iff_left hpad]
  have hbits : packBytes (padded (unpack B P)) = B ↔ padded (unpack B P) = B.flatMap bitsOfByte :=
    ⟨fun h => by rw [← h, flatMap_bitsOfByte_packBytes hmod, h], fun h => by rw [h, packBytes_flatMap_bitsOfByte]⟩
  rw [hbits, padded, hpad, unpack]
  nth_rw 2 [← List.take_append_drop (8 * B.length - P) (B.flatMap bitsOfByte)]
  rw [List.append_right_inj, eq_comm]

/-- Settles O55: unpacking drops the padding that packing adds; packing adds back zeros, which is right exactly when the
bits dropped were zeros. -/
theorem unpackInvertsPack : Obligations.UnpackInvertsPack := by
  unfold Obligations.UnpackInvertsPack
  exact ⟨unpack_pack, fun B P hP hB => (pack_unpack_iff hP hB).trans (lastBits_eq_zero_iff hP hB)⟩

/-! ### The accumulator machine (R46) -/

/-- Bit i of the byte is the i-th bit from the end of its group, whatever the group's length. -/
theorem byteOfBits_getLsbD_reverse (g : Bits) {i : Nat} (hi : i < 8) :
    (byteOfBits g).getLsbD i = g.reverse.getD i false := by
  rw [byteOfBits, BitVec.getLsbD_ofNat, decide_eq_true hi, Bool.true_and, testBit_foldl_bits]

/-- One more bit shifts the byte and takes its low end. -/
theorem byteOfBits_concat (g : Bits) (b : Bool) :
    byteOfBits (g ++ [b]) = (byteOfBits g <<< 1) ||| (if b then 1#8 else 0#8) := by
  refine BitVec.eq_of_getLsbD_eq fun i hi => ?_
  rw [byteOfBits_getLsbD_reverse _ hi, List.reverse_concat, BitVec.getLsbD_or, BitVec.getLsbD_shiftLeft]
  cases i with
  | zero => cases b <;> simp
  | succ i =>
    rw [List.getD_cons_succ, ← byteOfBits_getLsbD_reverse g (by omega)]
    cases b <;> simp [hi]

theorem byteOfBits_append_zeros (g : Bits) (k : Nat) :
    byteOfBits (g ++ List.replicate k false) = byteOfBits g <<< k := by
  induction k with
  | zero => simp
  | succ k ih =>
    rw [List.replicate_succ', ← List.append_assoc, byteOfBits_concat, ih, BitVec.shiftLeft_add]
    simp

theorem packerRun_concat (b : Bits) (x : Bool) : packerRun (b ++ [x]) = packerPush (packerRun b) x :=
  List.foldl_concat ..

/-- The machine has emitted the full groups and holds the bits after them. -/
theorem packerRun_spec (b : Bits) : ∃ c g, b = c ++ g ∧ c.length % 8 = 0 ∧ g.length < 8 ∧
    packerRun b = { acc := byteOfBits g, fill := g.length, len := b.length, out := packBytes c } := by
  induction b using List.reverseRecOn with
  | nil => exact ⟨[], [], rfl, rfl, by decide, rfl⟩
  | append_singleton b x ih =>
    obtain ⟨c, g, rfl, hc, hg, hrun⟩ := ih
    rw [packerRun_concat, hrun, packerPush, ← byteOfBits_concat]
    by_cases hfull : g.length = 7
    · have hgx : (g ++ [x]).length = 8 := by simp [hfull]
      refine ⟨c ++ (g ++ [x]), [], by simp, by simp only [List.length_append] at hgx ⊢; omega, by decide, ?_⟩
      simp only [hfull, if_true, packBytes_append hc, packBytes_group hgx, List.length_append, List.length_singleton]
      rfl
    · refine ⟨c, g ++ [x], by simp, hc, by simp; omega, ?_⟩
      simp only [hfull, if_false, List.length_append, List.length_singleton]

/-- Settles O56: the machine holds the last group, and the flush fills it with the padding. -/
theorem packerMachineEmitsThePackedBytes : Obligations.PackerMachineEmitsThePackedBytes := by
  unfold Obligations.PackerMachineEmitsThePackedBytes
  intro b
  obtain ⟨c, g, rfl, hc, hg, hrun⟩ := packerRun_spec b
  have hlen : (c ++ g).length % 8 = g.length := by rw [List.length_append]; omega
  rw [hrun]
  refine ⟨?_, rfl, hlen.symm⟩
  rw [packerFlush, pack, padded, padCount, hlen, List.append_assoc, packBytes_append hc]
  by_cases h0 : g.length = 0
  · simp [List.eq_nil_of_length_eq_zero h0, packBytes]
  · have hpad : (8 - g.length) % 8 = 8 - g.length := Nat.mod_eq_of_lt (by omega)
    have hgroup : (g ++ List.replicate (8 - g.length) false).length = 8 := by simp; omega
    rw [if_neg h0, hpad, packBytes_group hgroup, byteOfBits_append_zeros]

/-! ### The errors of PACK and UNPACK (R194, R195) -/

/-- The offset PACK looks for is the first of a byte above 1. -/
theorem findIdx_invalidBit_iff {S : Bytes} {i : Nat} :
    S.findIdx? (fun x => decide (x.toNat > 1)) = some i ↔
      i < S.length ∧ 1 < (S.getD i 0).toNat ∧ ∀ j, j < i → (S.getD j 0).toNat ≤ 1 := by
  rw [List.findIdx?_eq_some_iff_getElem]
  constructor
  · rintro ⟨hi, hbad, hbefore⟩
    refine ⟨hi, ?_, fun j hj => ?_⟩
    · rw [List.getD_eq_getElem _ _ hi]
      simpa using hbad
    · rw [List.getD_eq_getElem _ _ (hj.trans hi)]
      simpa using hbefore j hj
  · rintro ⟨hi, hbad, hbefore⟩
    refine ⟨hi, ?_, fun j hj => ?_⟩
    · rw [List.getD_eq_getElem _ _ hi] at hbad
      simpa using hbad
    · have hj' := hbefore j hj
      rw [List.getD_eq_getElem _ _ (hj.trans hi)] at hj'
      simpa using hj'

theorem packOp_error_iff {S : Bytes} {pin : BitVec 4} {e : OpError} :
    packOp S pin = .error e ↔
      e.kind = .invalidBit ∧ S.findIdx? (fun x => decide (x.toNat > 1)) = some e.info := by
  obtain ⟨kind, info⟩ := e
  unfold packOp
  cases S.findIdx? (fun x => decide (x.toNat > 1)) with
  | none => simp
  | some i => simp [eq_comm]

theorem unpackOp_error_iff {S : Bytes} {pin : BitVec 4} {e : OpError} :
    unpackOp S pin = .error e ↔
      e = ⟨.malformedContainer, pin.toNat⟩ ∧ (7 < pin.toNat ∨ (S = [] ∧ pin ≠ 0)) := by
  rw [unpackOp, ← List.length_eq_zero_iff]
  by_cases h7 : pin.toNat > 7
  · rw [if_pos h7, Except.error.injEq, eq_comm]
    exact (and_iff_left (.inl h7)).symm
  · rw [if_neg h7]
    by_cases hempty : S.length = 0 ∧ pin ≠ 0
    · rw [if_pos hempty, Except.error.injEq, eq_comm]
      exact (and_iff_left (.inr hempty)).symm
    · rw [if_neg hempty]
      exact iff_of_false nofun fun h => h.2.elim h7 hempty

/-- Settles O29: each operation raises one error, under the condition it tests. -/
theorem packAndUnpackRejectWhatTheirRulesReject : Obligations.PackAndUnpackRejectWhatTheirRulesReject := by
  unfold Obligations.PackAndUnpackRejectWhatTheirRulesReject
  intro S pin e
  exact ⟨packOp_error_iff.trans (and_congr_right fun _ => findIdx_invalidBit_iff), unpackOp_error_iff⟩

/-! ### What PACK and UNPACK write (R194, R195) -/

theorem sourceBytes_length (s : State) : (sourceBytes s).length = s.srcLen.toNat := by
  simp [sourceBytes]

theorem packOp_of_bits {S : Bytes} (pin : BitVec 4) (h : ∀ x ∈ S, x = 0 ∨ x = 1) :
    packOp S pin = .ok {
      out := (pack (S.map fun x => decide (x = 1))).1
      pad := some (BitVec.ofNat 4 (padCount S.length))
      bitlen := S.length } := by
  have hnone : S.findIdx? (fun x => decide (x.toNat > 1)) = none := by
    rw [List.findIdx?_eq_none_iff]
    intro x hx
    rcases h x hx with rfl | rfl <;> rfl
  simp [packOp, hnone, pack, bitsOfVector]

theorem pack_length (b : Bits) : (pack b).1.length = (b.length + 7) / 8 :=
  (packBytes_length (padded b)).trans (padded_length_div b)

/-- Settles O18: the bytes are all 0 or 1, so that PACK computes the packed bits, which fit. -/
theorem packWritesThePackedBits : Obligations.PackWritesThePackedBits := by
  unfold Obligations.PackWritesThePackedBits
  intro s ie hs hbits hfit
  have hlen : (pack ((sourceBytes s).map fun x => decide (x = 1))).1.length = (s.srcLen.toNat + 7) / 8 := by
    rw [pack_length, List.length_map, sourceBytes_length]
  have hop := packOp_of_bits s.pad hbits
  rw [sourceBytes_length] at hop
  exact ⟨hlen, succeedsWith_of_compute (i := .pack ie) hs rfl hop (hlen.symm ▸ hfit)⟩

/-- Settles O19: PAD passes both checks, and the output is the bits unpacked, a byte each. -/
theorem unpackWritesTheBitVector : Obligations.UnpackWritesTheBitVector := by
  unfold Obligations.UnpackWritesTheBitVector
  intro s ie L hs hpad hsrc hL hfit
  have hlen : (unpack (sourceBytes s) s.pad.toNat).length = L := by
    rw [unpack_length, sourceBytes_length, hL]
  have hop : unpackOp (sourceBytes s) s.pad =
      .ok { out := vectorOfBits (unpack (sourceBytes s) s.pad.toNat), bitlen := L } := by
    have hempty : ¬ ((sourceBytes s).length = 0 ∧ s.pad ≠ 0) := by
      rw [sourceBytes_length]
      exact fun h => hsrc.elim (fun hne => hne h.1) h.2
    rw [unpackOp, if_neg (Nat.not_lt.mpr hpad), if_neg hempty, hlen]
  refine ⟨hlen, succeedsWith_of_compute (i := .unpack ie) hs rfl hop ?_⟩
  rwa [vectorOfBits, List.length_map, hlen]

end Sys2Proof.Proofs
end

section
/-! Proofs for 41_count.md and the table lists of 30_encoding.md: `count_table` (R150, R151), the bytes of a table list
and their parsing back (R105, R160), and what COUNT and BUILD write (R152, R172). -/

namespace Sys2Proof.Proofs

open Sys2Proof.Machine Sys2Proof.Safety Sys2Proof.Laws

/-! ### Symbols as bytes and as numbers -/

theorem forall_byte_iff {p : Byte → Prop} : (∀ x, p x) ↔ ∀ s, s < 256 → p (BitVec.ofNat 8 s) :=
  ⟨fun h s _ => h _, fun h x => by simpa using h x.toNat x.isLt⟩

theorem toNat_ofNat_byte {n : Nat} (h : n ≤ 255) : (BitVec.ofNat 8 n).toNat = n := by
  rw [BitVec.toNat_ofNat]
  exact Nat.mod_eq_of_lt (by omega)

/-! ### The entries of the symbols that occur (R150) -/

theorem mem_presentEntries_iff {S : Bytes} {e : Entry} :
    e ∈ presentEntries S ↔ e.freq = S.count e.sym ∧ 1 ≤ S.count e.sym := by
  simp only [presentEntries, List.mem_filterMap, List.mem_range, Option.ite_none_right_eq_some, Option.some.injEq]
  constructor
  · rintro ⟨s, -, hcount, rfl⟩
    exact ⟨rfl, hcount⟩
  · rintro ⟨hfreq, hcount⟩
    have hsym : BitVec.ofNat 8 e.sym.toNat = e.sym := by simp
    refine ⟨e.sym.toNat, e.sym.isLt, ?_⟩
    rw [symbolFreq, hsym, ← hfreq]
    exact ⟨hfreq ▸ hcount, rfl⟩

theorem presentEntries_sorted (S : Bytes) : ((presentEntries S).map fun e => e.sym.toNat).Pairwise (· < ·) := by
  rw [List.pairwise_map, presentEntries, List.pairwise_filterMap]
  refine List.pairwise_lt_range.imp_of_mem fun {a b} ha hb hab x hx y hy => ?_
  simp only [Option.ite_none_right_eq_some, Option.some.injEq] at hx hy
  obtain ⟨-, rfl⟩ := hx
  obtain ⟨-, rfl⟩ := hy
  have ha' := List.mem_range.mp ha
  have hb' := List.mem_range.mp hb
  simpa [Nat.mod_eq_of_lt ha', Nat.mod_eq_of_lt hb'] using hab

theorem presentEntries_syms_nodup (S : Bytes) : ((presentEntries S).map Entry.sym).Nodup := by
  have hlt := List.pairwise_map.mp (presentEntries_sorted S)
  exact List.pairwise_map.mpr (hlt.imp fun h heq => h.ne (congrArg BitVec.toNat heq))

theorem mem_iff_exists_presentEntry {S : Bytes} {x : Byte} : x ∈ S ↔ ∃ e ∈ presentEntries S, e.sym = x := by
  simp only [mem_presentEntries_iff]
  constructor
  · intro h
    exact ⟨⟨x, S.count x⟩, ⟨rfl, List.count_pos_iff.mpr h⟩, rfl⟩
  · rintro ⟨e, ⟨-, hcount⟩, rfl⟩
    exact List.count_pos_iff.mp hcount

/-- The symbols of the entries are those of the input, each once. -/
theorem presentEntries_syms_perm (S : Bytes) : ((presentEntries S).map Entry.sym).Perm S.dedup := by
  refine (List.perm_ext_iff_of_nodup (presentEntries_syms_nodup S) S.nodup_dedup).mpr fun x => ?_
  rw [List.mem_map, List.mem_dedup]
  exact mem_iff_exists_presentEntry.symm

/-- A weighted sum over the entries is the sum over the input's bytes. -/
theorem presentEntries_weighted_sum (S : Bytes) (w : Byte → Nat) :
    ((presentEntries S).map fun e => e.freq * w e.sym).sum = (S.map w).sum := by
  have hfreq : ((presentEntries S).map fun e => e.freq * w e.sym) =
      ((presentEntries S).map Entry.sym).map fun x => S.count x * w x := by
    rw [List.map_map]
    exact List.map_congr_left fun e he => by rw [(mem_presentEntries_iff.mp he).1]; rfl
  rw [hfreq, ((presentEntries_syms_perm S).map _).sum_eq]
  exact (Finset.sum_list_map_count S w).symm

theorem presentEntries_freq_sum (S : Bytes) : ((presentEntries S).map Entry.freq).sum = S.length := by
  simpa using presentEntries_weighted_sum S fun _ => 1

theorem presentEntries_full_iff {S : Bytes} : (presentEntries S).length = 256 ↔ ∀ x : Byte, 1 ≤ S.count x := by
  have hall := List.filterMap_length_eq_length (l := List.range 256) (f := fun s =>
    if symbolFreq S s ≥ 1 then some (⟨BitVec.ofNat 8 s, symbolFreq S s⟩ : Entry) else none)
  rw [List.length_range] at hall
  rw [presentEntries, hall, forall_byte_iff]
  simp [symbolFreq]

/-! ### `count_table` (R150, R151) -/

/-- The lowest symbol that occurs more than 255 times. -/
def overflowSymbol (S : Bytes) : Option Nat := (List.range 256).find? fun s => decide (symbolFreq S s > 255)

theorem overflowSymbol_eq_some_iff {S : Bytes} {s : Nat} :
    overflowSymbol S = some s ↔
      s < 256 ∧ 255 < S.count (BitVec.ofNat 8 s) ∧ ∀ r, r < s → S.count (BitVec.ofNat 8 r) ≤ 255 := by
  rw [overflowSymbol, List.find?_range_eq_some]
  simp only [symbolFreq, List.mem_range, decide_eq_true_eq, Bool.not_eq_true', decide_eq_false_iff_not, gt_iff_lt,
    not_lt]
  exact and_left_comm

theorem overflowSymbol_eq_none_iff {S : Bytes} : overflowSymbol S = none ↔ ∀ x : Byte, S.count x ≤ 255 := by
  rw [overflowSymbol, List.find?_eq_none, forall_byte_iff]
  simp [symbolFreq]

theorem countTable_of_overflow {S : Bytes} {s : Nat} (h : overflowSymbol S = some s) :
    countTable S = .error ⟨.frequencyOverflow, s⟩ := by
  rw [overflowSymbol] at h
  simp only [countTable, h]

theorem countTable_of_no_overflow {S : Bytes} (h : overflowSymbol S = none) :
    countTable S = if (presentEntries S).length = 256 then .error ⟨.symbolCountOverflow, 256⟩
      else .ok (presentEntries S) := by
  rw [overflowSymbol] at h
  simp only [countTable, h]

theorem countTable_ok_iff {S : Bytes} {T : Table} :
    countTable S = .ok T ↔ (∀ x : Byte, S.count x ≤ 255) ∧ (∃ x : Byte, x ∉ S) ∧ T = presentEntries S := by
  have hfull : (∃ x : Byte, x ∉ S) ↔ (presentEntries S).length ≠ 256 := by
    rw [Ne, presentEntries_full_iff]
    simp [Nat.one_le_iff_ne_zero, List.count_eq_zero]
  rw [← overflowSymbol_eq_none_iff, hfull]
  cases h : overflowSymbol S with
  | some s => simp [countTable_of_overflow h]
  | none =>
    rw [countTable_of_no_overflow h]
    split
    · next hl => simp [hl]
    · next hl => simp [hl, eq_comm]

theorem countTable_error_iff {S : Bytes} {e : OpError} :
    countTable S = .error e ↔
      (∃ s, overflowSymbol S = some s ∧ e = ⟨.frequencyOverflow, s⟩) ∨
      (overflowSymbol S = none ∧ (presentEntries S).length = 256 ∧ e = ⟨.symbolCountOverflow, 256⟩) := by
  cases h : overflowSymbol S with
  | some s => simp [countTable_of_overflow h, eq_comm]
  | none =>
    rw [countTable_of_no_overflow h]
    split
    · next hl => simp [hl, eq_comm]
    · next hl => simp [hl]

/-- What every entry of a counted table holds. -/
theorem countTable_entry {S : Bytes} {T : Table} (h : countTable S = .ok T) {e : Entry} (he : e ∈ T) :
    e.freq = S.count e.sym ∧ 1 ≤ e.freq ∧ e.freq ≤ 255 := by
  obtain ⟨hle, -, rfl⟩ := countTable_ok_iff.mp h
  obtain ⟨hfreq, hpos⟩ := mem_presentEntries_iff.mp he
  exact ⟨hfreq, hfreq ▸ hpos, hfreq ▸ hle e.sym⟩

theorem countTable_length_le {S : Bytes} {T : Table} (h : countTable S = .ok T) : S.length ≤ 255 * 255 := by
  have hT := (countTable_ok_iff.mp h).2.2
  have hsum : (T.map Entry.freq).sum ≤ (T.map Entry.freq).length * 255 := by
    refine List.sum_le_card_nsmul _ 255 fun n hn => ?_
    obtain ⟨e, he, rfl⟩ := List.mem_map.mp hn
    exact (countTable_entry h he).2.2
  rw [List.length_map] at hsum
  calc S.length = (T.map Entry.freq).sum := by rw [hT, presentEntries_freq_sum]
    _ ≤ T.length * 255 := hsum
    _ ≤ 255 * 255 := Nat.mul_le_mul_right 255 (countTable_ok h).2.1

/-- The table of a non-empty input is one that the tree builder accepts. -/
theorem countTable_legal {S : Bytes} {T : Table} (hS : S ≠ []) (h : countTable S = .ok T) : LegalTable T where
  nonempty := by
    obtain ⟨x, hx⟩ := List.exists_mem_of_ne_nil S hS
    obtain ⟨e, he, -⟩ := mem_iff_exists_presentEntry.mp hx
    rw [(countTable_ok h).1]
    exact List.ne_nil_of_mem he
  short := (countTable_ok h).2.1
  distinct := (countTable_ok h).1 ▸ presentEntries_syms_nodup S
  freq e he := (countTable_entry h he).2

/-- Settles O46: the table is the entries of the symbols that occur; the two errors are the two checks, in order. -/
theorem countTableIsExactOrReportsTheOverflow : Obligations.CountTableIsExactOrReportsTheOverflow := by
  unfold Obligations.CountTableIsExactOrReportsTheOverflow
  intro S
  refine ⟨fun T h => ?_, fun s => ?_, ?_, fun e he => ?_⟩
  · obtain ⟨rfl, hshort, -⟩ := countTable_ok h
    exact ⟨presentEntries_sorted S, fun x => mem_iff_exists_presentEntry, fun e he => countTable_entry h he, hshort,
      presentEntries_freq_sum S, countTable_length_le h⟩
  · rw [countTable_error_iff, ← overflowSymbol_eq_some_iff]
    simp
  · rw [countTable_error_iff, overflowSymbol_eq_none_iff, presentEntries_full_iff]
    simp [forall_and, and_comm]
  · rcases countTable_error_iff.mp he with ⟨s, -, rfl⟩ | ⟨-, -, rfl⟩
    · exact .inr rfl
    · exact .inl rfl

/-! ### The bytes of a table list (R105) -/

@[simp] theorem entryBytes_cons (e : Entry) (T : Table) :
    entryBytes (e :: T) = e.sym :: BitVec.ofNat 8 e.freq :: entryBytes T := rfl

theorem entryBytes_length (T : Table) : (entryBytes T).length = 2 * T.length := by
  induction T with
  | nil => rfl
  | cons e T ih => simp only [entryBytes_cons, List.length_cons, ih]; omega

theorem tableBytes_length (T : Table) : (tableBytes T).length = 1 + 2 * T.length := by
  rw [tableBytes, List.length_cons, entryBytes_length, Nat.add_comm]

/-- Entry i stands at the offsets the parser reads it from. -/
theorem symAt_freqAt_entryBytes {T : Table} {i : Nat} {e : Entry} (h : T[i]? = some e) (rest : Bytes) :
    symAt (entryBytes T ++ rest) i = e.sym ∧ freqAt (entryBytes T ++ rest) i = BitVec.ofNat 8 e.freq := by
  induction T generalizing i with
  | nil => simp at h
  | cons d T ih =>
    cases i with
    | zero =>
      obtain rfl : d = e := by simpa using h
      exact ⟨rfl, rfl⟩
    | succ i => exact ih (by simpa using h)

/-- A table list's bytes are laid out as R105 says, whatever follows them. -/
theorem startsWithTable_tableBytes_append {T : Table} (hlen : T.length ≤ 255) (hfreq : ∀ e ∈ T, e.freq ≤ 255)
    (rest : Bytes) : StartsWithTable (tableBytes T ++ rest) T := by
  refine ⟨by rw [List.length_append, tableBytes_length]; omega, toNat_ofNat_byte hlen, fun i e he => ?_⟩
  obtain ⟨hsym, hfr⟩ := symAt_freqAt_entryBytes he rest
  rw [tableBytes, List.cons_append, getD_cons_symbol, getD_cons_freq, hsym, hfr]
  exact ⟨rfl, toNat_ofNat_byte (hfreq e (List.mem_of_getElem? he))⟩

/-! ### Parsing a table list back (R160) -/

theorem entriesAt_entryBytes {T : Table} (hfreq : ∀ e ∈ T, e.freq ≤ 255) (rest : Bytes) :
    entriesAt T.length (entryBytes T ++ rest) = T := by
  induction T with
  | nil => rfl
  | cons e T ih =>
    rw [List.length_cons, entryBytes_cons, List.cons_append, List.cons_append, entriesAt_cons,
      ih fun d hd => hfreq d (List.mem_cons_of_mem e hd), toNat_ofNat_byte (hfreq e List.mem_cons_self)]

/-- The entries all pass exactly when their table has distinct symbols and no frequency 0. -/
theorem allEntriesPass_iff_legal {n : Nat} {bytes : Bytes} :
    (∀ j, j < n → EntryPasses [] bytes j) ↔
      ((entriesAt n bytes).map Entry.sym).Nodup ∧ ∀ e ∈ entriesAt n bytes, 1 ≤ e.freq := by
  have hsyms : (entriesAt n bytes).map Entry.sym = (List.range n).map (symAt bytes) := by
    simp [entriesAt, Function.comp_def]
  have hfreqs : (∀ e ∈ entriesAt n bytes, 1 ≤ e.freq) ↔ ∀ j, j < n → freqAt bytes j ≠ 0 := by
    simp [entriesAt, Nat.one_le_iff_ne_zero, byte_toNat_eq_zero_iff]
  rw [allEntriesPass_nil_iff, ← symAt_injective_iff, hsyms, hfreqs, List.nodup_map_iff_inj_on List.nodup_range]
  simp only [List.mem_range]
  exact and_congr_left fun _ => ⟨fun h i hi j hj => h i j hi hj, fun h i j hi hj => h i hi j hj⟩

theorem byte_ofNat_length_ne_zero {T : Table} (h : LegalTable T) : BitVec.ofNat 8 T.length ≠ 0 := by
  rw [Ne, ← byte_toNat_eq_zero_iff, toNat_ofNat_byte h.short, List.length_eq_zero_iff]
  exact h.nonempty

/-- A legal table list is parsed back from its bytes, whatever follows them. -/
theorem parseTable_tableBytes_append {T : Table} (h : LegalTable T) (rest : Bytes) :
    parseTable (tableBytes T ++ rest) = .ok T := by
  have hback := entriesAt_entryBytes (fun e he => (h.freq e he).2) rest
  rw [tableBytes, List.cons_append, parseTable_ok_iff, toNat_ofNat_byte h.short, allEntriesPass_iff_legal, hback]
  refine ⟨byte_ofNat_length_ne_zero h, ?_, ⟨h.distinct, fun e he => (h.freq e he).1⟩, rfl⟩
  rw [List.length_append, entryBytes_length]
  omega

/-! ### What COUNT and BUILD write (R152, R172) -/

/-- Settles O16: the output is the table list's bytes, which R105 lays out. -/
theorem countWritesTheTableList : Obligations.CountWritesTheTableList := by
  unfold Obligations.CountWritesTheTableList
  intro s ie T hs hT hfit
  have hop : countOp (sourceBytes s) s.pad = .ok { out := tableBytes T, nsym := T.length } := by
    simp only [countOp, hT]
  have hlayout := startsWithTable_tableBytes_append (countTable_ok hT).2.1 (fun e he => (countTable_entry hT he).2.2) []
  rw [List.append_nil] at hlayout
  exact ⟨tableBytes T, tableBytes_length T, hlayout,
    succeedsWith_of_compute (i := .count ie) hs rfl hop (tableBytes_length T ▸ hfit)⟩

/-- Settles O17: the output is the code dump of the parsed table list. -/
theorem buildWritesTheCodeDump : Obligations.BuildWritesTheCodeDump := by
  unfold Obligations.BuildWritesTheCodeDump
  intro s ie T out hs hT hout hfit
  have hop : buildOp (sourceBytes s) s.pad = .ok { out := out, nsym := T.length } := by
    simp only [buildOp, hT, hout]
    rfl
  exact succeedsWith_of_compute (i := .build ie) hs rfl hop hfit

end Sys2Proof.Proofs
end

section
/-! Proofs for 42_tree.md, section 2: the merge (R162 to R167).  One invariant of the loop, `MergeInv`, holds of the
leaves and is kept by every turn; the shape of the built tree is read off it. -/

namespace Sys2Proof.Proofs

open Sys2Proof.Machine Sys2Proof.Safety Sys2Proof.Laws

/-! ### Nodes of a growing arena -/

/-- Node n is a child of node p. -/
def IsChild (A : Arena) (n p : Nat) : Prop := ∃ f l r, A[p]? = some (Node.internal f l r) ∧ (n = l ∨ n = r)

/-- Node x stands in the queue when node i is made: it is an earlier node, and no earlier node's child. -/
def Queued (A : Arena) (i x : Nat) : Prop := x < i ∧ ∀ p, p < i → ¬ IsChild A x p

/-- Node i is made of the two smallest keys of the queue, the smaller one left (R164 to R166). -/
def MergeNode (A : Arena) (i : Nat) : Prop :=
  ∃ l r, A[i]? = some (Node.internal (arenaFreq A l + arenaFreq A r) l r) ∧ Queued A i l ∧ Queued A i r ∧
    keyLess A l r = true ∧ ∀ x, Queued A i x → x ≠ l → x ≠ r → keyLess A r x = true

/-- Arena B extends arena A. -/
abbrev Extends (A B : Arena) : Prop := ∀ i, i < A.length → B[i]? = A[i]?

theorem extends_append (A B : Arena) : Extends A (A ++ B) := fun _ hi => List.getElem?_append_left hi

theorem Extends.arenaFreq {A B : Arena} (h : Extends A B) {i : Nat} (hi : i < A.length) :
    arenaFreq B i = arenaFreq A i := by
  rw [Machine.arenaFreq, h i hi, Machine.arenaFreq]

theorem Extends.keyLess {A B : Arena} (h : Extends A B) {x y : Nat} (hx : x < A.length) (hy : y < A.length) :
    keyLess B x y = keyLess A x y := by
  rw [Machine.keyLess, h.arenaFreq hx, h.arenaFreq hy, Machine.keyLess]

theorem Extends.isChild_iff {A B : Arena} (h : Extends A B) {n p : Nat} (hp : p < A.length) :
    IsChild B n p ↔ IsChild A n p := by
  rw [IsChild, h p hp, IsChild]

theorem Extends.queued_iff {A B : Arena} (h : Extends A B) {i x : Nat} (hi : i ≤ A.length) :
    Queued B i x ↔ Queued A i x :=
  and_congr_right fun _ => forall₂_congr fun _ hp => not_congr (h.isChild_iff (hp.trans_le hi))

/-- A node made by a merge stays so when the arena grows. -/
theorem Extends.mergeNode {A B : Arena} (h : Extends A B) {i : Nat} (hi : i < A.length) (hA : MergeNode A i) :
    MergeNode B i := by
  obtain ⟨l, r, hnode, hl, hr, hlr, hmin⟩ := hA
  have hlA : l < A.length := hl.1.trans hi
  have hrA : r < A.length := hr.1.trans hi
  refine ⟨l, r, ?_, (h.queued_iff hi.le).mpr hl, (h.queued_iff hi.le).mpr hr, (h.keyLess hlA hrA).trans hlr,
    fun x hx hxl hxr => ?_⟩
  · rw [h i hi, hnode, h.arenaFreq hlA, h.arenaFreq hrA]
  · have hxA := (h.queued_iff hi.le).mp hx
    rw [h.keyLess hrA (hxA.1.trans hi)]
    exact hmin x hxA hxl hxr

/-! ### The invariant of the merge loop (R165) -/

/-- The sum of a table list's frequencies. -/
def tableTotal (T : Table) : Nat := (T.map Entry.freq).sum

/-- What holds of the arena and the queue at every turn of the merge of T. -/
structure MergeInv (T : Table) (A : Arena) (pq : List Nat) : Prop where
  count : A.length + pq.length = 2 * T.length
  leaf : ∀ (i : Nat) (e : Entry), T[i]? = some e → A[i]? = some (Node.leaf e.freq e.sym)
  node : ∀ i, T.length ≤ i → i < A.length → MergeNode A i
  nodup : pq.Nodup
  queue : ∀ x, x ∈ pq ↔ Queued A A.length x
  sum : (pq.map (arenaFreq A)).sum = tableTotal T
  bound : ∀ i, arenaFreq A i ≤ tableTotal T

theorem arenaFreq_of_getElem? {A : Arena} {i : Nat} {n : Node} (h : A[i]? = some n) : arenaFreq A i = nodeFreq n := by
  rw [arenaFreq, h]
  rfl

theorem arenaFreq_of_length_le {A : Arena} {i : Nat} (h : A.length ≤ i) : arenaFreq A i = 0 := by
  rw [arenaFreq, List.getElem?_eq_none h]
  rfl

section

variable {T : Table} {A : Arena} {pq : List Nat} (h : MergeInv T A pq)

include h

theorem MergeInv.exists_leaf {i : Nat} (hi : i < T.length) :
    ∃ e : Entry, T[i]? = some e ∧ A[i]? = some (Node.leaf e.freq e.sym) :=
  ⟨T[i], List.getElem?_eq_getElem hi, h.leaf i _ (List.getElem?_eq_getElem hi)⟩

/-- An internal node is one a merge made. -/
theorem MergeInv.mergeNode_of_internal {p f l r : Nat} (hp : A[p]? = some (Node.internal f l r)) :
    T.length ≤ p ∧ Queued A p l ∧ Queued A p r ∧ keyLess A l r = true := by
  have hlt : p < A.length := (List.getElem?_eq_some_iff.mp hp).1
  have hge : T.length ≤ p := by
    by_contra hlt'
    obtain ⟨e, -, hleaf⟩ := h.exists_leaf (Nat.not_le.mp hlt')
    exact nomatch hp.symm.trans hleaf
  obtain ⟨l', r', hnode, hl, hr, hlr, -⟩ := h.node p hge hlt
  obtain ⟨-, rfl, rfl⟩ := Node.internal.inj (Option.some.inj (hp.symm.trans hnode))
  exact ⟨hge, hl, hr, hlr⟩

theorem MergeInv.child_lt {n p : Nat} (hc : IsChild A n p) : n < p := by
  obtain ⟨f, l, r, hp, rfl | rfl⟩ := hc
  · exact (h.mergeNode_of_internal hp).2.1.1
  · exact (h.mergeNode_of_internal hp).2.2.1.1

end

/-- Before the first merge the arena is the leaves, all of them queued. -/
theorem mergeInv_leaves (T : Table) : MergeInv T (leaves T) (List.range T.length) := by
  have hlen : (leaves T).length = T.length := by simp [leaves]
  have hleaf : ∀ (i : Nat) (e : Entry), T[i]? = some e → (leaves T)[i]? = some (Node.leaf e.freq e.sym) := by
    intro i e he
    simp [leaves, he]
  have hnochild : ∀ n p, ¬ IsChild (leaves T) n p := by
    rintro n p ⟨f, l, r, hp, -⟩
    simp [leaves] at hp
  have hfreqs : (List.range T.length).map (arenaFreq (leaves T)) = T.map Entry.freq := by
    refine List.ext_getElem (by simp) fun i h1 h2 => ?_
    rw [List.length_map] at h2
    rw [List.getElem_map, List.getElem_range, List.getElem_map,
      arenaFreq_of_getElem? (hleaf i _ (List.getElem?_eq_getElem h2))]
    rfl
  refine ⟨by rw [hlen, List.length_range]; omega, hleaf, fun i h1 h2 => absurd h2 (by omega), List.nodup_range,
    fun x => ?_, congrArg List.sum hfreqs, fun i => ?_⟩
  · rw [List.mem_range, hlen]
    exact (and_iff_left fun p _ => hnochild x p).symm
  · rcases Nat.lt_or_ge i T.length with hi | hi
    · have hmem : arenaFreq (leaves T) i ∈ (List.range T.length).map (arenaFreq (leaves T)) :=
        List.mem_map_of_mem (List.mem_range.mpr hi)
      exact List.single_le_sum (fun _ _ => Nat.zero_le _) _ (hfreqs ▸ hmem)
    · rw [arenaFreq_of_length_le (hlen.symm ▸ hi)]
      exact Nat.zero_le _

/-! ### One turn of the loop -/

/-- What two extractions give: two queued nodes, the smaller key first, and a queue of larger keys (R164, R165). -/
theorem two_extractions {A : Arena} {pq pq1 pq2 : List Nat} {a b : Nat} (hn : pq.Nodup)
    (ha : extractMin A pq = some (a, pq1)) (hb : extractMin A pq1 = some (b, pq2)) :
    pq.Perm (a :: b :: pq2) ∧ keyLess A a b = true ∧ ∀ x ∈ pq2, keyLess A b x = true := by
  obtain ⟨hamem, rfl, hamin⟩ := extractionTakesTheSmallestKey A pq pq1 a hn ha
  obtain ⟨hbmem, rfl, hbmin⟩ := extractionTakesTheSmallestKey A _ pq2 b (hn.erase a) hb
  exact ⟨(List.perm_cons_erase hamem).trans ((List.perm_cons_erase hbmem).cons a),
    keyLess_iff.mpr (nodeKey_lt_iff.mpr (hamin b hbmem)),
    fun x hx => keyLess_iff.mpr (nodeKey_lt_iff.mpr (hbmin x hx))⟩

/-- After a merge the queued nodes are the old ones but the two merged, and the new one. -/
theorem queued_append_iff {A : Arena} {f a b x : Nat} (hlt : ∀ n p, IsChild A n p → n < p) (ha : a < A.length)
    (hb : b < A.length) :
    Queued (A ++ [.internal f a b]) (A.length + 1) x ↔
      x = A.length ∨ (Queued A A.length x ∧ x ≠ a ∧ x ≠ b) := by
  have hext := extends_append A [.internal f a b]
  have hnew : IsChild (A ++ [.internal f a b]) x A.length ↔ x = a ∨ x = b := by simp [IsChild]
  have hsplit : (∀ p, p < A.length + 1 → ¬ IsChild (A ++ [.internal f a b]) x p) ↔
      (∀ p, p < A.length → ¬ IsChild A x p) ∧ x ≠ a ∧ x ≠ b := by
    rw [Nat.forall_lt_succ_right, hnew, not_or]
    exact and_congr_left fun _ => forall₂_congr fun p hp => not_congr (hext.isChild_iff hp)
  rw [Queued, hsplit, Queued]
  constructor
  · rintro ⟨hx, hold, hxa, hxb⟩
    rcases Nat.lt_succ_iff_lt_or_eq.mp hx with hx | hx
    · exact .inr ⟨⟨hx, hold⟩, hxa, hxb⟩
    · exact .inl hx
  · rintro (rfl | ⟨⟨hx, hold⟩, hxa, hxb⟩)
    · exact ⟨Nat.lt_succ_self _, fun p hp hc => absurd (hlt _ _ hc) hp.not_gt, ha.ne', hb.ne'⟩
    · exact ⟨Nat.lt_succ_of_lt hx, hold, hxa, hxb⟩

/-- A merge of the two smallest keys keeps the invariant (R165, R166). -/
theorem MergeInv.merge {T : Table} {A : Arena} {pq pq2 : List Nat} {a b : Nat} (h : MergeInv T A pq)
    (hperm : pq.Perm (a :: b :: pq2)) (hab : keyLess A a b = true) (hmin : ∀ x ∈ pq2, keyLess A b x = true) :
    MergeInv T (A ++ [.internal (arenaFreq A a + arenaFreq A b) a b]) (A.length :: pq2) := by
  have hext := extends_append A [.internal (arenaFreq A a + arenaFreq A b) a b]
  have hlen : (A ++ [Node.internal (arenaFreq A a + arenaFreq A b) a b]).length = A.length + 1 := by simp
  have hq : ∀ x, Queued A A.length x ↔ x = a ∨ x = b ∨ x ∈ pq2 := fun x => by
    rw [← h.queue, hperm.mem_iff, List.mem_cons, List.mem_cons]
  have hqa := (hq a).mpr (.inl rfl)
  have hqb := (hq b).mpr (.inr (.inl rfl))
  obtain ⟨hanotin, hrest⟩ := List.nodup_cons.mp (hperm.nodup_iff.mp h.nodup)
  obtain ⟨hbnotin, hnodup2⟩ := List.nodup_cons.mp hrest
  have hlt2 : ∀ x ∈ pq2, x < A.length := fun x hx => ((hq x).mpr (.inr (.inr hx))).1
  have hnew : (A ++ [Node.internal (arenaFreq A a + arenaFreq A b) a b])[A.length]? =
      some (.internal (arenaFreq A a + arenaFreq A b) a b) := by simp
  have htotal : arenaFreq A a + arenaFreq A b + (pq2.map (arenaFreq A)).sum = tableTotal T := by
    rw [← h.sum, (hperm.map _).sum_eq]
    simp [Nat.add_assoc]
  have hfreq2 : pq2.map (arenaFreq (A ++ [.internal (arenaFreq A a + arenaFreq A b) a b])) = pq2.map (arenaFreq A) :=
    List.map_congr_left fun x hx => hext.arenaFreq (hlt2 x hx)
  refine ⟨?_, fun i e he => ?_, fun i h1 h2 => ?_, ?_, fun x => ?_, ?_, fun i => ?_⟩
  · have hcount := h.count
    have hplen := hperm.length_eq
    simp only [List.length_cons] at hplen ⊢
    omega
  · have hi := (List.getElem?_eq_some_iff.mp (h.leaf i e he)).1
    exact (hext i hi).trans (h.leaf i e he)
  · rw [hlen] at h2
    rcases Nat.lt_succ_iff_lt_or_eq.mp h2 with hi | rfl
    · exact hext.mergeNode hi (h.node i h1 hi)
    · refine ⟨a, b, ?_, (hext.queued_iff le_rfl).mpr hqa, (hext.queued_iff le_rfl).mpr hqb,
        (hext.keyLess hqa.1 hqb.1).trans hab, fun x hx hxa hxb => ?_⟩
      · rw [hnew, hext.arenaFreq hqa.1, hext.arenaFreq hqb.1]
      · have hx' := (hext.queued_iff le_rfl).mp hx
        rw [hext.keyLess hqb.1 hx'.1]
        exact hmin x ((((hq x).mp hx').resolve_left hxa).resolve_left hxb)
  · exact List.nodup_cons.mpr ⟨fun hmem => (hlt2 _ hmem).false, hnodup2⟩
  · rw [hlen, queued_append_iff (fun n p => h.child_lt) hqa.1 hqb.1, List.mem_cons, hq]
    refine or_congr_right ⟨fun hx => ⟨.inr (.inr hx), ?_, ?_⟩, fun hx => (hx.1.resolve_left hx.2.1).resolve_left hx.2.2⟩
    · rintro rfl
      exact hanotin (List.mem_cons_of_mem b hx)
    · rintro rfl
      exact hbnotin hx
  · rw [List.map_cons, List.sum_cons, hfreq2, arenaFreq_of_getElem? hnew]
    exact htotal
  · rcases Nat.lt_trichotomy i A.length with hi | rfl | hi
    · exact (hext.arenaFreq hi).trans_le (h.bound i)
    · rw [arenaFreq_of_getElem? hnew]
      exact (Nat.le_add_right _ _).trans_eq htotal
    · rw [arenaFreq_of_length_le (hlen.symm ▸ hi)]
      exact Nat.zero_le _

theorem extractMin_of_ne_nil {A : Arena} {pq : List Nat} (h : pq ≠ []) :
    ∃ a rest, extractMin A pq = some (a, rest) := by
  cases pq with
  | nil => exact absurd rfl h
  | cons x xs => exact ⟨_, _, rfl⟩

/-- With enough turns the loop ends with one node in the queue. -/
theorem mergeLoop_inv {T : Table} {fuel : Nat} {A : Arena} {pq : List Nat} (h : MergeInv T A pq) (hne : pq ≠ [])
    (hfuel : pq.length ≤ fuel + 1) :
    MergeInv T (mergeLoop fuel A pq).1 (mergeLoop fuel A pq).2 ∧ (mergeLoop fuel A pq).2.length = 1 := by
  have hpos := List.length_pos_iff.mpr hne
  induction fuel generalizing A pq with
  | zero => exact ⟨h, show pq.length = 1 by omega⟩
  | succ fuel ih =>
    obtain ⟨a, pq1, ha⟩ := extractMin_of_ne_nil (A := A) hne
    have hlen1 := (extractMin_spec ha).2.2
    by_cases hnil : pq1 = []
    · subst hnil
      have hloop : mergeLoop (fuel + 1) A pq = (A, pq) := by
        simp only [mergeLoop, ha]
        rfl
      rw [hloop]
      exact ⟨h, by simpa using hlen1.symm⟩
    · obtain ⟨b, pq2, hb⟩ := extractMin_of_ne_nil (A := A) hnil
      have hlen2 := (extractMin_spec hb).2.2
      obtain ⟨hperm, hab, hmin⟩ := two_extractions h.nodup ha hb
      simp only [mergeLoop, ha, hb]
      exact ih (h.merge hperm hab hmin) (List.cons_ne_nil _ _) (by rw [List.length_cons]; omega)
        (by rw [List.length_cons]; omega)

/-! ### The built tree -/

/-- The tree of a table list that is not empty: the invariant holds, and the queue is the root. -/
theorem buildTree_inv {T : Table} (hT : T ≠ []) :
    MergeInv T (buildTree T).1 [(buildTree T).2] ∧ (buildRun T).2 = [(buildTree T).2] := by
  have hpos := List.length_pos_iff.mpr hT
  have hrange : List.range T.length ≠ [] := by simpa using hT
  obtain ⟨hinv, hone⟩ := mergeLoop_inv (fuel := T.length) (mergeInv_leaves T) hrange (by simp)
  obtain ⟨root, hroot⟩ := List.length_eq_one_iff.mp hone
  have hrun : (buildRun T).2 = [(buildTree T).2] := by
    rw [buildTree, buildRun, hroot]
    rfl
  exact ⟨hrun ▸ hinv, hrun⟩

theorem buildTree_length {T : Table} (hT : T ≠ []) : (buildTree T).1.length = 2 * T.length - 1 := by
  have hcount := (buildTree_inv hT).1.count
  rw [List.length_singleton] at hcount
  omega

/-- The last node is no node's child, so it is the one left in the queue. -/
theorem buildTree_root {T : Table} (hT : T ≠ []) : (buildTree T).2 = 2 * T.length - 2 := by
  have hpos := List.length_pos_iff.mpr hT
  have hinv := (buildTree_inv hT).1
  have hlen := buildTree_length hT
  have hlast : Queued (buildTree T).1 (buildTree T).1.length (2 * T.length - 2) := by
    refine ⟨by omega, fun p hp hc => ?_⟩
    have := hinv.child_lt hc
    omega
  exact (List.mem_singleton.mp ((hinv.queue _).mpr hlast)).symm

theorem tableTotal_lt {T : Table} (h : LegalTable T) : tableTotal T < 2 ^ 16 := by
  have hsum : tableTotal T ≤ (T.map Entry.freq).length * 255 := by
    refine List.sum_le_card_nsmul _ 255 fun n hn => ?_
    obtain ⟨e, he, rfl⟩ := List.mem_map.mp hn
    exact (h.freq e he).2
  have hshort := h.short
  rw [List.length_map] at hsum
  omega

theorem queued_iff_forall {A : Arena} {i x : Nat} :
    Queued A i x ↔ x < i ∧ ∀ p f a b, p < i → A[p]? = some (Node.internal f a b) → x ≠ a ∧ x ≠ b := by
  refine and_congr_right fun _ => ?_
  constructor
  · intro h p f a b hp hA
    exact not_or.mp fun hx => h p hp ⟨f, a, b, hA, hx⟩
  · rintro h p hp ⟨f, a, b, hA, hx⟩
    exact not_or.mpr (h p f a b hp hA) hx

/-- Settles O49: the invariant of the merge, read at its end. -/
theorem builtTreeHasTheSpecifiedShape : Obligations.BuiltTreeHasTheSpecifiedShape := by
  unfold Obligations.BuiltTreeHasTheSpecifiedShape
  intro T hT
  obtain ⟨hinv, hrun⟩ := buildTree_inv hT.nonempty
  have hroot := buildTree_root hT.nonempty
  have hlen := buildTree_length hT.nonempty
  refine ⟨hlen, hroot, hroot ▸ hrun, hinv.leaf, fun i h1 h2 => ?_, fun i => (hinv.bound i).trans_lt (tableTotal_lt hT)⟩
  obtain ⟨l, r, hnode, hl, hr, hlr, hmin⟩ := hinv.node i h1 (hlen.symm ▸ h2)
  refine ⟨l, r, hnode, hl.1, hr.1, hlr, fun y hy => ?_, fun x hx hxl hxr hfree => ?_⟩
  · rcases List.mem_pair.mp hy with rfl | rfl
    · exact (queued_iff_forall.mp hl).2
    · exact (queued_iff_forall.mp hr).2
  · exact hmin x (queued_iff_forall.mpr ⟨hx, hfree⟩) hxl hxr

/-! ### Parents (R43) -/

theorem MergeInv.parent_unique {T : Table} {A : Arena} {pq : List Nat} (h : MergeInv T A pq) {n p q : Nat}
    (hp : IsChild A n p) (hq : IsChild A n q) : p = q := by
  have earlier : ∀ p q, IsChild A n p → IsChild A n q → ¬ p < q := by
    rintro p q hp ⟨f, l, r, hq, rfl | rfl⟩ hlt
    · exact (h.mergeNode_of_internal hq).2.1.2 p hlt hp
    · exact (h.mergeNode_of_internal hq).2.2.1.2 p hlt hp
  exact Nat.le_antisymm (Nat.not_lt.mp (earlier q p hq hp)) (Nat.not_lt.mp (earlier p q hp hq))

/-- In a built tree the root has no parent. -/
theorem root_no_parent {T : Table} (hT : T ≠ []) (p : Nat) : ¬ IsChild (buildTree T).1 (buildTree T).2 p := by
  intro hc
  have hp : p < (buildTree T).1.length := by
    obtain ⟨f, l, r, hA, -⟩ := hc
    exact (List.getElem?_eq_some_iff.mp hA).1
  have hinv := (buildTree_inv hT).1
  exact ((hinv.queue _).mp (List.mem_singleton.mpr rfl)).2 p hp hc

/-- In a built tree every node but the root has a parent. -/
theorem exists_parent {T : Table} (hT : T ≠ []) {n : Nat} (hn : n < (buildTree T).1.length)
    (hne : n ≠ (buildTree T).2) : ∃ p, IsChild (buildTree T).1 n p := by
  by_contra hnone
  have hinv := (buildTree_inv hT).1
  exact hne (List.mem_singleton.mp ((hinv.queue n).mpr ⟨hn, fun p _ hc => hnone ⟨p, hc⟩⟩))

/-- Settles O50: only the root is still queued, and a node leaves the queue once. -/
theorem everyNodeButTheRootHasOneParent : Obligations.EveryNodeButTheRootHasOneParent := by
  unfold Obligations.EveryNodeButTheRootHasOneParent
  intro T hT
  have hinv := (buildTree_inv hT.nonempty).1
  intro A n hn
  split
  · next hroot =>
    subst hroot
    intro p f l r hA
    exact not_or.mp fun h => root_no_parent hT.nonempty p ⟨f, l, r, hA, h⟩
  · next hne =>
    obtain ⟨p, hp⟩ := exists_parent hT.nonempty hn hne
    exact ⟨p, hp, fun q f l r hA h => hinv.parent_unique ⟨f, l, r, hA, h⟩ hp⟩

end Sys2Proof.Proofs
end

section
/-! Proofs for 42_tree.md, section 3: paths of the built tree, and the codes as its paths (R168 to R170). -/

namespace Sys2Proof.Proofs

open Sys2Proof.Machine Sys2Proof.Safety Sys2Proof.Laws

/-! ### Paths -/

/-- The bits lead from node n down to node m, false to the left child and true to the right one (R168). -/
inductive Path (A : Arena) : Nat → Bits → Nat → Prop
  | nil (n : Nat) : Path A n [] n
  | cons {n m f l r : Nat} {c : Bits} (b : Bool) : A[n]? = some (Node.internal f l r) →
      Path A (if b then r else l) c m → Path A n (b :: c) m

theorem Path.append {A : Arena} {n k m : Nat} {c d : Bits} (h : Path A n c k) (h' : Path A k d m) :
    Path A n (c ++ d) m := by
  induction h with
  | nil n => exact h'
  | cons b hA _ ih => exact .cons b hA (ih h')

theorem path_append_iff {A : Arena} {n m : Nat} {c d : Bits} :
    Path A n (c ++ d) m ↔ ∃ k, Path A n c k ∧ Path A k d m := by
  constructor
  · intro h
    induction c generalizing n with
    | nil => exact ⟨n, .nil n, h⟩
    | cons b c ih =>
      cases h with
      | cons _ hA h =>
        obtain ⟨k, h1, h2⟩ := ih h
        exact ⟨k, .cons b hA h1, h2⟩
  · rintro ⟨k, h1, h2⟩
    exact h1.append h2

theorem path_singleton_iff {A : Arena} {n m : Nat} {b : Bool} :
    Path A n [b] m ↔ ∃ f l r, A[n]? = some (Node.internal f l r) ∧ m = if b then r else l := by
  constructor
  · intro h
    cases h with
    | cons _ hA h => cases h; exact ⟨_, _, _, hA, rfl⟩
  · rintro ⟨f, l, r, hA, rfl⟩
    exact .cons b hA (.nil _)

/-- The child that the decoder walks to is the one the path goes to. -/
theorem childOf_of_internal {A : Arena} {n f l r : Nat} (h : A[n]? = some (Node.internal f l r)) (b : Bool) :
    childOf A n b = if b then r else l := by
  simp only [childOf, h]

theorem Path.foldl_childOf {A : Arena} {n m : Nat} {c : Bits} (h : Path A n c m) : c.foldl (childOf A) n = m := by
  induction h with
  | nil n => rfl
  | cons b hA _ ih => rw [List.foldl_cons, childOf_of_internal hA, ih]

/-- The same bits lead to one node only. -/
theorem Path.target_unique {A : Arena} {n m m' : Nat} {c : Bits} (h : Path A n c m) (h' : Path A n c m') : m = m' :=
  h.foldl_childOf.symm.trans h'.foldl_childOf

/-- No path goes on below a leaf. -/
theorem Path.eq_nil_of_leaf {A : Arena} {n m : Nat} {c : Bits} {f : Nat} {s : Byte} (h : Path A n c m)
    (hleaf : A[n]? = some (Node.leaf f s)) : c = [] := by
  cases h with
  | nil => rfl
  | cons b hA _ => exact nomatch hleaf.symm.trans hA

theorem leafSym_eq_some_iff {A : Arena} {n : Nat} {s : Byte} :
    leafSym A n = some s ↔ ∃ f, A[n]? = some (Node.leaf f s) := by
  unfold leafSym
  split
  · next f s' hA => simp [hA]
  · next hA =>
    refine iff_of_false nofun ?_
    rintro ⟨f, hf⟩
    exact hA f s hf

theorem leafSym_of_internal {A : Arena} {n f l r : Nat} (h : A[n]? = some (Node.internal f l r)) :
    leafSym A n = none := by
  simp only [leafSym, h]

/-! ### What the walker records (R168) -/

/-- The walker finds exactly the leaves below its node, each with its path. -/
theorem mem_walk_iff {A : Arena} (hchild : ∀ n p, IsChild A n p → n < p) {fuel n : Nat} (hn : n < fuel) {path p : Bits}
    {s : Byte} : (s, p) ∈ walk A fuel n path ↔
      ∃ c m f, p = path ++ c ∧ Path A n c m ∧ A[m]? = some (Node.leaf f s) := by
  induction fuel generalizing n path with
  | zero => exact absurd hn n.not_lt_zero
  | succ fuel ih =>
    rw [walk]
    cases hA : A[n]? with
    | none =>
      refine iff_of_false List.not_mem_nil ?_
      rintro ⟨c, m, f, -, hpath, hm⟩
      cases hpath with
      | nil => exact nomatch hA.symm.trans hm
      | cons b hA' _ => exact nomatch hA.symm.trans hA'
    | some node =>
      cases node with
      | leaf f s' =>
        constructor
        · intro h
          obtain ⟨rfl, rfl⟩ := Prod.mk.inj (List.mem_singleton.mp h)
          exact ⟨[], n, f, (List.append_nil p).symm, .nil n, hA⟩
        · rintro ⟨c, m, f', rfl, hpath, hm⟩
          obtain rfl := hpath.eq_nil_of_leaf hA
          cases hpath
          obtain ⟨-, rfl⟩ := Node.leaf.inj (Option.some.inj (hA.symm.trans hm))
          rw [List.append_nil]
          exact List.mem_singleton.mpr rfl
      | internal f l r =>
        have hl : l < fuel := (hchild l n ⟨f, l, r, hA, .inl rfl⟩).trans_le (Nat.le_of_lt_succ hn)
        have hr : r < fuel := (hchild r n ⟨f, l, r, hA, .inr rfl⟩).trans_le (Nat.le_of_lt_succ hn)
        rw [List.mem_append, ih hl, ih hr]
        constructor
        · rintro (⟨c, m, f', rfl, hpath, hm⟩ | ⟨c, m, f', rfl, hpath, hm⟩)
          · exact ⟨false :: c, m, f', by simp, .cons false hA hpath, hm⟩
          · exact ⟨true :: c, m, f', by simp, .cons true hA hpath, hm⟩
        · rintro ⟨c, m, f', rfl, hpath, hm⟩
          cases hpath with
          | nil => exact nomatch hA.symm.trans hm
          | cons b hA' hpath =>
            obtain ⟨-, rfl, rfl⟩ := Node.internal.inj (Option.some.inj (hA.symm.trans hA'))
            cases b with
            | false => exact .inl ⟨_, m, f', by simp, hpath, hm⟩
            | true => exact .inr ⟨_, m, f', by simp, hpath, hm⟩

theorem recordCodes_concat (L : List (Byte × Bits)) (x : Byte × Bits) :
    recordCodes (L ++ [x]) = (recordCodes L).set x.1.toNat (some x.2) :=
  List.foldl_concat ..

@[simp] theorem recordCodes_length (L : List (Byte × Bits)) : (recordCodes L).length = 256 := by
  induction L using List.reverseRecOn with
  | nil => exact List.length_replicate
  | append_singleton L x ih => rw [recordCodes_concat, List.length_set, ih]

theorem codeOf_recordCodes_concat (L : List (Byte × Bits)) (x : Byte × Bits) (s : Byte) :
    codeOf (recordCodes (L ++ [x])) s = if s = x.1 then some x.2 else codeOf (recordCodes L) s := by
  have hlt : x.1.toNat < (recordCodes L).length := (recordCodes_length L).symm ▸ x.1.isLt
  rw [recordCodes_concat, codeOf, codeOf, List.getD_eq_getElem?_getD, List.getElem?_set, if_pos hlt]
  by_cases hs : s = x.1
  · rw [if_pos hs, hs, if_pos rfl]
    rfl
  · rw [if_neg hs, if_neg fun h => hs (BitVec.eq_of_toNat_eq h).symm, List.getD_eq_getElem?_getD]

theorem codeOf_noCodes (s : Byte) : codeOf noCodes s = none := by
  rw [codeOf, noCodes, List.getD_eq_getElem?_getD, List.getElem?_replicate]
  split <;> rfl

theorem mem_of_codeOf_recordCodes {L : List (Byte × Bits)} {s : Byte} {c : Bits}
    (h : codeOf (recordCodes L) s = some c) : (s, c) ∈ L := by
  induction L using List.reverseRecOn with
  | nil => exact nomatch (codeOf_noCodes s).symm.trans h
  | append_singleton L x ih =>
    rw [codeOf_recordCodes_concat] at h
    split at h
    · next hs =>
      obtain rfl := Option.some.inj h
      exact List.mem_append_right L (List.mem_singleton.mpr (Prod.ext hs rfl))
    · exact List.mem_append_left [x] (ih h)

theorem codeOf_recordCodes_isSome {L : List (Byte × Bits)} {s : Byte} {c : Bits} (h : (s, c) ∈ L) :
    ∃ d, codeOf (recordCodes L) s = some d := by
  induction L using List.reverseRecOn with
  | nil => exact absurd h List.not_mem_nil
  | append_singleton L x ih =>
    rw [codeOf_recordCodes_concat]
    split
    · exact ⟨_, rfl⟩
    · next hs =>
      refine ih ((List.mem_append.mp h).resolve_right fun hx => hs ?_)
      exact congrArg Prod.fst (List.mem_singleton.mp hx)

/-- Where each symbol is recorded with one code, CODE holds what was recorded. -/
theorem codeOf_recordCodes_iff {L : List (Byte × Bits)} (hone : ∀ s c d, (s, c) ∈ L → (s, d) ∈ L → c = d) {s : Byte}
    {c : Bits} : codeOf (recordCodes L) s = some c ↔ (s, c) ∈ L := by
  refine ⟨mem_of_codeOf_recordCodes, fun h => ?_⟩
  obtain ⟨d, hd⟩ := codeOf_recordCodes_isSome h
  rw [hone s c d h (mem_of_codeOf_recordCodes hd), hd]

/-! ### Paths of the built tree -/

/-- The path from the root to a node is one only, since parents are. -/
theorem root_path_unique {T : Table} (hT : T ≠ []) {c d : Bits} {m : Nat}
    (hc : Path (buildTree T).1 (buildTree T).2 c m) (hd : Path (buildTree T).1 (buildTree T).2 d m) : c = d := by
  have hinv := (buildTree_inv hT).1
  have last_child : ∀ {p m b}, Path (buildTree T).1 p [b] m → IsChild (buildTree T).1 m p := by
    intro p m b h
    obtain ⟨f, l, r, hA, rfl⟩ := path_singleton_iff.mp h
    exact ⟨f, l, r, hA, by cases b <;> simp⟩
  induction c using List.reverseRecOn generalizing d m with
  | nil =>
    cases hc
    rcases List.eq_nil_or_concat d with rfl | ⟨d', b, rfl⟩
    · rfl
    · rw [List.concat_eq_append, path_append_iff] at hd
      obtain ⟨p, -, hlast⟩ := hd
      exact absurd (last_child hlast) (root_no_parent hT p)
  | append_singleton c b ih =>
    obtain ⟨p, hcp, hlast⟩ := path_append_iff.mp hc
    rcases List.eq_nil_or_concat d with rfl | ⟨d', b', rfl⟩
    · cases hd
      exact absurd (last_child hlast) (root_no_parent hT p)
    · rw [List.concat_eq_append, path_append_iff] at hd
      obtain ⟨q, hdq, hlast'⟩ := hd
      obtain rfl : p = q := hinv.parent_unique (last_child hlast) (last_child hlast')
      obtain ⟨f, l, r, hA, hm⟩ := path_singleton_iff.mp hlast
      obtain ⟨f', l', r', hA', hm'⟩ := path_singleton_iff.mp hlast'
      obtain ⟨-, rfl, rfl⟩ := Node.internal.inj (Option.some.inj (hA.symm.trans hA'))
      have hlr : l ≠ r := by
        rintro rfl
        simpa [keyLess] using (hinv.mergeNode_of_internal hA).2.2.2
      have hb : b = b' := by
        subst hm
        cases b <;> cases b' <;> simp_all
      rw [ih hcp hdq, hb, List.concat_eq_append]

/-- Every node of the built tree is reached from the root. -/
theorem exists_root_path {T : Table} (hT : T ≠ []) (k : Nat) {n : Nat} (hn : n < (buildTree T).1.length)
    (hk : (buildTree T).1.length ≤ n + k) : ∃ c, Path (buildTree T).1 (buildTree T).2 c n := by
  have hinv := (buildTree_inv hT).1
  induction k generalizing n with
  | zero => omega
  | succ k ih =>
    by_cases hroot : n = (buildTree T).2
    · exact ⟨[], hroot ▸ .nil n⟩
    · obtain ⟨p, f, l, r, hA, hchild⟩ := exists_parent hT hn hroot
      have hlt := hinv.child_lt ⟨f, l, r, hA, hchild⟩
      obtain ⟨c, hc⟩ := ih (List.getElem?_eq_some_iff.mp hA).1 (by omega)
      rcases hchild with rfl | rfl
      · exact ⟨c ++ [false], hc.append (.cons false hA (.nil _))⟩
      · exact ⟨c ++ [true], hc.append (.cons true hA (.nil _))⟩

/-- A node of the built tree is the leaf of its entry, or internal. -/
theorem leaf_or_internal {T : Table} (hT : T ≠ []) {n : Nat} (hn : n < (buildTree T).1.length) :
    (∃ e, T[n]? = some e ∧ (buildTree T).1[n]? = some (.leaf e.freq e.sym)) ∨
    ∃ f l r, (buildTree T).1[n]? = some (.internal f l r) := by
  have hinv := (buildTree_inv hT).1
  rcases Nat.lt_or_ge n T.length with hlt | hge
  · exact .inl (hinv.exists_leaf hlt)
  · obtain ⟨l, r, hA, -⟩ := hinv.node n hge hn
    exact .inr ⟨_, l, r, hA⟩

/-- A leaf of the built tree is the entry of its index. -/
theorem entry_of_leaf {T : Table} (hT : T ≠ []) {n f : Nat} {s : Byte}
    (h : (buildTree T).1[n]? = some (.leaf f s)) : ∃ e, T[n]? = some e ∧ e.sym = s := by
  rcases leaf_or_internal hT (List.getElem?_eq_some_iff.mp h).1 with ⟨e, he, hleaf⟩ | ⟨f', l, r, hA⟩
  · exact ⟨e, he, (Node.leaf.inj (Option.some.inj (hleaf.symm.trans h))).2⟩
  · exact nomatch h.symm.trans hA

theorem leaf_of_entry {T : Table} (hT : T ≠ []) {i : Nat} {e : Entry} (h : T[i]? = some e) :
    (buildTree T).1[i]? = some (.leaf e.freq e.sym) :=
  (buildTree_inv hT).1.leaf i e h

/-- A path's nodes before its end are internal and fall, so that their number is bounded by where it starts. -/
theorem path_length_le {T : Table} (hT : T ≠ []) {n m : Nat} {c : Bits} (h : Path (buildTree T).1 n c m) :
    c = [] ∨ c.length + T.length ≤ n + 1 := by
  have hinv := (buildTree_inv hT).1
  induction h with
  | nil n => exact .inl rfl
  | @cons n m f l r c b hA _ ih =>
    have hge := (hinv.mergeNode_of_internal hA).1
    have hlt : (if b then r else l) < n := by
      cases b
      · exact hinv.child_lt ⟨f, l, r, hA, .inl rfl⟩
      · exact hinv.child_lt ⟨f, l, r, hA, .inr rfl⟩
    right
    rcases ih with rfl | hlen
    · rw [List.length_singleton]; omega
    · rw [List.length_cons]; omega

/-! ### The codes (R168, R169) -/

theorem index_unique {T : Table} (hT : LegalTable T) {i j : Nat} {d e : Entry} (hi : T[i]? = some d)
    (hj : T[j]? = some e) (hsym : d.sym = e.sym) : i = j := by
  obtain ⟨hilt, rfl⟩ := List.getElem?_eq_some_iff.mp hi
  obtain ⟨hjlt, rfl⟩ := List.getElem?_eq_some_iff.mp hj
  exact (List.Nodup.getElem_inj_iff hT.distinct (i := i) (j := j) (hi := by simpa using hilt)
    (hj := by simpa using hjlt)).mp (by simpa using hsym)

/-- For two or more symbols a code is the path from the root to the leaf of its symbol. -/
theorem codeOf_codesOf_iff {T : Table} (hT : LegalTable T) (h2 : 2 ≤ T.length) {s : Byte} {c : Bits} :
    codeOf (codesOf T) s = some c ↔
      ∃ i e, T[i]? = some e ∧ e.sym = s ∧ Path (buildTree T).1 (buildTree T).2 c i := by
  have hinv := (buildTree_inv hT.nonempty).1
  have hlen := buildTree_length hT.nonempty
  have hroot := buildTree_root hT.nonempty
  have hmem : ∀ s c, (s, c) ∈ walk (buildTree T).1 (buildTree T).1.length (buildTree T).2 [] ↔
      ∃ i e, T[i]? = some e ∧ e.sym = s ∧ Path (buildTree T).1 (buildTree T).2 c i := by
    intro s c
    rw [mem_walk_iff (fun n p => hinv.child_lt) (by omega)]
    constructor
    · rintro ⟨c, m, f, rfl, hpath, hm⟩
      obtain ⟨e, he, hs⟩ := entry_of_leaf hT.nonempty hm
      exact ⟨m, e, he, hs, hpath⟩
    · rintro ⟨i, e, he, rfl, hpath⟩
      exact ⟨c, i, e.freq, rfl, hpath, leaf_of_entry hT.nonempty he⟩
  rw [codesOf, deriveCodes, codeList, if_neg (by omega), codeOf_recordCodes_iff, hmem]
  intro s c d hc hd
  obtain ⟨i, e, he, rfl, hpc⟩ := (hmem s c).mp hc
  obtain ⟨j, e', he', hs, hpd⟩ := (hmem _ d).mp hd
  obtain rfl := index_unique hT he he' hs.symm
  exact root_path_unique hT.nonempty hpc hpd

/-- For one symbol the code is the single bit 0 (R169). -/
theorem codeOf_codesOf_singleton_iff (e : Entry) {s : Byte} {c : Bits} :
    codeOf (codesOf [e]) s = some c ↔ s = e.sym ∧ c = [false] := by
  have hleaf : leafSym (buildTree [e]).1 0 = some e.sym :=
    leafSym_eq_some_iff.mpr ⟨e.freq, leaf_of_entry (List.cons_ne_nil e []) rfl⟩
  rw [codesOf, deriveCodes, codeList, List.length_singleton, if_pos rfl, hleaf, codeOf_recordCodes_iff] <;>
    simp +contextual

/-- A table list that is not empty has one entry or two and more. -/
theorem singleton_or_two_le {T : Table} (hT : T ≠ []) : (∃ e, T = [e]) ∨ 2 ≤ T.length := by
  have hpos := List.length_pos_iff.mpr hT
  rcases Nat.lt_or_ge 1 T.length with h | h
  · exact .inr h
  · exact .inl (List.length_eq_one_iff.mp (by omega))

/-- Settles O51: for two or more symbols the path of the code ends in the leaf and passes internal nodes only. -/
theorem codesAreThePathsOfTheLeaves : Obligations.CodesAreThePathsOfTheLeaves := by
  unfold Obligations.CodesAreThePathsOfTheLeaves
  intro T hT
  refine ⟨fun h2 x c hc => ?_, ?_⟩
  · obtain ⟨i, e, he, rfl, hpath⟩ := (codeOf_codesOf_iff hT h2).mp hc
    refine ⟨?_, fun p hp hne => ?_⟩
    · rw [hpath.foldl_childOf]
      exact leafSym_eq_some_iff.mpr ⟨_, leaf_of_entry hT.nonempty he⟩
    · obtain ⟨d, rfl⟩ := hp
      obtain ⟨k, hpk, hrest⟩ := path_append_iff.mp hpath
      rw [hpk.foldl_childOf]
      cases hrest with
      | nil => exact absurd (List.append_nil p).symm hne
      | cons b hA _ => exact leafSym_of_internal hA
  · rintro e rfl
    exact (codeOf_codesOf_singleton_iff e).mpr ⟨rfl, rfl⟩

/-! ### Which symbols have codes, how long they are, and that none begins with another (R170) -/

theorem codeOf_isSome_iff {T : Table} (hT : LegalTable T) {x : Byte} :
    (codeOf (codesOf T) x).isSome = true ↔ x ∈ T.map Entry.sym := by
  rw [Option.isSome_iff_exists, List.mem_map]
  rcases singleton_or_two_le hT.nonempty with ⟨e, rfl⟩ | h2
  · simp [codeOf_codesOf_singleton_iff, eq_comm (a := e.sym)]
  · simp only [codeOf_codesOf_iff hT h2]
    constructor
    · rintro ⟨c, i, e, he, hs, -⟩
      exact ⟨e, List.mem_of_getElem? he, hs⟩
    · rintro ⟨e, he, rfl⟩
      obtain ⟨i, hi⟩ := List.mem_iff_getElem?.mp he
      have hlt := (List.getElem?_eq_some_iff.mp (leaf_of_entry hT.nonempty hi)).1
      obtain ⟨c, hc⟩ := exists_root_path hT.nonempty (buildTree T).1.length hlt (Nat.le_add_left _ _)
      exact ⟨c, i, e, hi, rfl, hc⟩

/-- A code has 1 to max(1, K - 1) bits. -/
theorem code_length {T : Table} (hT : LegalTable T) {x : Byte} {c : Bits} (hc : codeOf (codesOf T) x = some c) :
    1 ≤ c.length ∧ c.length ≤ max 1 (T.length - 1) := by
  rcases singleton_or_two_le hT.nonempty with ⟨e, rfl⟩ | h2
  · obtain ⟨-, rfl⟩ := (codeOf_codesOf_singleton_iff e).mp hc
    exact ⟨le_rfl, le_rfl⟩
  · obtain ⟨i, e, he, -, hpath⟩ := (codeOf_codesOf_iff hT h2).mp hc
    have hi := (List.getElem?_eq_some_iff.mp he).1
    have hroot := buildTree_root hT.nonempty
    have hne : c ≠ [] := by
      rintro rfl
      cases hpath
      omega
    have hpos := List.length_pos_iff.mpr hne
    have hlen := (path_length_le hT.nonempty hpath).resolve_left hne
    omega

theorem code_ne_nil {T : Table} (hT : LegalTable T) {x : Byte} {c : Bits} (hc : codeOf (codesOf T) x = some c) :
    c ≠ [] :=
  List.ne_nil_of_length_pos (code_length hT hc).1

theorem code_prefix_free {T : Table} (hT : LegalTable T) {x y : Byte} {c d : Bits}
    (hc : codeOf (codesOf T) x = some c) (hd : codeOf (codesOf T) y = some d) (hcd : c <+: d) : x = y := by
  rcases singleton_or_two_le hT.nonempty with ⟨e, rfl⟩ | h2
  · exact ((codeOf_codesOf_singleton_iff e).mp hc).1.trans ((codeOf_codesOf_singleton_iff e).mp hd).1.symm
  · obtain ⟨i, e, he, rfl, hpc⟩ := (codeOf_codesOf_iff hT h2).mp hc
    obtain ⟨j, e', he', rfl, hpd⟩ := (codeOf_codesOf_iff hT h2).mp hd
    obtain ⟨t, rfl⟩ := hcd
    obtain ⟨k, hpk, hrest⟩ := path_append_iff.mp hpd
    obtain rfl := hpc.target_unique hpk
    obtain rfl := hrest.eq_nil_of_leaf (leaf_of_entry hT.nonempty he)
    cases hrest
    rw [Option.some.inj (he.symm.trans he')]

/-- Settles O52: the symbols with codes, their lengths, and no path to a leaf that goes on to another. -/
theorem codesAreNonEmptyAndPrefixFree : Obligations.CodesAreNonEmptyAndPrefixFree := by
  unfold Obligations.CodesAreNonEmptyAndPrefixFree
  intro T hT
  exact ⟨fun x => codeOf_isSome_iff hT, fun x c => code_length hT, fun x y c d => code_prefix_free hT⟩

/-! ### Completeness (R170) -/

/-- From every node, every bit sequence leads to a leaf, or ends on the way to one. -/
theorem exists_leaf_path {T : Table} (hT : T ≠ []) (k : Nat) {n : Nat} (hk : n < k)
    (hn : n < (buildTree T).1.length) (b : Bits) :
    ∃ c i e, T[i]? = some e ∧ Path (buildTree T).1 n c i ∧ (c <+: b ∨ (b <+: c ∧ b ≠ c)) := by
  have hinv := (buildTree_inv hT).1
  induction k generalizing n b with
  | zero => exact absurd hk n.not_lt_zero
  | succ k ih =>
    rcases leaf_or_internal hT hn with ⟨e, he, -⟩ | ⟨f, l, r, hA⟩
    · exact ⟨[], n, e, he, .nil n, .inl List.nil_prefix⟩
    · have hchild : ∀ x : Bool, (if x then r else l) < n := by
        intro x
        cases x
        · exact hinv.child_lt ⟨f, l, r, hA, .inl rfl⟩
        · exact hinv.child_lt ⟨f, l, r, hA, .inr rfl⟩
      have below : ∀ (x : Bool) (b : Bits), ∃ c i e, T[i]? = some e ∧ Path (buildTree T).1 n (x :: c) i ∧
          (c <+: b ∨ (b <+: c ∧ b ≠ c)) := by
        intro x b
        have hlt := hchild x
        obtain ⟨c, i, e, he, hpath, hb⟩ := ih (n := if x then r else l) (by omega) (by omega) b
        exact ⟨c, i, e, he, .cons x hA hpath, hb⟩
      cases b with
      | nil =>
        obtain ⟨c, i, e, he, hpath, -⟩ := below false []
        exact ⟨false :: c, i, e, he, hpath, .inr ⟨List.nil_prefix, nofun⟩⟩
      | cons x b =>
        obtain ⟨c, i, e, he, hpath, hb⟩ := below x b
        refine ⟨x :: c, i, e, he, hpath, hb.imp ?_ ?_⟩
        · exact fun h => List.cons_prefix_cons.mpr ⟨rfl, h⟩
        · exact fun h => ⟨List.cons_prefix_cons.mpr ⟨rfl, h.1⟩, fun heq => h.2 (List.cons.inj heq).2⟩

/-- Settles O53: walk the bits from the root. -/
theorem codesAreComplete : Obligations.CodesAreComplete := by
  unfold Obligations.CodesAreComplete
  intro T hT h2 b
  have hlen := buildTree_length hT.nonempty
  have hroot := buildTree_root hT.nonempty
  have hlt : (buildTree T).2 < (buildTree T).1.length := by omega
  obtain ⟨c, i, e, he, hpath, hb⟩ := exists_leaf_path hT.nonempty _ (Nat.lt_succ_self (buildTree T).2) hlt b
  exact ⟨e.sym, c, (codeOf_codesOf_iff hT h2).mpr ⟨i, e, he, rfl, hpath⟩, hb⟩

end Sys2Proof.Proofs
end

section
/-! Proofs for 44_codec.md, decoding: what the candidate-matching decoder answers (R213), and the tree walker's equality
with it (R214). -/

namespace Sys2Proof.Proofs

open Sys2Proof.Machine Sys2Proof.Safety Sys2Proof.Laws

/-! ### The symbol of a candidate (R213) -/

theorem codesOf_length (T : Table) : (codesOf T).length = 256 := recordCodes_length _

/-- A candidate is matched by the one symbol that has it as its code. -/
theorem matchSymbol_eq_some_iff {T : Table} (hT : LegalTable T) {cand : Bits} {s : Byte} :
    matchSymbol (codesOf T) cand = some s ↔ codeOf (codesOf T) s = some cand := by
  have hcode : ∀ i, i < 256 → codeOf (codesOf T) (BitVec.ofNat 8 i) = (codesOf T).getD i none := fun i hi => by
    rw [codeOf, BitVec.toNat_ofNat, Nat.mod_eq_of_lt hi]
  have found : ∀ i, (codesOf T).findIdx? (fun c => c == some cand) = some i →
      codeOf (codesOf T) (BitVec.ofNat 8 i) = some cand := by
    intro i hi
    obtain ⟨hlt, heq, -⟩ := List.findIdx?_eq_some_iff_getElem.mp hi
    rw [hcode i (codesOf_length T ▸ hlt), List.getD_eq_getElem _ _ hlt]
    exact eq_of_beq heq
  rw [matchSymbol]
  cases hidx : (codesOf T).findIdx? (fun c => c == some cand) with
  | some i =>
    rw [Option.map_some, Option.some.injEq]
    constructor
    · rintro rfl
      exact found i hidx
    · exact fun h => code_prefix_free hT (found i hidx) h (List.prefix_refl cand)
  | none =>
    refine iff_of_false nofun fun h => ?_
    have hlt : s.toNat < (codesOf T).length := codesOf_length T ▸ s.isLt
    rw [codeOf, List.getD_eq_getElem _ _ hlt] at h
    have hno := List.findIdx?_eq_none_iff.mp hidx _ (List.getElem_mem hlt)
    simp [h] at hno

theorem decodeBit_of_match {T : Table} (hT : LegalTable T) {out : Bytes} {cand : Bits} {b : Bool} {s : Byte}
    (h : codeOf (codesOf T) s = some (cand ++ [b])) : decodeBit (codesOf T) (out, cand) b = (out ++ [s], []) := by
  simp only [decodeBit, (matchSymbol_eq_some_iff hT).mpr h]

theorem decodeBit_of_no_match {T : Table} (hT : LegalTable T) {out : Bytes} {cand : Bits} {b : Bool}
    (h : ∀ s, codeOf (codesOf T) s ≠ some (cand ++ [b])) :
    decodeBit (codesOf T) (out, cand) b = (out, cand ++ [b]) := by
  have hnone : matchSymbol (codesOf T) (cand ++ [b]) = none := by
    cases hm : matchSymbol (codesOf T) (cand ++ [b]) with
    | none => rfl
    | some s => exact absurd ((matchSymbol_eq_some_iff hT).mp hm) (h s)
  simp only [decodeBit, hnone]

/-! ### What the decoder answers (R213) -/

/-- The output and the candidate after a bit sequence. -/
def decodeRun (T : Table) (bits : Bits) : Bytes × Bits := bits.foldl (decodeBit (codesOf T)) ([], [])

theorem decodeRun_concat (T : Table) (bits : Bits) (b : Bool) :
    decodeRun T (bits ++ [b]) = decodeBit (codesOf T) (decodeRun T bits) b :=
  List.foldl_concat ..

theorem decodeBits_eq (T : Table) (bits : Bits) :
    decodeBits (codesOf T) bits =
      if (decodeRun T bits).2 = [] then .ok (decodeRun T bits).1
      else .error ⟨.unknownCodeAtEndOfStream, (decodeRun T bits).2.length⟩ := rfl

/-- The codes of the symbols `out`, in order. -/
abbrev codesOfAll (T : Table) (out : Bytes) : Bits := out.flatMap fun x => (codeOf (codesOf T) x).getD []

theorem splitsInto_nil {T : Table} (hT : LegalTable T) : SplitsInto (codesOf T) [] [] [] :=
  ⟨nofun, rfl, fun _ _ hc h => code_ne_nil hT hc (List.prefix_nil.mp h)⟩

/-- The decoder's output and candidate split the bits, and no code stands at the candidate's head. -/
theorem splitsInto_decodeRun {T : Table} (hT : LegalTable T) (bits : Bits) :
    SplitsInto (codesOf T) bits (decodeRun T bits).1 (decodeRun T bits).2 := by
  induction bits using List.reverseRecOn with
  | nil => exact splitsInto_nil hT
  | append_singleton bits b ih =>
    obtain ⟨hsome, hbits, hhead⟩ := ih
    rw [decodeRun_concat]
    generalize decodeRun T bits = st at hsome hbits hhead
    obtain ⟨out, cand⟩ := st
    by_cases hmatch : ∃ s, codeOf (codesOf T) s = some (cand ++ [b])
    · obtain ⟨s, hs⟩ := hmatch
      rw [decodeBit_of_match hT hs]
      refine ⟨fun x hx => ?_, ?_, (splitsInto_nil hT).2.2⟩
      · rcases List.mem_append.mp hx with hx | hx
        · exact hsome x hx
        · rw [List.mem_singleton.mp hx, hs]
          rfl
      · simp [hbits, hs]
    · have hnone := not_exists.mp hmatch
      rw [decodeBit_of_no_match hT hnone]
      refine ⟨hsome, by rw [hbits, List.append_assoc], fun x c hc hpre => ?_⟩
      rcases List.prefix_concat_iff.mp hpre with rfl | hpre
      · exact hnone x hc
      · exact hhead x c hc hpre

/-- At the head of a bit sequence stands at most one code, so that it splits in one way. -/
theorem splitsInto_unique {T : Table} (hT : LegalTable T) {bits : Bits} {out out' : Bytes} {rest rest' : Bits}
    (h : SplitsInto (codesOf T) bits out rest) (h' : SplitsInto (codesOf T) bits out' rest') :
    out = out' ∧ rest = rest' := by
  obtain ⟨hsome, rfl, hhead⟩ := h
  obtain ⟨hsome', hbits, hhead'⟩ := h'
  induction out generalizing out' with
  | nil =>
    cases out' with
    | nil => exact ⟨rfl, hbits⟩
    | cons x xs =>
      obtain ⟨c, hc⟩ := Option.isSome_iff_exists.mp (hsome' x List.mem_cons_self)
      refine absurd ⟨codesOfAll T xs ++ rest', ?_⟩ (hhead x c hc)
      simpa [hc] using hbits.symm
  | cons x xs ih =>
    obtain ⟨c, hc⟩ := Option.isSome_iff_exists.mp (hsome x List.mem_cons_self)
    simp only [List.flatMap_cons, hc, Option.getD_some, List.append_assoc] at hbits
    cases out' with
    | nil => exact absurd ⟨_, hbits⟩ (hhead' x c hc)
    | cons y ys =>
      obtain ⟨d, hd⟩ := Option.isSome_iff_exists.mp (hsome' y List.mem_cons_self)
      simp only [List.flatMap_cons, hd, Option.getD_some, List.append_assoc] at hbits
      obtain rfl : x = y := by
        rcases List.prefix_or_prefix_of_prefix ⟨_, hbits⟩ ⟨_, rfl⟩ with hcd | hdc
        · exact code_prefix_free hT hc hd hcd
        · exact (code_prefix_free hT hd hc hdc).symm
      obtain rfl : c = d := Option.some.inj (hc.symm.trans hd)
      obtain ⟨rfl, rfl⟩ := ih (fun z hz => hsome z (List.mem_cons_of_mem x hz))
        (fun z hz => hsome' z (List.mem_cons_of_mem x hz)) (List.append_cancel_left hbits)
      exact ⟨rfl, rfl⟩

theorem splitsInto_iff {T : Table} (hT : LegalTable T) {bits : Bits} {out : Bytes} {rest : Bits} :
    SplitsInto (codesOf T) bits out rest ↔ decodeRun T bits = (out, rest) := by
  constructor
  · intro h
    obtain ⟨h1, h2⟩ := splitsInto_unique hT (splitsInto_decodeRun hT bits) h
    exact Prod.ext h1 h2
  · intro h
    simpa [h] using splitsInto_decodeRun hT bits

theorem decodeBits_ok_iff {T : Table} (hT : LegalTable T) {bits : Bits} {out : Bytes} :
    decodeBits (codesOf T) bits = .ok out ↔ SplitsInto (codesOf T) bits out [] := by
  rw [decodeBits_eq, splitsInto_iff hT]
  cases decodeRun T bits with
  | mk out' rest => by_cases h : rest = [] <;> simp [h]

theorem decodeBits_error_iff {T : Table} (hT : LegalTable T) {bits : Bits} {e : OpError} :
    decodeBits (codesOf T) bits = .error e ↔ ∃ out rest, SplitsInto (codesOf T) bits out rest ∧ rest ≠ [] ∧
      e = ⟨.unknownCodeAtEndOfStream, rest.length⟩ := by
  simp only [decodeBits_eq, splitsInto_iff hT]
  cases decodeRun T bits with
  | mk out' rest => by_cases h : rest = [] <;> simp [h, eq_comm]

/-- The codes of symbols that have one are decoded back. -/
theorem decodeBits_codesOfAll {T : Table} (hT : LegalTable T) {out : Bytes}
    (h : ∀ x ∈ out, (codeOf (codesOf T) x).isSome = true) : decodeBits (codesOf T) (codesOfAll T out) = .ok out :=
  (decodeBits_ok_iff hT).mpr ⟨h, (List.append_nil _).symm, (splitsInto_nil hT).2.2⟩

/-! ### The tree walker (R214) -/

theorem walkerRun_concat (A : Arena) (root K : Nat) (bits : Bits) (b : Bool) :
    walkerRun A root K (bits ++ [b]) = walkerStep A root K (walkerRun A root K bits) b :=
  List.foldl_concat ..

/-- The walker of a one-symbol table: it is dead from the first bit on that is no code (R214). -/
structure SingleWalk (st : Bytes × Bits) (w : Walker) : Prop where
  out : w.out = st.1
  candLen : w.candLen = st.2.length
  dead : w.dead = decide (st.2 ≠ [])

theorem walkerRun_single (e : Entry) (bits : Bits) (hT : LegalTable [e]) :
    SingleWalk (decodeRun [e] bits) (walkerRun (buildTree [e]).1 (buildTree [e]).2 1 bits) := by
  have hleaf : leafSym (buildTree [e]).1 0 = some e.sym :=
    leafSym_eq_some_iff.mpr ⟨e.freq, leaf_of_entry hT.nonempty rfl⟩
  induction bits using List.reverseRecOn with
  | nil => exact ⟨rfl, rfl, rfl⟩
  | append_singleton bits b ih =>
    obtain ⟨hout, hcand, hdead⟩ := ih
    rw [decodeRun_concat, walkerRun_concat]
    generalize decodeRun [e] bits = st at hout hcand hdead
    obtain ⟨out, cand⟩ := st
    by_cases hmatch : cand = [] ∧ b = false
    · obtain ⟨rfl, rfl⟩ := hmatch
      rw [decodeBit_of_match hT ((codeOf_codesOf_singleton_iff e).mpr ⟨rfl, rfl⟩), walkerStep, if_pos rfl,
        if_pos ⟨hdead, rfl⟩]
      exact ⟨by simp [hout, hleaf], rfl, hdead⟩
    · have hnone : ∀ s, codeOf (codesOf [e]) s ≠ some (cand ++ [b]) := by
        intro s hs
        have hone := ((codeOf_codesOf_singleton_iff e).mp hs).2
        exact hmatch (by simpa using List.append_inj' (show cand ++ [b] = [] ++ [false] from hone) rfl)
      rw [decodeBit_of_no_match hT hnone, walkerStep, if_pos rfl, if_neg (by simpa [hdead] using hmatch)]
      exact ⟨hout, by simp [hcand], by simp⟩

/-- The walker of a tree: it stands at the node that the candidate leads to, which is no leaf (R214). -/
structure TreeWalk (T : Table) (st : Bytes × Bits) (w : Walker) : Prop where
  out : w.out = st.1
  candLen : w.candLen = st.2.length
  cur : Path (buildTree T).1 (buildTree T).2 st.2 w.cur
  inner : ∃ f l r, (buildTree T).1[w.cur]? = some (Node.internal f l r)

theorem walkerRun_tree {T : Table} (hT : LegalTable T) (h2 : 2 ≤ T.length) (bits : Bits) :
    TreeWalk T (decodeRun T bits) (walkerRun (buildTree T).1 (buildTree T).2 T.length bits) := by
  have hlen := buildTree_length hT.nonempty
  have hroot := buildTree_root hT.nonempty
  have hinv := (buildTree_inv hT.nonempty).1
  have hrootInner : ∃ f l r, (buildTree T).1[(buildTree T).2]? = some (Node.internal f l r) := by
    obtain ⟨l, r, hA, -⟩ := hinv.node (buildTree T).2 (by omega) (by omega)
    exact ⟨_, l, r, hA⟩
  induction bits using List.reverseRecOn with
  | nil => exact ⟨rfl, rfl, .nil _, hrootInner⟩
  | append_singleton bits b ih =>
    obtain ⟨hout, hcand, hcur, f, l, r, hA⟩ := ih
    rw [decodeRun_concat, walkerRun_concat]
    generalize decodeRun T bits = st at hout hcand hcur
    generalize walkerRun (buildTree T).1 (buildTree T).2 T.length bits = w at hout hcand hcur hA
    obtain ⟨out, cand⟩ := st
    have hchild := childOf_of_internal hA b
    have hnext : Path (buildTree T).1 (buildTree T).2 (cand ++ [b]) (childOf (buildTree T).1 w.cur b) :=
      hcur.append (path_singleton_iff.mpr ⟨f, l, r, hA, hchild⟩)
    have hlt : childOf (buildTree T).1 w.cur b < (buildTree T).1.length := by
      have hcurlt := (List.getElem?_eq_some_iff.mp hA).1
      have hbelow := hinv.child_lt (n := childOf (buildTree T).1 w.cur b)
        ⟨f, l, r, hA, by rw [hchild]; cases b <;> simp⟩
      omega
    rcases leaf_or_internal hT.nonempty hlt with ⟨e, he, hleaf⟩ | hinner
    · have hcode := (codeOf_codesOf_iff hT h2).mpr ⟨_, e, he, rfl, hnext⟩
      rw [decodeBit_of_match hT hcode, walkerStep, if_neg (by omega), leafSym_eq_some_iff.mpr ⟨_, hleaf⟩]
      exact ⟨by simp [hout], rfl, .nil _, hrootInner⟩
    · obtain ⟨f', l', r', hA'⟩ := hinner
      have hnone : ∀ s, codeOf (codesOf T) s ≠ some (cand ++ [b]) := by
        intro s hs
        obtain ⟨i, e, he, -, hpath⟩ := (codeOf_codesOf_iff hT h2).mp hs
        obtain rfl := hpath.target_unique hnext
        exact nomatch (leaf_of_entry hT.nonempty he).symm.trans hA'
      rw [decodeBit_of_no_match hT hnone, walkerStep, if_neg (by omega), leafSym_of_internal hA']
      exact ⟨hout, by simp [hcand], hnext, f', l', r', hA'⟩

/-- Settles O57: the walker's output is the decoder's, and its candidate length that of the decoder's candidate. -/
theorem treeWalkingDecoderEqualsCandidateDecoder : Obligations.TreeWalkingDecoderEqualsCandidateDecoder := by
  unfold Obligations.TreeWalkingDecoderEqualsCandidateDecoder
  intro T bits hT
  have hsame : (walkerRun (buildTree T).1 (buildTree T).2 T.length bits).out = (decodeRun T bits).1 ∧
      (walkerRun (buildTree T).1 (buildTree T).2 T.length bits).candLen = (decodeRun T bits).2.length := by
    rcases singleton_or_two_le hT.nonempty with ⟨e, rfl⟩ | h2
    · have h := walkerRun_single e bits hT
      exact ⟨h.out, h.candLen⟩
    · have h := walkerRun_tree hT h2 bits
      exact ⟨h.out, h.candLen⟩
  simp only [walkDecode, hsame.1, hsame.2, List.length_eq_zero_iff, decodeBits_eq]

end Sys2Proof.Proofs
end

section
/-! Proofs for 44_codec.md, the codec: the containers that are accepted (R117, R212), their size (R116), what COMPRESS
and DECOMPRESS write (R211, R215), and the round trip (R217). -/

namespace Sys2Proof.Proofs

open Sys2Proof.Machine Sys2Proof.Safety Sys2Proof.Laws

/-! ### `parse_container` (R212) -/

theorem parseContainer_of_tableError {S : Bytes} {e : OpError} (h : parseTable S = .error e) :
    parseContainer S = .error e := by
  simp only [parseContainer, h]

/-- The padding count is above 7, or not 0 where no body follows it (R117). -/
def BadPadding (S : Bytes) (K : Nat) : Prop :=
  7 < (S.getD (1 + 2 * K) 0).toNat ∨ (S.length = 2 + 2 * K ∧ (S.getD (1 + 2 * K) 0).toNat ≠ 0)

theorem parseContainer_of_short {S : Bytes} {T : Table} (h : parseTable S = .ok T)
    (hlen : S.length < 2 + 2 * T.length) : parseContainer S = .error ⟨.malformedContainer, S.length⟩ := by
  have hnone : S[1 + 2 * T.length]? = none := List.getElem?_eq_none (by omega)
  simp only [parseContainer, h, hnone]

/-- The two checks of the padding count, as one condition. -/
theorem parseContainer_of_long {S : Bytes} {T : Table} (h : parseTable S = .ok T) (hlen : 2 + 2 * T.length ≤ S.length) :
    (BadPadding S T.length ∧ parseContainer S = .error ⟨.malformedContainer, 1 + 2 * T.length⟩) ∨
    (¬ BadPadding S T.length ∧
      parseContainer S = .ok ⟨T, (S.getD (1 + 2 * T.length) 0).toNat, S.drop (2 + 2 * T.length)⟩) := by
  have hlt : 1 + 2 * T.length < S.length := by omega
  have hbody : (S.drop (2 + 2 * T.length)).length = 0 ↔ S.length = 2 + 2 * T.length := by
    rw [List.length_drop]; omega
  simp only [parseContainer, h, List.getElem?_eq_getElem hlt, hbody, BadPadding, List.getD_eq_getElem _ _ hlt,
    gt_iff_lt, ne_eq, byte_toNat_eq_zero_iff]
  generalize S[1 + 2 * T.length] = P
  by_cases h7 : 7 < P.toNat
  · exact .inl ⟨.inl h7, if_pos h7⟩
  · rw [if_neg h7]
    by_cases hempty : S.length = 2 + 2 * T.length ∧ ¬P = 0
    · exact .inl ⟨.inr hempty, if_pos hempty⟩
    · exact .inr ⟨not_or.mpr ⟨h7, hempty⟩, if_neg hempty⟩

/-- The conditions of R117 are those of the table list, of its length, and of the padding count. -/
theorem wellFormedContainer_iff {C : Bytes} (hC : C ≠ []) :
    WellFormedContainer C ↔
      (∃ T, parseTable C = .ok T) ∧ 2 + 2 * (C.getD 0 0).toNat ≤ C.length ∧ ¬ BadPadding C (C.getD 0 0).toNat := by
  have htable := (parseTableChecksInOrder C).1
  simp only at htable
  simp only [WellFormedContainer]
  generalize (C.getD 0 0).toNat = K at htable ⊢
  constructor
  · rintro ⟨hK, hlen, hdistinct, hfreq, h7, hbody⟩
    have hfreq0 := fun i hi => Nat.pos_iff_ne_zero.mp (hfreq i hi)
    refine ⟨⟨_, (htable _).mpr ⟨hC, by omega, by omega, hdistinct, hfreq0, rfl⟩⟩, hlen, ?_⟩
    rintro (hbig | ⟨hend, hne⟩)
    · exact hbig.not_ge h7
    · rcases hbody with hpos | hzero
      · omega
      · exact hne (byte_toNat_eq_zero_iff.mpr hzero)
  · rintro ⟨⟨T, hT⟩, hlen, hgood⟩
    obtain ⟨-, hK, -, hdistinct, hfreq, -⟩ := (htable T).mp hT
    obtain ⟨hsmall, hend⟩ := not_or.mp hgood
    refine ⟨Nat.pos_iff_ne_zero.mpr hK, hlen, hdistinct, fun i hi => Nat.pos_iff_ne_zero.mpr (hfreq i hi),
      Nat.not_lt.mp hsmall, ?_⟩
    by_cases hlast : C.length = 2 + 2 * K
    · exact .inr (byte_toNat_eq_zero_iff.mp (not_not.mp fun hne => hend ⟨hlast, hne⟩))
    · exact .inl (by omega)

/-- A parsed table list is the K entries at their offsets (R160). -/
theorem parseTable_ok_eq {S : Bytes} {T : Table} (h : parseTable S = .ok T) :
    T = (List.range (S.getD 0 0).toNat).map fun i => ⟨S.getD (1 + 2 * i) 0, (S.getD (2 + 2 * i) 0).toNat⟩ := by
  obtain ⟨-, -, -, -, -, hT⟩ := ((parseTableChecksInOrder S).1 T).mp h
  exact hT

/-- `parse_container` accepts exactly the well-formed containers, and answers their parts (R117, R212). -/
theorem parseContainer_ok_iff {C : Bytes} (hC : C ≠ []) {c : Container} :
    parseContainer C = .ok c ↔ WellFormedContainer C ∧
      c = ⟨(List.range (C.getD 0 0).toNat).map fun i => ⟨C.getD (1 + 2 * i) 0, (C.getD (2 + 2 * i) 0).toNat⟩,
        (C.getD (1 + 2 * (C.getD 0 0).toNat) 0).toNat, C.drop (2 + 2 * (C.getD 0 0).toNat)⟩ := by
  rw [wellFormedContainer_iff hC]
  cases hT : parseTable C with
  | error e =>
    rw [parseContainer_of_tableError hT]
    exact iff_of_false nofun fun h => nomatch h.1.1.choose_spec
  | ok T =>
    have hK := (parseTable_length hT).1
    rw [← parseTable_ok_eq hT, ← hK]
    rcases Nat.lt_or_ge C.length (2 + 2 * T.length) with hlen | hlen
    · rw [parseContainer_of_short hT hlen]
      exact iff_of_false nofun fun h => hlen.not_ge h.1.2.1
    · rcases parseContainer_of_long hT hlen with ⟨hbad, hparse⟩ | ⟨hgood, hparse⟩
      · rw [hparse]
        exact iff_of_false nofun fun h => h.1.2.2 hbad
      · rw [hparse, Except.ok.injEq, eq_comm]
        exact (and_iff_right ⟨⟨T, rfl⟩, hlen, hgood⟩).symm

/-- The errors of `parse_container`: the table list's, then the missing padding count, then a bad one (R212). -/
theorem parseContainer_error_iff {C : Bytes} {e : OpError} :
    parseContainer C = .error e ↔ parseTable C = .error e ∨ ((∃ T, parseTable C = .ok T) ∧
      ((C.length < 2 + 2 * (C.getD 0 0).toNat ∧ e = ⟨.malformedContainer, C.length⟩) ∨
       (2 + 2 * (C.getD 0 0).toNat ≤ C.length ∧ BadPadding C (C.getD 0 0).toNat ∧
        e = ⟨.malformedContainer, 1 + 2 * (C.getD 0 0).toNat⟩))) := by
  cases hT : parseTable C with
  | error e' => simp [parseContainer_of_tableError hT]
  | ok T =>
    rw [← (parseTable_length hT).1]
    rcases Nat.lt_or_ge C.length (2 + 2 * T.length) with hlen | hlen
    · simp [parseContainer_of_short hT hlen, hlen, hlen.not_ge, eq_comm]
    · rcases parseContainer_of_long hT hlen with ⟨hbad, hparse⟩ | ⟨hgood, hparse⟩
      · simp [hparse, hlen, hlen.not_gt, hbad, eq_comm]
      · simp [hparse, hlen.not_gt, hgood]

/-! ### The bytes of a container (R110) -/

theorem containerBytes_length (T : Table) (P : Nat) (body : Bytes) :
    (containerBytes T P body).length = 2 + 2 * T.length + body.length := by
  rw [containerBytes, List.length_append, tableBytes_length, List.length_cons]
  omega

theorem containerBytes_pad {P : Nat} (hP : P ≤ 7) (T : Table) (body : Bytes) :
    ((containerBytes T P body).getD (1 + 2 * T.length) 0).toNat = P := by
  rw [containerBytes, ← tableBytes_length, List.getD_append_right _ _ _ _ le_rfl, Nat.sub_self, List.getD_cons_zero]
  exact toNat_ofNat_byte (by omega)

theorem containerBytes_body (T : Table) (P : Nat) (body : Bytes) :
    (containerBytes T P body).drop (2 + 2 * T.length) = body := by
  have hcut : 2 + 2 * T.length = (tableBytes T).length + 1 := by rw [tableBytes_length]; omega
  rw [containerBytes, hcut, List.drop_length_add_append]
  rfl

/-- A container made of a legal table list, a padding count and a body is taken apart again. -/
theorem parseContainer_containerBytes {T : Table} (hT : LegalTable T) {P : Nat} {body : Bytes} (hP : P ≤ 7)
    (hbody : body ≠ [] ∨ P = 0) : parseContainer (containerBytes T P body) = .ok ⟨T, P, body⟩ := by
  have htable : parseTable (containerBytes T P body) = .ok T := parseTable_tableBytes_append hT _
  have hlen := containerBytes_length T P body
  rcases parseContainer_of_long htable (by omega) with ⟨hbad, -⟩ | ⟨-, hparse⟩
  · rw [BadPadding, containerBytes_pad hP, hlen] at hbad
    rcases hbad with h7 | ⟨hend, hne⟩
    · exact absurd hP (Nat.not_le.mpr h7)
    · exact absurd (List.eq_nil_of_length_eq_zero (by omega)) (hbody.resolve_right hne)
  · rw [hparse, containerBytes_pad hP, containerBytes_body]

/-! ### Compress (R210, R211) -/

theorem length_eq_zero_of_ne_nil {S : Bytes} (hS : S ≠ []) : ¬ S.length = 0 :=
  fun h => hS (List.eq_nil_of_length_eq_zero h)

/-- What COMPRESS computes of a non-empty input with the table list T. -/
def compressed (T : Table) (S : Bytes) : OpOk where
  out := containerOf T S
  pad := some (BitVec.ofNat 4 (padCount (streamOf T S).length))
  bitlen := (streamOf T S).length
  nsym := T.length

theorem compressOp_of_table {S : Bytes} {T : Table} (hS : S ≠ []) (hT : countTable S = .ok T) (pin : BitVec 4) :
    compressOp S pin = .ok (compressed T S) := by
  rw [compressOp, if_neg (length_eq_zero_of_ne_nil hS)]
  simp only [hT]
  rfl

theorem compressOp_of_error {S : Bytes} {e : OpError} (hS : S ≠ []) (he : countTable S = .error e) (pin : BitVec 4) :
    compressOp S pin = .error e := by
  rw [compressOp, if_neg (length_eq_zero_of_ne_nil hS)]
  simp only [he]

theorem compressOp_ok_iff {S : Bytes} (hS : S ≠ []) {pin : BitVec 4} {r : OpOk} :
    compressOp S pin = .ok r ↔ ∃ T, countTable S = .ok T ∧ r = compressed T S := by
  cases hT : countTable S with
  | error e => simp [compressOp_of_error hS hT]
  | ok T => simp [compressOp_of_table hS hT, eq_comm]

theorem compressOp_error_iff {S : Bytes} {pin : BitVec 4} {e : OpError} :
    compressOp S pin = .error e ↔ S ≠ [] ∧ countTable S = .error e := by
  by_cases hS : S = []
  · subst hS
    exact iff_of_false nofun fun h => h.1 rfl
  · cases hT : countTable S with
    | error e' => simp [compressOp_of_error hS hT, hS]
    | ok T => simp [compressOp_of_table hS hT]

/-- Every byte of the input has a code in the tree of its own table list. -/
theorem codeOf_isSome_of_mem {S : Bytes} {T : Table} (hS : S ≠ []) (hT : countTable S = .ok T) {x : Byte} (hx : x ∈ S) :
    (codeOf (codesOf T) x).isSome = true := by
  obtain ⟨e, he, rfl⟩ := mem_iff_exists_presentEntry.mp hx
  rw [← (countTable_ok hT).1] at he
  exact (codeOf_isSome_iff (countTable_legal hS hT)).mpr (List.mem_map_of_mem he)

/-- The container that COMPRESS writes is taken apart into its table list, padding count and packed stream. -/
theorem parseContainer_containerOf {S : Bytes} {T : Table} (hS : S ≠ []) (hT : countTable S = .ok T) :
    parseContainer (containerOf T S) = .ok ⟨T, (pack (streamOf T S)).2, (pack (streamOf T S)).1⟩ := by
  refine parseContainer_containerBytes (countTable_legal hS hT) (Nat.le_of_lt_succ (padCount_lt _)) ?_
  refine or_iff_not_imp_left.mpr fun hnil => ?_
  have hlen := pack_length (streamOf T S)
  rw [not_not.mp hnil, List.length_nil] at hlen
  show padCount (streamOf T S).length = 0
  rw [padCount]
  omega

/-- The body of that container unpacks to the codes of the input, which decode to the input. -/
theorem decodeBits_containerOf {S : Bytes} {T : Table} (hS : S ≠ []) (hT : countTable S = .ok T) :
    unpack (pack (streamOf T S)).1 (pack (streamOf T S)).2 = streamOf T S ∧
      decodeBits (codesOf T) (streamOf T S) = .ok S :=
  ⟨unpack_pack _, decodeBits_codesOfAll (countTable_legal hS hT) fun _ hx => codeOf_isSome_of_mem hS hT hx⟩

/-! ### Decompress (R215) -/

theorem decompressOp_of_decode {S : Bytes} (hS : S ≠ []) {c : Container} {out : Bytes} (hc : parseContainer S = .ok c)
    (hd : decodeBits (codesOf c.tbl) (unpack c.body c.pad) = .ok out) (pin : BitVec 4) :
    decompressOp S pin = .ok {
      out := out
      pad := some (BitVec.ofNat 4 c.pad)
      bitlen := (unpack c.body c.pad).length
      nsym := c.tbl.length } := by
  rw [decompressOp, if_neg (length_eq_zero_of_ne_nil hS)]
  simp only [hc, hd]

theorem decompressOp_error_iff {S : Bytes} {pin : BitVec 4} {e : OpError} :
    decompressOp S pin = .error e ↔ S ≠ [] ∧ (parseContainer S = .error e ∨
      ∃ c, parseContainer S = .ok c ∧ decodeBits (codesOf c.tbl) (unpack c.body c.pad) = .error e) := by
  by_cases hS : S = []
  · subst hS
    exact iff_of_false nofun fun h => h.1 rfl
  · rw [decompressOp, if_neg (length_eq_zero_of_ne_nil hS)]
    cases hc : parseContainer S with
    | error e' => simp [hS]
    | ok c => cases hd : decodeBits (codesOf c.tbl) (unpack c.body c.pad) <;> simp [hS, hd]

/-! ### The statements on containers -/

/-- Settles O58: `parse_container` and `decode` by their own equivalences; a container that COMPRESS writes is parsed,
so it is well formed, and decodes. -/
theorem wellFormedContainersAreTheAcceptedOnes : Obligations.WellFormedContainersAreTheAcceptedOnes := by
  unfold Obligations.WellFormedContainersAreTheAcceptedOnes
  refine ⟨fun C hC => ⟨fun c => parseContainer_ok_iff hC, fun e => parseContainer_error_iff⟩,
    fun T bits hT => ⟨fun out => decodeBits_ok_iff hT, fun e => decodeBits_error_iff hT⟩,
    fun S pin e => ⟨compressOp_error_iff, decompressOp_error_iff⟩, fun S pin r hS hr => ?_⟩
  obtain ⟨T, hT, rfl⟩ := (compressOp_ok_iff hS).mp hr
  have hparse := parseContainer_containerOf hS hT
  obtain ⟨hunpack, hdecode⟩ := decodeBits_containerOf hS hT
  have hne : containerOf T S ≠ [] := List.append_ne_nil_of_left_ne_nil (List.cons_ne_nil _ _) _
  exact ⟨((parseContainer_ok_iff hne).mp hparse).1, _, hparse, by rw [hunpack, hdecode]⟩

/-- The bits of the stream are counted entry by entry. -/
theorem streamOf_length {S : Bytes} {T : Table} (hT : countTable S = .ok T) :
    (streamOf T S).length = (T.map fun e => e.freq * ((codeOf (codesOf T) e.sym).getD []).length).sum := by
  have hpresent := presentEntries_weighted_sum S fun x => ((codeOf (codesOf T) x).getD []).length
  rw [← (countTable_ok hT).1] at hpresent
  rw [hpresent, streamOf, bitstream, List.length_flatMap]

theorem code_length_le {T : Table} (hT : LegalTable T) (x : Byte) : ((codeOf (codesOf T) x).getD []).length ≤ 254 := by
  cases hc : codeOf (codesOf T) x with
  | none => exact Nat.zero_le _
  | some c =>
    have hlen := (code_length hT hc).2
    have hshort := hT.short
    rw [Option.getD_some]
    omega

/-- At most 255 * 255 codes of at most 254 bits stay below 2^24 bits (R116). -/
theorem streamOf_length_lt {S : Bytes} {T : Table} (hS : S ≠ []) (hT : countTable S = .ok T) :
    (streamOf T S).length < 2 ^ 24 := by
  have hcodes : (S.map fun x => ((codeOf (codesOf T) x).getD []).length).sum ≤
      (S.map fun x => ((codeOf (codesOf T) x).getD []).length).length * 254 := by
    refine List.sum_le_card_nsmul _ 254 fun n hn => ?_
    obtain ⟨x, -, rfl⟩ := List.mem_map.mp hn
    exact code_length_le (countTable_legal hS hT) x
  have hinput := countTable_length_le hT
  rw [List.length_map] at hcodes
  rw [streamOf, bitstream, List.length_flatMap]
  omega

theorem containerOf_length (T : Table) (S : Bytes) :
    (containerOf T S).length = 2 + 2 * T.length + ((streamOf T S).length + 7) / 8 := by
  rw [containerOf, containerBytes_length, pack_length]

/-- Settles O59: the container's bytes, and its bits counted entry by entry and bounded. -/
theorem containerSizeIsAsStated : Obligations.ContainerSizeIsAsStated := by
  unfold Obligations.ContainerSizeIsAsStated
  intro S pin r T hS hT hr
  obtain rfl := Except.ok.inj ((compressOp_of_table hS hT pin).symm.trans hr)
  exact ⟨streamOf_length hT, containerOf_length T S, streamOf_length_lt hS hT⟩

/-- COMPRESS accepts the inputs whose table `count_table` accepts, the empty one among them. -/
theorem compressOp_accepts_iff {B : Bytes} {pin : BitVec 4} :
    (∃ r, compressOp B pin = .ok r) ↔ (∀ x : Byte, B.count x ≤ 255) ∧ ∃ x : Byte, x ∉ B := by
  by_cases hB : B = []
  · subst hB
    exact iff_of_true ⟨_, compressOp_nil pin⟩ ⟨fun _ => Nat.zero_le _, 0, List.not_mem_nil⟩
  · simp only [compressOp_ok_iff hB, countTable_ok_iff]
    constructor
    · rintro ⟨r, T, ⟨hcount, hmissing, -⟩, -⟩
      exact ⟨hcount, hmissing⟩
    · rintro ⟨hcount, hmissing⟩
      exact ⟨_, _, ⟨hcount, hmissing, rfl⟩, rfl⟩

/-- Settles O60: the container is parsed into what it was made of, and its stream decodes to the input. -/
theorem decompressInvertsCompress : Obligations.DecompressInvertsCompress := by
  unfold Obligations.DecompressInvertsCompress
  intro B pin pin'
  refine ⟨compressOp_accepts_iff, fun r hr => ?_⟩
  by_cases hB : B = []
  · subst hB
    obtain rfl := Except.ok.inj ((compressOp_nil pin).symm.trans hr)
    exact decompressOp_nil pin'
  · obtain ⟨T, hT, rfl⟩ := (compressOp_ok_iff hB).mp hr
    obtain ⟨hunpack, hdecode⟩ := decodeBits_containerOf hB hT
    have hne : containerOf T B ≠ [] := List.append_ne_nil_of_left_ne_nil (List.cons_ne_nil _ _) _
    have hop := decompressOp_of_decode hne (parseContainer_containerOf hB hT) (by rw [hunpack, hdecode]) pin'
    rw [hunpack] at hop
    exact hop

/-! ### What COMPRESS and DECOMPRESS write (R211, R215) -/

/-- Settles O20: the output is the container's bytes, which R110 lays out. -/
theorem compressWritesTheContainer : Obligations.CompressWritesTheContainer := by
  unfold Obligations.CompressWritesTheContainer
  intro s ie T bits hs hlen hT hbits hfit
  have hne : sourceBytes s ≠ [] := by
    rw [← List.length_pos_iff, sourceBytes_length]
    exact Nat.pos_of_ne_zero hlen
  obtain rfl : streamOf T (sourceBytes s) = bits := hbits.symm
  have hsize := containerOf_length T (sourceBytes s)
  exact ⟨containerOf T (sourceBytes s), hsize,
    startsWithTable_tableBytes_append (countTable_ok hT).2.1 (fun e he => (countTable_entry hT he).2.2) _,
    containerBytes_pad (Nat.le_of_lt_succ (padCount_lt _)) T _, containerBytes_body T _ _,
    succeedsWith_of_compute (i := .compress ie) hs rfl (compressOp_of_table hne hT s.pad) (hsize.symm ▸ hfit)⟩

/-- Settles O21: the source is a container, and the output is what its body decodes to. -/
theorem decompressWritesTheDecodedSymbols : Obligations.DecompressWritesTheDecodedSymbols := by
  unfold Obligations.DecompressWritesTheDecodedSymbols
  intro s ie c out hs hlen hc hd hfit
  have hne : sourceBytes s ≠ [] := by
    rw [← List.length_pos_iff, sourceBytes_length]
    exact Nat.pos_of_ne_zero hlen
  have hop := decompressOp_of_decode hne hc hd s.pad
  rw [unpack_length] at hop
  exact succeedsWith_of_compute (i := .decompress ie) hs rfl hop hfit

end Sys2Proof.Proofs
end
